-- ==== Sys2Proof/Word.lean ====
section
/-! DEFINITION. The words of the SL16: the modular numbers, the sets kept as bits, and the two small
index types. Only names stand here; the orders of counts and tags and the byte layouts stand in
Machine/Operands.lean. -/

namespace Sys2Proof

/-- One byte of the tile bus or of the local port. -/
abbrev Byte := BitVec 8

/-- A group frame count, or any count taken modulo 2^32 (Conventions, "Count order"): stamps,
joined-at, absent-from, swap times, the frame-start count and the line-start count. -/
abbrev Count := BitVec 32

/-- A frame tag, taken modulo 65536 (Conventions, "Frame tag order"). -/
abbrev Tag := BitVec 16

/-- A station number, 0..15. -/
abbrev Station := Fin 16

/-- A set of stations, bit n standing for station n (Conventions, "Sets of stations"). -/
abbrev StationSet := BitVec 16

/-- A buffer record number, B0..B3 (R49). -/
abbrev BufferId := Fin 4

/-- A set of fault kinds, bit k standing for kind number k (R156, R157). -/
abbrev FaultSet := BitVec 21

/-- The content of one line as the video input delivers it. The manual gives no pixel format and
acts on no pixel, so a line is the bytes it carries, whatever their number. -/
abbrev LineData := List Byte

end Sys2Proof
end

