-- ==== Sys2Proof/Config.lean ====
section
/-! DEFINITION. What is fixed for the machine: the frozen configuration block as a record (00_scope
"Configuration at a Glance", R173), and the FREE VALUES, constants without a body for what the
manual leaves open. Nothing can be proved of a free value, so a statement that holds, holds whatever
it is. -/

namespace Sys2Proof

/-- The swap policy (R30 to R32); on the wire 0 is FIFO and 1 is LATEST (R119, R182). -/
inductive Policy where
  | fifo
  | latest
deriving DecidableEq, Repr

/-- A validated configuration block (R173), field by field in index order. -/
structure StationConfig where
  /-- own station number (index 1) -/
  station : Station
  /-- own group, 0..3 (index 2) -/
  group : Fin 4
  /-- stations that may belong to the own group (index 3) -/
  members : StationSet
  /-- FL, nominal frame length in lines, 16..4095 (index 4) -/
  fl : Nat
  /-- AL, active lines per frame, 8..FL−4 (index 5) -/
  al : Nat
  /-- LEAD, swap lead in frames, 1..4 (index 6) -/
  lead : Nat
  /-- HB, heartbeat interval in frames, 1..8 (index 7) -/
  hb : Nat
  /-- AF, absence limit in frames, HB+3..255 (index 8) -/
  af : Nat
  /-- LF, listen period in frames, 2..64 (index 9) -/
  lf : Nat
  /-- DB, trim deadband in lines, 0..3 (index 10) -/
  db : Nat
  /-- SNAP, snap limit in lines, 4..⌊FL/4⌋ (index 11) -/
  snap : Nat
  /-- STALLF, stall limit in frames, 4..255 (index 12) -/
  stallf : Nat
  /-- IT, capture timeout in frame periods, 1..4 (index 13) -/
  it : Nat
  /-- swap policy (index 14) -/
  policy : Policy
  /-- the fault kinds that drive the FAULT line (index 15) -/
  faultMask : FaultSet
deriving DecidableEq, Repr

/-- The block of R173's defaults. The blocks read it only where no configuration is held, which no
state after START is (DESIGN CHOICE, log entry 4): it stands for "no configuration". -/
def StationConfig.unconfigured : StationConfig :=
  { station := 0, group := 0, members := 1#16, fl := 1125, al := 1080, lead := 2, hb := 4, af := 16,
    lf := 8, db := 1, snap := 32, stallf := 30, it := 2, policy := .latest,
    faultMask := BitVec.allOnes 21 }

/-- FREE VALUE (log entry 1). Which of the hand-offs that are due is taken next, where the manual
says they "carry no order among them" (R50, R87, R127). Applied to a counter of State. -/
opaque Config.handoffChoice : Nat → Nat

/-- FREE VALUE (log entry 6). What frame memory reads at an address that nothing has written; the
manual gives the external memory no power-up contents (R56). -/
opaque Config.unwrittenLine : Nat → LineData

/-- FREE VALUE (log entry 8). Which order the roster keeps for ready entries of a STATE whose tags
have no ascending order, since tag order is modular (R17). Applied to the entries' tags. -/
opaque Config.unorderedHoldings : List Tag → Nat

/-- FREE VALUE (log entry 18). Whether the staleness check passes a tag that is newer than the newest tag
held but not than every one, where R70's step 1 and R50 differ. Applied to the tag and the tags held. -/
opaque Config.capturedPastNewest : Tag → List Tag → Bool

/-- FREE VALUE (log entry 9). How two counts exactly 2^31 apart are taken, neither being after or
before the other (Conventions): which of two holding stamps is a station's (R25), whether an entry with
such a joined-at is VOTER or JOINING (R12, R17), and whether the self entry with such an own absent-from
is ABSENT (R12). -/
opaque Config.incomparableStamps : Count → Count → Bool

end Sys2Proof
end

