-- ==== Sys2Proof/Syntax.lean ====
section
/-! DEFINITION. The commands of the SL16, one constructor per row of spec/opcode_table.json. A command
is one whole and indivisible step of the part (95_what_each_step_holds.md): a pin event, a byte of the
local port, an event of the video input, of the frame memory port, of the line timer or of the tile
bus. The table gives no operand fields; the operands here are what the rules make each event carry. -/

namespace Sys2Proof

/-- What the tile bus carried from leaving idle to returning to idle (R116): its whole bytes in
arrival order, whether it ended inside a byte, and whether any symbol was invalid. -/
structure Burst where
  bytes : List Byte
  trailingBits : Bool
  invalidSymbol : Bool
deriving DecidableEq, Repr

/-- The commands, in the order of the table. -/
inductive Instr where
  /-- HARD_RESET (R9): the RESET line is asserted, or power-up. -/
  | hardReset
  /-- CHIP_SELECT_FALLS (R169). -/
  | chipSelectFalls
  /-- CHIP_SELECT_RISES (R170). -/
  | chipSelectRises
  /-- LOAD_CONFIG (R172): the 23rd parameter byte, `last`, is received and the command is taken. -/
  | loadConfig (last : Byte)
  /-- START (R174): its command byte is received and the command is taken. -/
  | start
  /-- LEAVE (R175). -/
  | leave
  /-- RESTART (R176). -/
  | restart
  /-- READ_STATE (R178). -/
  | readState
  /-- READ_MEMBER (R179): the parameter byte `n` is received and the command is taken. -/
  | readMember (n : Byte)
  /-- READ_SCHEDULE (R48). -/
  | readSchedule
  /-- READ_FAULTS (R160). -/
  | readFaults
  /-- READ_COUNTERS (R164). -/
  | readCounters
  /-- CLEAR_COUNTERS (R162). -/
  | clearCounters
  /-- UNKNOWN_COMMAND (R171): a command byte that is not a command code. -/
  | unknownCommand (code : Byte)
  /-- LINE_START (R82): a line period ends. -/
  | lineStart
  /-- FRAME_START (R87): the line period that ends the frame ends. -/
  | frameStart
  /-- BEGIN_MARKER (R70) with the frame tag it carries. -/
  | beginMarker (tag : Tag)
  /-- INPUT_LINE (R71) with the line's content. -/
  | inputLine (data : LineData)
  /-- END_MARKER (R73). -/
  | endMarker
  /-- CAPTURE_TIMEOUT (R76): a timeout count stands at IT × FL. -/
  | captureTimeout
  /-- CAPTURE_WRITE_COMPLETE (R91). -/
  | captureWriteComplete
  /-- SCAN_OUT_READ_COMPLETE (R91). -/
  | scanOutReadComplete
  /-- LINE_BUSY (R116): the tile bus leaves idle. -/
  | lineBusy
  /-- BURST_END (R121): the tile bus returns to idle, after the burst it carried. -/
  | burstEnd (burst : Burst)
  /-- GAP_REACHED (R144): the idle time reaches 24 bit times. -/
  | gapReached
  /-- BACKOFF_SLOT_END (R144): a slot of 32 bit times ends idle. -/
  | backoffSlotEnd
  /-- TRANSMISSION_COMPLETE (R146). -/
  | transmissionComplete
  /-- COLLISION (R147): readback sees a low level in a released half-cell. -/
  | collision
  /-- JAM_END (R147): the 16 bit times of the jam are over. -/
  | jamEnd
  /-- BYTE_CLOCKED (R169): a byte is clocked at the SPI port. -/
  | byteClocked (byte : Byte)
  /-- RESET_RELEASED (R95): the RESET line is released. -/
  | resetReleased
deriving DecidableEq, Repr

end Sys2Proof
end

