-- ==== Sys2Proof/Machine/State.lean ====
section
/-! DEFINITION. The state of one SL16, block by block (00_scope "Block Overview"), as plain data; the
reasons a step can stop; the state after a hard reset. A field that only the model has is said so. -/

namespace Sys2Proof.Machine

/-! ## Roster Unit (R1, R10) -/

/-- The self state (R1). -/
inductive SelfState where
  | config | listen | joining | member | evicted | leaving | detached
deriving DecidableEq, Repr

/-- The state of a roster entry (R10, R11). -/
inductive EntryState where
  | vacant | expected | joining | voter | quiet | absent
deriving DecidableEq, Repr

/-- The absence cause of a roster entry (R10). -/
inductive AbsenceCause where
  | none | silence | left
deriving DecidableEq, Repr

/-- A (tag, ready stamp) pair: an element of a ready list or of a station's holdings (R10, R50). -/
structure ReadyPair where
  tag : Tag
  stamp : Count
deriving DecidableEq, Repr

/-- One roster entry (R10). The provisional absent-from is not stored. -/
structure RosterEntry where
  state : EntryState
  joinedAt : Option Count
  absentFrom : Option Count
  cause : AbsenceCause
  clash : Bool
  lastStamp : Option Count
  lastFrame : Option Count
  /-- last message sequence; BIU receive is its only writer (R115) -/
  lastSeq : Option Byte
  holdings : List ReadyPair
  shownTag : Option Tag
  shownSince : Option Count
  view : StationSet
  /-- phase offset in lines and its age in frames; TIM is their only writer (R96) -/
  offset : Option Int
  age : Nat
deriving DecidableEq, Repr

/-- A roster entry with every field at its initial value, in the state given (R10). -/
def RosterEntry.initial (state : EntryState) : RosterEntry :=
  { state := state, joinedAt := none, absentFrom := none, cause := .none, clash := false,
    lastStamp := none, lastFrame := none, lastSeq := none, holdings := [], shownTag := none,
    shownSince := none, view := 0#16, offset := none, age := 0 }

/-- The Roster Unit's state (R1, R10). -/
structure RosterUnit where
  self : SelfState
  ownJoined : Option Count
  ownAbsent : Option Count
  frameStarts : Count
  /-- one entry per station number; the own number's is not read, R12 builds the self entry -/
  roster : Vector RosterEntry 16
deriving DecidableEq, Repr

/-! ## Agreement Unit (R23) -/

/-- An entry (tag, T) of the swap schedule (R23). -/
structure ScheduleEntry where
  tag : Tag
  time : Count
deriving DecidableEq, Repr

/-- The Agreement Unit's state (R23). -/
structure AgreementUnit where
  schedule : List ScheduleEntry
  stallCount : Nat
  stallRaised : Bool
deriving DecidableEq, Repr

/-! ## Buffer Manager (R49 to R51) -/

/-- The use of a buffer (R49). -/
inductive BufferState where
  | free | filling | ready | showing
deriving DecidableEq, Repr

/-- One buffer record (R49). -/
structure BufferRecord where
  state : BufferState
  tag : Option Tag
  readyStamp : Option Count
  lineCount : Nat
  pinned : Bool
deriving DecidableEq, Repr

/-- A FREE record (R49). -/
def BufferRecord.free : BufferRecord :=
  { state := .free, tag := none, readyStamp := none, lineCount := 0, pinned := false }

/-- The Buffer Manager's state (R49 to R51). The own ready list is kept as the buffers in it, in
list order; its pairs are read from their records (`BufferManager.readyList`). -/
structure BufferManager where
  records : Vector BufferRecord 4
  ready : List BufferId
  shownTag : Option Tag
  shownSince : Option Count
deriving DecidableEq, Repr

/-! ## Capture Unit (R68) -/

/-- The capture state (R68). -/
inductive CaptureState where
  | idle | filling | discard
deriving DecidableEq, Repr

/-- The frame a line of the FIFO belongs to: the frame in FILLING or the held frame (R68). -/
inductive LineOwner where
  | current | held
deriving DecidableEq, Repr

/-- One line of the line FIFO: its frame, its slot and its content (R68). -/
structure FifoLine where
  owner : LineOwner
  slot : Nat
  data : LineData
deriving DecidableEq, Repr

/-- A held begin marker with its own received and timeout counts (R68, R75). -/
structure HeldBegin where
  tag : Tag
  received : Nat
  timeout : Nat
deriving DecidableEq, Repr

/-- The capture state that a waiting abort names as its result (R72). -/
inductive AbortResult where
  | idle | discard
deriving DecidableEq, Repr

/-- The Capture Unit's state (R68). -/
structure CaptureUnit where
  state : CaptureState
  closing : Bool
  tag : Option Tag
  buffer : Option BufferId
  received : Nat
  timeout : Nat
  fifo : List FifoLine
  held : Option HeldBegin
  discardAfterRelease : Bool
  /-- an abort that waits for a write in progress, with its result (implied by R72) -/
  aborting : Option AbortResult
deriving DecidableEq, Repr

/-- The Capture Unit after a hard reset (R68). -/
def CaptureUnit.initial : CaptureUnit :=
  { state := .idle, closing := false, tag := none, buffer := none, received := 0, timeout := 0,
    fifo := [], held := none, discardAfterRelease := false, aborting := none }

/-! ## Scan-out Unit (R81) -/

/-- The line timer (R81). -/
inductive TimerState where
  | stopped | running
deriving DecidableEq, Repr

/-- A line slot of frame memory: slot n of region k (R56). -/
structure SlotAddress where
  buffer : BufferId
  slot : Nat
deriving DecidableEq, Repr

/-- A capture write of one line. `abandoned` marks a write whose capture RESTART has reset, which
completes and counts nothing (R78). -/
structure LineWrite where
  addr : SlotAddress
  data : LineData
  abandoned : Bool
deriving DecidableEq, Repr

/-- The transfer in progress at the frame memory port (R81, R91). -/
inductive PortState where
  | idle
  | read (addr : SlotAddress)
  | write (w : LineWrite)
deriving DecidableEq, Repr

/-- The content of the line on the panel output (R85). `awaiting` is an active line whose read has
not delivered yet. -/
inductive LineContent where
  | awaiting | picture (data : LineData) | blankFill | blankLine
deriving DecidableEq, Repr

/-- The line on the panel output port in this line period (R85). -/
structure PanelLine where
  number : Nat
  frameStartMark : Bool
  content : LineContent
deriving DecidableEq, Repr

/-- The Scan-out Unit's state (R81) and its panel output (R85), `none` while the port is quiet. -/
structure ScanOutUnit where
  timer : TimerState
  currentLine : Nat
  elapsed : Nat
  endLine : Nat
  frameLength : Nat
  realign : Option Nat
  swapThisFrame : Bool
  swapLine : Bool
  port : PortState
  readWaiting : Option SlotAddress
  writeWaiting : Option LineWrite
  panel : Option PanelLine
deriving DecidableEq, Repr

/-! ## Timing Unit (R96) -/

/-- The count state (R96). -/
inductive CountState where
  | unset | set
deriving DecidableEq, Repr

/-- The Timing Unit's state (R96). -/
structure TimingUnit where
  count : Count
  countState : CountState
  lineStarts : Count
  realignNumber : Byte
  realignPending : Bool
  lastMedian : Int
deriving DecidableEq, Repr

/-! ## Bus Interface Unit (R100, R115, R128, R139) -/

/-- The receive timing of a burst (R100). -/
structure ReceiveTiming where
  count : Count
  line : Nat
  lineStarts : Count
  realignNumber : Byte
  countState : CountState
deriving DecidableEq, Repr

/-- The receive state (R115). -/
inductive ReceiveState where
  | off | waitIdle | idle | receiving
deriving DecidableEq, Repr

/-- BIU receive (R115). -/
structure BusReceiver where
  state : ReceiveState
  bytes : List Byte
  overlong : Bool
  trailingBits : Bool
  invalidSymbol : Bool
  timing : Option ReceiveTiming
deriving DecidableEq, Repr

/-- The reason of a REPEAT (R119, R129). -/
inductive RepeatReason where
  | bodyBad | lenBad
deriving DecidableEq, Repr

/-- The class of a queue entry (R139). A target is named by at most one entry, so the class names
the entry within the queue. -/
inductive EntryClass where
  | standing
  | repeatTo (target : Station) (reason : RepeatReason)
deriving DecidableEq, Repr

/-- An entry of the outbound queue (R139). -/
structure QueueEntry where
  cls : EntryClass
  seq : Option Byte
  collisions : Nat
  renew : Bool
deriving DecidableEq, Repr

/-- A new queue entry (R139). -/
def QueueEntry.fresh (cls : EntryClass) : QueueEntry :=
  { cls := cls, seq := none, collisions := 0, renew := false }

/-- The message kinds (R117). -/
inductive MessageKind where
  | join | state | leave | repeatRequest
deriving DecidableEq, Repr

/-- The message in flight: its kind, the stamp it carries, and its bytes on the wire (R145). -/
structure OutMessage where
  kind : MessageKind
  stamp : Count
  bytes : List Byte
deriving DecidableEq, Repr

/-- The transmit state (R143). -/
inductive TransmitState where
  | txIdle | waitGap | backoff | sending | jamming
deriving DecidableEq, Repr

/-- BIU transmit (R139). -/
structure BusTransmitter where
  queue : List QueueEntry
  seq : Byte
  heartbeat : Nat
  state : TransmitState
  backoffCount : Nat
  generator : BitVec 16
  /-- in BACKOFF, a slot is running; no while the gap is awaited again (implied by R144) -/
  slotRunning : Bool
  /-- the message being sent, in SENDING (R145) -/
  inFlight : Option OutMessage
  /-- in JAMMING, the entry whose attempt collided, while it is queued (implied by R147) -/
  jamEntry : Option EntryClass
deriving DecidableEq, Repr

/-- The transmit side after a hard reset (R139, R143, R154). -/
def BusTransmitter.initial : BusTransmitter :=
  { queue := [], seq := 0#8, heartbeat := 0, state := .txIdle, backoffCount := 0,
    generator := 0#16, slotRunning := false, inFlight := none, jamEntry := none }

/-! ## Messages as the receiver hands them on (R119, R120, R127) -/

/-- The configuration fields of a JOIN "as they stand on the wire" (R119, R127). -/
structure JoinFields where
  fl : Nat
  al : Nat
  lead : Nat
  hb : Nat
  af : Nat
  members : StationSet
  policy : Nat
deriving DecidableEq, Repr

/-- The fields of a STATE, the shown tag and shown-since read by R120. -/
structure StateFields where
  memberSince : Count
  shownTag : Option Tag
  shownSince : Option Count
  view : StationSet
  ready : List ReadyPair
deriving DecidableEq, Repr

/-- What follows the timing prefix (R119, R120). -/
inductive MessageBody where
  | join (fields : JoinFields)
  | state (fields : StateFields)
  | leave
  | repeatRequest (target : Byte) (reason : Byte)
deriving DecidableEq, Repr

/-- A message that has passed the receive checks (R127). -/
structure Message where
  sender : Station
  seq : Byte
  stamp : Count
  phase : Nat
  body : MessageBody
deriving DecidableEq, Repr

/-- What an accepted message asks of the transmit side (R130 to R132). -/
inductive TransmitClaim where
  /-- the own waiting REPEAT entry for a station is withdrawn (R130, R131) -/
  | withdraw (x : Station)
  /-- a REPEAT naming the own station is answered (R132) -/
  | answer
deriving DecidableEq, Repr

/-- What has been handed on between blocks and not taken by its receiver yet, when a step ends: hand-offs of
an accepted message that the own transmit start, its collision, a frame start or RESTART may come before (R104,
R112, R127, R130, R131, R145, R147, R150), and a realignment request that RESTART may come before (R94, R112). -/
structure Arrivals where
  /-- for the Roster Unit, an accepted message -/
  roster : Option Message
  /-- for the Timing Unit, an accepted message with its receive timing -/
  timing : Option (Message × ReceiveTiming)
  /-- for the transmit side, the claims of an accepted message -/
  claims : List TransmitClaim
  /-- for the Scan-out Unit, a realignment request for a line -/
  request : Option Nat
deriving DecidableEq, Repr

/-- Nothing is on its way between blocks. -/
def Arrivals.nothing : Arrivals := { roster := none, timing := none, claims := [], request := none }

/-- The tile bus as this station sees it (R137). -/
inductive BusLine where
  | idle | busy
deriving DecidableEq, Repr

/-! ## Fault Unit (R156, R157, R163) -/

/-- The fault kinds, in the order of their numbers (R157). -/
inductive FaultKind where
  | hdrBad | kindBad | lenBad | bodyBad | alien | numberClash | configClash | seqGap | txGiveup
  | memberLost | viewSplit | lateSwap | swapSplit | stall | countJump | snap | inputDrop | inputBad
  | inputStale | inputOverrun | evicted
deriving DecidableEq, Repr

/-- The event counters, in the order of their numbers (R163). -/
inductive EventKind where
  | sent | accepted | duplicates | collisions | swaps | passedOver | dropped | repeatsLost
deriving DecidableEq, Repr

/-- The Fault Unit's state (R156). -/
structure FaultUnit where
  summary : FaultSet
  faultCounters : Vector Nat 21
  eventCounters : Vector Nat 8
  mask : FaultSet
  faultLine : Bool
deriving DecidableEq, Repr

/-! ## Local Port (R168) -/

/-- The transaction phase (R168, R169). -/
inductive PortPhase where
  | idle | command | parameters | reply | ignore
deriving DecidableEq, Repr

/-- The Local Port's state (R168). -/
structure LocalPort where
  held : Option StationConfig
  frozen : Bool
  phase : PortPhase
  command : Option Byte
  params : List Byte
  reply : Option (List Byte)
  /-- how many bytes of the reply copy have been sent (implied by R169) -/
  sent : Nat
  /-- the byte the port drove while the last byte was clocked (R169) -/
  dataOut : Byte
deriving DecidableEq, Repr

/-- The Local Port after a hard reset (R168, R181). -/
def LocalPort.initial : LocalPort :=
  { held := none, frozen := false, phase := .idle, command := none, params := [], reply := none,
    sent := 0, dataOut := 0#8 }

/-- Frame memory (R56): the slots written so far as (address, line) pairs, addresses strictly
rising; `slotKey` (Machine/Ops.lean) numbers the slots. -/
abbrev FrameMemory := List (Nat × LineData)

/-- The frame memory is in its canonical form: addresses strictly rising. An unlisted slot reads as
"nothing written", which no entry can equal. -/
def FrameMemory.wf : FrameMemory → Bool
  | [] => true
  | [_] => true
  | a :: b :: rest => decide (a.1 < b.1) && FrameMemory.wf (b :: rest)

/-! ## The whole machine -/

/-- The state of the block. -/
structure State where
  /-- the commands that wait, first in, first out (the model's own field) -/
  pending : List Instr
  /-- the RESET pin is held asserted (R95, 10.8) -/
  resetHeld : Bool
  /-- how many free hand-off choices have been taken (the model's own field, log entry 1) -/
  choices : Nat
  /-- the tile bus (R137) -/
  line : BusLine
  ros : RosterUnit
  agr : AgreementUnit
  buf : BufferManager
  cap : CaptureUnit
  scn : ScanOutUnit
  tim : TimingUnit
  rx : BusReceiver
  tx : BusTransmitter
  flt : FaultUnit
  lpt : LocalPort
  /-- what is on its way between blocks (implied by R94, R104, R112, R130, R131, R147 and R150) -/
  arriving : Arrivals
  /-- the external frame memory (R56) -/
  mem : FrameMemory
deriving DecidableEq, Repr

/-- Why the machine stops with a fault. -/
inductive Fault where
  /-- Raised by CAPTURE_WRITE_COMPLETE and SCAN_OUT_READ_COMPLETE for a transfer whose slot is not
  among the AL line slots of its region: the manual says "Each region has AL line slots" (R56), so
  the address does not exist. No state that the part can reach holds such a transfer. Safe. -/
  | noSuchSlot (addr : SlotAddress)
deriving DecidableEq, Repr

/-- Why a command is refused. -/
inductive Refusal where
  /-- Raised by `exec` for a command that has no meaning yet; no command of this model. Safe. -/
  | notModelled (mnemonic : String)
deriving DecidableEq, Repr

/-! ## Hard reset values -/

/-- The Roster Unit after a hard reset (R1, R9). -/
def RosterUnit.initial : RosterUnit :=
  { self := .config, ownJoined := none, ownAbsent := none, frameStarts := 0#32,
    roster := Vector.replicate 16 (RosterEntry.initial .vacant) }

/-- The Agreement Unit after a hard reset (R23). -/
def AgreementUnit.initial : AgreementUnit :=
  { schedule := [], stallCount := 0, stallRaised := false }

/-- The Buffer Manager after a hard reset, and after RESTART (R65, R66). -/
def BufferManager.initial : BufferManager :=
  { records := Vector.replicate 4 BufferRecord.free, ready := [], shownTag := none,
    shownSince := none }

/-- The Scan-out Unit after a hard reset (R81). The end line and the frame length "have no meaning
until START"; 0 is the model's value for them (DESIGN CHOICE, log entry 3). -/
def ScanOutUnit.initial : ScanOutUnit :=
  { timer := .stopped, currentLine := 0, elapsed := 1, endLine := 0, frameLength := 0,
    realign := none, swapThisFrame := false, swapLine := false, port := .idle, readWaiting := none,
    writeWaiting := none, panel := none }

/-- The Timing Unit after a hard reset (R96). -/
def TimingUnit.initial : TimingUnit :=
  { count := 0#32, countState := .unset, lineStarts := 0#32, realignNumber := 0#8,
    realignPending := false, lastMedian := 0 }

/-- BIU receive after a hard reset (R115). -/
def BusReceiver.initial : BusReceiver :=
  { state := .off, bytes := [], overlong := false, trailingBits := false, invalidSymbol := false,
    timing := none }

/-- The Fault Unit after a hard reset (R156, R167). -/
def FaultUnit.initial : FaultUnit :=
  { summary := 0#21, faultCounters := Vector.replicate 21 0, eventCounters := Vector.replicate 8 0,
    mask := 0#21, faultLine := false }

/-- The machine right after reset: every block at its hard-reset values, nothing written to frame
memory, no command waiting, the RESET line released, and the tile bus idle (DESIGN CHOICE for the
bus, log entry 3). -/
def State.reset : State :=
  { pending := [], resetHeld := false, choices := 0, line := .idle, ros := .initial,
    agr := .initial, buf := .initial, cap := .initial, scn := .initial, tim := .initial,
    rx := .initial, tx := .initial, flt := .initial, lpt := .initial, arriving := .nothing, mem := [] }

/-! ## Named updates, one per block

Each meaning writes State through these, so that "every other block is unchanged" is a lemma about a
name (Laws/State.lean). -/

/-- The state with its queue of waiting commands replaced. -/
def State.withPending (s : State) (x : List Instr) : State := { s with pending := x }

/-- The state with its RESET pin replaced. -/
def State.withResetHeld (s : State) (x : Bool) : State := { s with resetHeld := x }

/-- The state with its free-choice counter replaced. -/
def State.withChoices (s : State) (x : Nat) : State := { s with choices := x }

/-- The state with its tile bus line replaced. -/
def State.withLine (s : State) (x : BusLine) : State := { s with line := x }

/-- The state with its Roster Unit replaced. -/
def State.withRos (s : State) (x : RosterUnit) : State := { s with ros := x }

/-- The state with its Agreement Unit replaced. -/
def State.withAgr (s : State) (x : AgreementUnit) : State := { s with agr := x }

/-- The state with its Buffer Manager replaced. -/
def State.withBuf (s : State) (x : BufferManager) : State := { s with buf := x }

/-- The state with its Capture Unit replaced. -/
def State.withCap (s : State) (x : CaptureUnit) : State := { s with cap := x }

/-- The state with its Scan-out Unit replaced. -/
def State.withScn (s : State) (x : ScanOutUnit) : State := { s with scn := x }

/-- The state with its Timing Unit replaced. -/
def State.withTim (s : State) (x : TimingUnit) : State := { s with tim := x }

/-- The state with its receive machine replaced. -/
def State.withRx (s : State) (x : BusReceiver) : State := { s with rx := x }

/-- The state with its transmit side replaced. -/
def State.withTx (s : State) (x : BusTransmitter) : State := { s with tx := x }

/-- The state with its Fault Unit replaced. -/
def State.withFlt (s : State) (x : FaultUnit) : State := { s with flt := x }

/-- The state with its Local Port replaced. -/
def State.withLpt (s : State) (x : LocalPort) : State := { s with lpt := x }

/-- The state with what is on its way between blocks replaced. -/
def State.withArriving (s : State) (x : Arrivals) : State := { s with arriving := x }

/-- The state with its frame memory replaced. -/
def State.withMem (s : State) (x : FrameMemory) : State := { s with mem := x }

end Sys2Proof.Machine
end

