-- ==== Sys2Proof/Machine/Operands.lean ====
section
/-! DEFINITION. The modular orders of counts and tags, sets of stations, byte layouts, and the two
cyclic redundancy checks: what the rules compute with, each written once. -/

namespace Sys2Proof.Machine

/-! ## Count order and tag order (Conventions) -/

/-- Count h is after count g: (h − g) mod 2^32 lies in 1..2^31−1. -/
def isAfter (h g : Count) : Bool := decide (1 ≤ (h - g).toNat) && decide ((h - g).toNat < 2147483648)

/-- Count h is before count g: g is after h. -/
def isBefore (h g : Count) : Bool := isAfter g h

/-- "Not before": equal or after. -/
def notBefore (h g : Count) : Bool := h == g || isAfter h g

/-- "Not after": equal or before. -/
def notAfter (h g : Count) : Bool := h == g || isBefore h g

/-- Tag b is newer than tag a: (b − a) mod 65536 lies in 1..32767. -/
def isNewer (b a : Tag) : Bool := decide (1 ≤ (b - a).toNat) && decide ((b - a).toNat < 32768)

/-- Tag a is older than tag b: b is newer than a. -/
def isOlder (a b : Tag) : Bool := isNewer b a

/-- A count moved by a number of frames, modulo 2^32. -/
def addFrames (g : Count) (n : Nat) : Count := g + BitVec.ofNat 32 n

/-- A difference of counts as a signed quantity, −2^31..2^31−1 (Conventions). -/
def signedDifference (h g : Count) : Int := (h - g).toInt

/-! ## Sets of stations -/

/-- The station numbers 0..15 in ascending order. -/
def stations : List Station := [0, 1, 2, 3, 4, 5, 6, 7, 8, 9, 10, 11, 12, 13, 14, 15]

/-- Station n is in the set. -/
def hasStation (set : StationSet) (n : Station) : Bool := set.getLsbD n.val

/-- The set with exactly the stations that pass the test. -/
def stationSetOf (test : Station → Bool) : StationSet :=
  stations.foldl (fun acc n => if test n then acc ||| (1#16 <<< n.val) else acc) 0#16

/-! ## Signed lines -/

/-- A number of lines bounded to −limit..limit (R108, R111). -/
def boundLines (limit : Nat) (x : Int) : Int := max (-(limit : Int)) (min (limit : Int) x)

/-- A frame length bounded to ⌊FL/2⌋..FL+⌊FL/2⌋ (R83, R84, R110). -/
def boundLength (fl : Nat) (x : Int) : Nat :=
  (max ((fl / 2 : Nat) : Int) (min ((fl + fl / 2 : Nat) : Int) x)).toNat

/-- Insertion into an ascending list of whole numbers. -/
def insertAscending (x : Int) : List Int → List Int
  | [] => [x]
  | y :: ys => if x ≤ y then x :: y :: ys else y :: insertAscending x ys

/-- The list in ascending order. -/
def sortAscending : List Int → List Int
  | [] => []
  | x :: xs => insertAscending x (sortAscending xs)

/-! ## Byte layouts: least significant byte first (Conventions) -/

/-- The low n bytes of a number, least significant first. -/
def bytesOf : Nat → Nat → List Byte
  | 0, _ => []
  | n + 1, v => BitVec.ofNat 8 v :: bytesOf n (v / 256)

/-- The number that bytes spell, least significant first. -/
def ofBytes : List Byte → Nat
  | [] => 0
  | b :: bs => b.toNat + 256 * ofBytes bs

/-- The number in n bytes of a layout from an offset on; a byte that is not there reads 0. -/
def field (bs : List Byte) (offset n : Nat) : Nat := ofBytes ((bs.drop offset).take n)

/-- A signed number of lines in two bytes, two's complement (R183). -/
def signedBytes (x : Int) : List Byte := bytesOf 2 (BitVec.ofInt 16 x).toNat

/-- A count, or 0 bytes where it is none (R177). -/
def countBytes (c : Option Count) : List Byte := bytesOf 4 (c.getD 0#32).toNat

/-- A tag, or 0 bytes where it is none (R177). -/
def tagBytes (t : Option Tag) : List Byte := bytesOf 2 (t.getD 0#16).toNat

/-- (tag, count) pairs, six bytes each (R120, R183). -/
def pairBytes (ps : List ReadyPair) : List Byte :=
  ps.flatMap fun p => bytesOf 2 p.tag.toNat ++ bytesOf 4 p.stamp.toNat

/-- A number whose bit i is 1 where the i-th flag holds. -/
def flagBits : List Bool → Nat
  | [] => 0
  | b :: bs => b.toNat + 2 * flagBits bs

/-! ## The header check and the body check (R118) -/

/-- One covered bit taken into a check register. -/
def crcBit {w : Nat} (lowerTerms reg : BitVec w) (bit : Bool) : BitVec w :=
  if reg.msb ^^ bit then (reg <<< 1) ^^^ lowerTerms else reg <<< 1

/-- One covered byte, least significant bit first. -/
def crcByte {w : Nat} (lowerTerms reg : BitVec w) (b : Byte) : BitVec w :=
  [0, 1, 2, 3, 4, 5, 6, 7].foldl (fun r i => crcBit lowerTerms r (b.getLsbD i)) reg

/-- The header check: x^8+x^2+x+1, initial value 00h (R118). -/
def headerCheck (bs : List Byte) : BitVec 8 := bs.foldl (crcByte 0x07#8) 0x00#8

/-- The body check: x^16+x^15+x^2+1, initial value FFFFh (R118). -/
def bodyCheck (bs : List Byte) : BitVec 16 := bs.foldl (crcByte 0x8005#16) 0xFFFF#16

end Sys2Proof.Machine
end

