-- ==== Sys2Proof/Machine/Flags.lean ====
section
/-! DEFINITION. The Fault Unit (chapter 9): the fault summary, the fault and event counters, the
FAULT line, and the operations every block reaches them by. -/

namespace Sys2Proof.Machine

/-- The kind number of a fault kind (R157). -/
def FaultKind.number : FaultKind → Fin 21
  | .hdrBad => 0 | .kindBad => 1 | .lenBad => 2 | .bodyBad => 3 | .alien => 4 | .numberClash => 5
  | .configClash => 6 | .seqGap => 7 | .txGiveup => 8 | .memberLost => 9 | .viewSplit => 10
  | .lateSwap => 11 | .swapSplit => 12 | .stall => 13 | .countJump => 14 | .snap => 15
  | .inputDrop => 16 | .inputBad => 17 | .inputStale => 18 | .inputOverrun => 19 | .evicted => 20

/-- The number of an event counter (R163). -/
def EventKind.number : EventKind → Fin 8
  | .sent => 0 | .accepted => 1 | .duplicates => 2 | .collisions => 3 | .swaps => 4
  | .passedOver => 5 | .dropped => 6 | .repeatsLost => 7

/-- The set with exactly one fault kind. -/
def FaultKind.bit (k : FaultKind) : FaultSet := 1#21 <<< k.number.val

/-- A counter raised by an amount, stopping at its limit (R156). -/
def bump {n : Nat} (counters : Vector Nat n) (i : Fin n) (amount limit : Nat) : Vector Nat n :=
  counters.set i.val (min limit (counters[i] + amount))

/-- The level of the FAULT line: the summary shares a kind with the mask in effect (R159). -/
def faultLevel (summary mask : FaultSet) : Bool := summary &&& mask != 0#21

/-- One kind of a raise: it joins the summary, its counter increases by 1 and stops at 255, and the
FAULT line follows (R158, R159). -/
def FaultUnit.raiseKind (f : FaultUnit) (k : FaultKind) : FaultUnit :=
  { f with
    summary := f.summary ||| k.bit
    faultCounters := bump f.faultCounters k.number 1 255
    faultLine := faultLevel (f.summary ||| k.bit) f.mask }

/-- A raise of several kinds, each named once (R158). -/
def FaultUnit.raise (f : FaultUnit) (ks : List FaultKind) : FaultUnit := ks.foldl FaultUnit.raiseKind f

/-- A count signal that carries `amount` events (R163). -/
def FaultUnit.count (f : FaultUnit) (k : EventKind) (amount : Nat) : FaultUnit :=
  { f with eventCounters := bump f.eventCounters k.number amount 65535 }

/-- READ_FAULTS empties the summary, which deasserts the FAULT line (R160). -/
def FaultUnit.emptySummary (f : FaultUnit) : FaultUnit :=
  { f with summary := 0#21, faultLine := faultLevel 0#21 f.mask }

/-- CLEAR_COUNTERS sets every fault and event counter to 0 (R162). -/
def FaultUnit.clearCounters (f : FaultUnit) : FaultUnit :=
  { f with faultCounters := Vector.replicate 21 0, eventCounters := Vector.replicate 8 0 }

/-- START takes the fault mask in effect from the frozen configuration (R165); the FAULT line is the
level of R159 for it. -/
def FaultUnit.takeMask (f : FaultUnit) (mask : FaultSet) : FaultUnit :=
  { f with mask := mask, faultLine := faultLevel f.summary mask }

/-- A raise of one kind by a block. -/
def raise (s : State) (k : FaultKind) : State := s.withFlt (s.flt.raise [k])

/-- A raise of several kinds in one event (R158). -/
def raiseAll (s : State) (ks : List FaultKind) : State := s.withFlt (s.flt.raise ks)

/-- A count signal to the Fault Unit (R163). -/
def countEvents (s : State) (k : EventKind) (amount : Nat) : State := s.withFlt (s.flt.count k amount)

end Sys2Proof.Machine
end

