-- ==== Sys2Proof/Machine/Ops.lean ====
section
/-! DEFINITION. The shared operations over State: the gate of the RESET line, the frozen configuration,
frame memory, the roster, and the voter set. -/

namespace Sys2Proof.Machine

/-- A command's effect while the RESET line is released; "hard reset while held" (10.8, R95): while
the line is held the part stays in its hard-reset values and nothing reaches it. -/
def unlessReset (s : State) (effect : State → State) : Host.Outcome State Fault Refusal :=
  if s.resetHeld then .next s else .next (effect s)

/-- The configuration every block uses: the held one, which START froze (R174). -/
def State.cfg (s : State) : StationConfig := s.lpt.held.getD StationConfig.unconfigured

/-- The self states in which the station captures, transmits and is of its group: JOINING, MEMBER,
EVICTED and LEAVING (R1, R24, R69, R139). -/
def SelfState.active : SelfState → Bool
  | .joining | .member | .evicted | .leaving => true
  | .config | .listen | .detached => false

/-! ## Frame memory (R56) -/

/-- The model's number of slot n of region k: regions in the order B0 to B3, 4096 numbers each, more
than the largest AL (log entry 6). -/
def slotKey (a : SlotAddress) : Nat := 4096 * a.buffer.val + a.slot

/-- The line written last to a key, or none where nothing has been written. -/
def readKey (mem : FrameMemory) (key : Nat) : Option LineData :=
  match mem with
  | [] => none
  | (k, d) :: rest => if k = key then some d else readKey rest key

/-- A write of one key: the entry takes its place in ascending order. -/
def writeKey (mem : FrameMemory) (key : Nat) (data : LineData) : FrameMemory :=
  match mem with
  | [] => [(key, data)]
  | (k, d) :: rest =>
    if key < k then (key, data) :: (k, d) :: rest
    else if key = k then (key, data) :: rest
    else (k, d) :: writeKey rest key data

/-- The line read from a slot; a slot that nothing has written reads a free value. -/
def readSlot (mem : FrameMemory) (a : SlotAddress) : LineData :=
  (readKey mem (slotKey a)).getD (Config.unwrittenLine (slotKey a))

/-- "Each region has AL line slots, numbered from 0" (R56). -/
def slotExists (s : State) (a : SlotAddress) : Bool := decide (a.slot < s.cfg.al)

/-! ## The roster (R10) -/

/-- The entry of a station. -/
def RosterUnit.entry (r : RosterUnit) (n : Station) : RosterEntry := r.roster[n]

/-- The roster with one entry changed. -/
def RosterUnit.setEntry (r : RosterUnit) (n : Station) (e : RosterEntry) : RosterUnit :=
  { r with roster := r.roster.set n.val e }

/-- The roster with every entry changed by its number. -/
def RosterUnit.mapEntries (r : RosterUnit) (f : Station → RosterEntry → RosterEntry) : RosterUnit :=
  { r with roster := Vector.ofFn fun n => f n r.roster[n] }

/-- The joined-at that decides a station's voting: own joined-at for the own number (R20). -/
def joinedAtOf (s : State) (n : Station) : Option Count :=
  if n = s.cfg.station then s.ros.ownJoined else (s.ros.entry n).joinedAt

/-- The absent-from that decides a station's voting: own absent-from for the own number (R20). -/
def absentFromOf (s : State) (n : Station) : Option Count :=
  if n = s.cfg.station then s.ros.ownAbsent else (s.ros.entry n).absentFrom

/-- Station n is in the voter set V(g) (R20). -/
def isVoter (s : State) (g : Count) (n : Station) : Bool :=
  match joinedAtOf s n with
  | none => false
  | some j =>
    notBefore g j &&
      match absentFromOf s n with
      | none => true
      | some a => isBefore g a

/-- V(g) as a set, the own view at the current count (R20, R21). -/
def voterSet (s : State) (g : Count) : StationSet := stationSetOf (isVoter s g)

/-- The provisional absent-from of an entry: the last-heard stamp plus AF, while the entry is JOINING,
VOTER or QUIET and holds no absent-from (R10). -/
def provisionalAbsent (cfg : StationConfig) (e : RosterEntry) : Option Count :=
  match e.state, e.absentFrom, e.lastStamp with
  | .joining, none, some c | .voter, none, some c | .quiet, none, some c => some (addFrames c cfg.af)
  | _, _, _ => none

/-! ## The own ready list (R50) -/

/-- The pair of a READY record. -/
def BufferRecord.pair (r : BufferRecord) : Option ReadyPair :=
  match r.tag, r.readyStamp with
  | some t, some c => some { tag := t, stamp := c }
  | _, _ => none

/-- The own ready list as (tag, ready stamp) pairs, in ascending tag order (R50). -/
def BufferManager.readyList (b : BufferManager) : List ReadyPair :=
  b.ready.filterMap fun i => b.records[i].pair

end Sys2Proof.Machine
end

