-- ==== Sys2Proof/Machine/Buffers.lean ====
section
/-! DEFINITION. The Buffer Manager (chapter 3): the claims the other blocks make on the four buffer
records, each taken whole. -/

namespace Sys2Proof.Machine

/-- The record numbers in ascending order. -/
def bufferIds : List BufferId := [0, 1, 2, 3]

/-- The lowest-numbered record in a state. -/
def BufferManager.find (b : BufferManager) (st : BufferState) : Option BufferId :=
  bufferIds.find? fun i => b.records[i].state == st

/-- The READY record that holds a tag. -/
def BufferManager.findReady (b : BufferManager) (tag : Tag) : Option BufferId :=
  bufferIds.find? fun i => b.records[i].state == .ready && b.records[i].tag == some tag

/-- The pool with one record replaced. -/
def BufferManager.setRecord (b : BufferManager) (i : BufferId) (r : BufferRecord) : BufferManager :=
  { b with records := b.records.set i.val r }

/-- An abort reported by the Capture Unit: the FILLING buffer becomes FREE; with none, nothing changes
(R58). -/
def BufferManager.abort (b : BufferManager) : BufferManager :=
  match b.find .filling with
  | some i => b.setRecord i .free
  | none => b

/-- A record granted to a capture: FILLING with the request's tag (R52, R53). -/
def BufferRecord.filling (tag : Tag) : BufferRecord :=
  { state := .filling, tag := some tag, readyStamp := none, lineCount := 0, pinned := false }

/-- The answer to an allocation request: the buffer granted, or none for a refusal; and whether a
READY buffer was reclaimed for it. -/
structure Allocation where
  grant : Option BufferId
  reclaimed : Bool
  pool : BufferManager

/-- The buffer a request under LATEST reclaims: the oldest READY buffer that is not pinned, the first
of the own ready list (R53). -/
def BufferManager.reclaimable (b : BufferManager) : Option BufferId :=
  b.ready.find? fun i => !b.records[i].pinned

/-- The FREE buffer available to a request: the lowest-numbered, while the own ready list holds fewer
than 3 tags (R52). -/
def BufferManager.available (b : BufferManager) : Option BufferId :=
  if b.ready.length < 3 then b.find .free else none

/-- An allocation request with no buffer FILLING (R52 to R54). -/
def BufferManager.allocateFrom (b : BufferManager) (policy : Policy) (tag : Tag) : Allocation :=
  match b.available with
  | some i => { grant := some i, reclaimed := false, pool := b.setRecord i (.filling tag) }
  | none =>
    match policy, b.reclaimable with
    | .latest, some i =>
      { grant := some i, reclaimed := true,
        pool := { b.setRecord i (.filling tag) with ready := b.ready.filter (· != i) } }
    | _, _ => { grant := none, reclaimed := false, pool := b }

/-- An allocation request: a buffer found FILLING is freed first (R55), then R52 to R54 apply. -/
def BufferManager.allocate (b : BufferManager) (policy : Policy) (tag : Tag) : Allocation :=
  b.abort.allocateFrom policy tag

/-- A completed line write adds 1 to the line count of the FILLING buffer (R56), which stays within
AL (R49). -/
def BufferManager.countLine (b : BufferManager) (al : Nat) : BufferManager :=
  match b.find .filling with
  | some i =>
    b.setRecord i { b.records[i] with lineCount := min al (b.records[i].lineCount + 1) }
  | none => b

/-- A completion reported by the Capture Unit: the FILLING buffer becomes READY with the current count
as its ready stamp and joins the own ready list at the tail (R57). None where no buffer is FILLING:
nothing changes. -/
def BufferManager.complete (b : BufferManager) (count : Count) : Option BufferManager :=
  match b.find .filling with
  | some i =>
    some { b.setRecord i { b.records[i] with state := .ready, readyStamp := some count } with
      ready := b.ready ++ [i] }
  | none => none

/-- A pin claim: granted when a READY buffer holds the tag, refused (none) otherwise (R59). -/
def BufferManager.pin (b : BufferManager) (tag : Tag) : Option BufferManager :=
  match b.findReady tag with
  | some i => some (b.setRecord i { b.records[i] with pinned := true })
  | none => none

/-- An unpin request; with no READY buffer of the tag it changes nothing (R60). -/
def BufferManager.unpin (b : BufferManager) (tag : Tag) : BufferManager :=
  match b.findReady tag with
  | some i => b.setRecord i { b.records[i] with pinned := false }
  | none => b

/-- Unpin requests for several tags. -/
def BufferManager.unpinAll (b : BufferManager) (tags : List Tag) : BufferManager :=
  tags.foldl BufferManager.unpin b

/-- A READY record that a swap to tag F frees as passed over: its tag is older than F (R62). -/
def BufferRecord.passedOver (r : BufferRecord) (tag : Tag) : Bool :=
  r.state == .ready && r.tag.any (isOlder · tag)

/-- What a swap to tag F, held by buffer i, makes of record k (R62, steps 1 to 3). -/
def swappedRecord (tag : Tag) (i k : BufferId) (r : BufferRecord) : BufferRecord :=
  if k = i then { r with state := .showing, readyStamp := none, pinned := false }
  else if r.state == .showing || r.passedOver tag then .free
  else r

/-- How many frames a swap to tag F, held by buffer i, passes over (R62, step 3). -/
def BufferManager.passedOverCount (b : BufferManager) (tag : Tag) (i : BufferId) : Nat :=
  (bufferIds.filter fun k => k != i && b.records[k].passedOver tag).length

/-- A swap claim for tag F at the frame start of count g (R62): the new pool and the number of frames
passed over. None where no READY buffer holds F: the swap is not carried out (R88). -/
def BufferManager.swapTo (b : BufferManager) (tag : Tag) (g : Count) :
    Option (BufferManager × Nat) :=
  match b.findReady tag with
  | some i =>
    some ({ records := Vector.ofFn fun k => swappedRecord tag i k b.records[k]
            ready := b.ready.filter fun k => k != i && !(b.records[k].passedOver tag)
            shownTag := some tag
            shownSince := some g }, b.passedOverCount tag i)
  | none => none

/-- The tags the staleness check compares with: the own shown tag and the own ready tags (R70). -/
def BufferManager.heldTags (b : BufferManager) : List Tag :=
  b.shownTag.toList ++ b.readyList.map (·.tag)

/-- A tag is newer than every tag held: "a frame is captured only if its tag is newer than the own shown
tag and every own ready tag" (R50). -/
def BufferManager.newerThanHeld (b : BufferManager) (tag : Tag) : Bool :=
  b.heldTags.all (isNewer tag ·)

/-- The newest of the tags held (R70, step 1); none where no tag held is newer than all the others, since
tag order is modular. -/
def BufferManager.newestHeld (b : BufferManager) : Option Tag :=
  b.heldTags.find? fun m => b.heldTags.all fun x => x == m || isNewer m x

/-- A tag is newer than the newest tag held (R70, step 1). Where none is the newest, the tag is newer than
one of those held and equal to none. -/
def BufferManager.newerThanNewest (b : BufferManager) (tag : Tag) : Bool :=
  match b.newestHeld with
  | some m => isNewer tag m
  | none => b.heldTags.any (isNewer tag ·) && !b.heldTags.contains tag

/-- A tag passes the staleness check. A tag newer than every tag held passes, and one that is not newer
than the newest held fails, by R50 and R70 alike. A tag newer than the newest but not than every tag held
passes by R70's step 1 and not by R50: a free value takes it, and so where no tag held is the newest (log
entry 18). -/
def BufferManager.passesStaleness (b : BufferManager) (tag : Tag) : Bool :=
  b.newerThanHeld tag || (b.newerThanNewest tag && Config.capturedPastNewest tag b.heldTags)

end Sys2Proof.Machine
end

