-- ==== Sys2Proof/Machine/Agreement.lean ====
section
/-! DEFINITION. The Agreement Unit (chapter 2): holding, completion, placement under either policy,
evaluation, retiming at a forward jump, and the checks on the agreement. -/

namespace Sys2Proof.Machine

/-! ## Holding (R25, R26) -/

/-- The ready stamp of a listed pair with tag F. -/
def stampOfTag (ps : List ReadyPair) (tag : Tag) : Option Count :=
  (ps.find? fun p => p.tag == tag).map (·.stamp)

/-- A peer's shown-since as a holding stamp: its shown tag is F or newer than F (R25). -/
def shownStamp (e : RosterEntry) (tag : Tag) : Option Count :=
  match e.shownTag, e.shownSince with
  | some t, some c => if t == tag || isNewer t tag then some c else none
  | _, _ => none

/-- Of two holding stamps, the one that is not after the other (R25). Of two that lie exactly 2^31
apart, neither is "not after" the other: a free value takes one (log entry 9). -/
def earlierStamp (a b : Count) : Count :=
  if notAfter a b then a
  else if notAfter b a then b
  else if Config.incomparableStamps a b then a else b

/-- The holding stamps of station n for tag F: for a peer those of R25, for self the ready stamp of
R26. -/
def holdingStamps (s : State) (tag : Tag) (n : Station) : List Count :=
  if n = s.cfg.station then (stampOfTag s.buf.readyList tag).toList
  else (stampOfTag (s.ros.entry n).holdings tag).toList ++ (shownStamp (s.ros.entry n) tag).toList

/-- The holding stamp of station n for tag F, or none where n does not hold F (R25, R26). -/
def holdingStamp (s : State) (tag : Tag) (n : Station) : Option Count :=
  match holdingStamps s tag n with
  | [] => none
  | [a] => some a
  | a :: b :: _ => some (earlierStamp a b)

/-- Station n holds F at count g: it has a holding stamp that is not after g (R25). -/
def holdsAt (s : State) (tag : Tag) (g : Count) (n : Station) : Bool :=
  (holdingStamp s tag n).any (notAfter · g)

/-! ## Completion (R27, R28) -/

/-- The candidate counts for F that are not after the current count (R27). -/
def candidates (s : State) (tag : Tag) : List Count :=
  (stations.flatMap fun n =>
    holdingStamps s tag n ++ (joinedAtOf s n).toList ++ (absentFromOf s n).toList).filter
      (notAfter · s.tim.count)

/-- Candidate g passes for F: V(g) is not empty and every station in it holds F at g (R28). -/
def passes (s : State) (tag : Tag) (g : Count) : Bool :=
  stations.any (isVoter s g) && stations.all fun n => !isVoter s g n || holdsAt s tag g n

/-- The earliest of some counts not after `now`, the one at the largest distance before it (R27). -/
def earliest (now : Count) : List Count → Option Count
  | [] => none
  | c :: cs =>
    match earliest now cs with
    | none => some c
    | some d => if (now - d).toNat ≤ (now - c).toNat then some c else some d

/-- The completion stamp C(F): the earliest candidate that passes; none where F is not complete
(R28). -/
def completionStamp (s : State) (tag : Tag) : Option Count :=
  earliest s.tim.count ((candidates s tag).filter (passes s tag))

/-! ## Placement (R30 to R33) -/

/-- What a placement makes of the schedule: the whole resulting schedule, the tags whose entries it
removes, and whether it raises LATE_SWAP. -/
structure Placement where
  schedule : List ScheduleEntry
  removed : List Tag
  late : Bool
deriving DecidableEq, Repr

/-- The entries after a given swap time, each whose T is not after the T of the entry before it moved
to that entry's T + 1 (R31, step 3; R40). -/
def pushLater (previous : Count) : List ScheduleEntry → List ScheduleEntry
  | [] => []
  | e :: es =>
    let t := if notAfter e.time previous then addFrames previous 1 else e.time
    { e with time := t } :: pushLater t es

/-- An entry inserted in tag order, before the first entry of a newer tag. Of tags without an order the
spec gives no place in the schedule; such a tag counts as neither older nor newer here (DESIGN CHOICE,
log entry 28). -/
def insertInTagOrder (x : ScheduleEntry) : List ScheduleEntry → List ScheduleEntry
  | [] => [x]
  | e :: es => if isNewer e.tag x.tag then x :: e :: es else e :: insertInTagOrder x es

/-- An entry inserted in tag order, and the entries of newer tags pushed behind it (R31, step 3). A tag
without an order to the new one counts as neither older nor newer (DESIGN CHOICE, log entry 28). -/
def insertAndPush (x : ScheduleEntry) : List ScheduleEntry → List ScheduleEntry
  | [] => [x]
  | e :: es =>
    if isNewer e.tag x.tag then x :: pushLater x.time (e :: es) else e :: insertAndPush x es

/-- Step 1 of a FIFO placement: behind the newest entry of an older tag (R31), the last of the older
ones. A tag without an order to F counts as not older (DESIGN CHOICE, log entry 28). -/
def fifoTime (schedule : List ScheduleEntry) (tag : Tag) (base : Count) : Count :=
  match (schedule.filter fun e => isOlder e.tag tag).getLast? with
  | some e => if isAfter (addFrames e.time 1) base then addFrames e.time 1 else base
  | none => base

/-- The late fix-up: a swap time not after the current count becomes the count + 1 (R33). -/
def lateFixUp (now t : Count) : Count := if notAfter t now then addFrames now 1 else t

/-- FIFO placement of F with its base swap time (R31). -/
def placeFifo (now : Count) (schedule : List ScheduleEntry) (tag : Tag) (base : Count) : Placement :=
  let t := fifoTime schedule tag base
  { schedule := insertAndPush { tag := tag, time := lateFixUp now t } schedule
    removed := []
    late := notAfter t now }

/-- LATEST placement of F with its base swap time; none where F is passed over (R32). -/
def placeLatest (now : Count) (schedule : List ScheduleEntry) (tag : Tag) (base : Count) :
    Option Placement :=
  let t := lateFixUp now base
  if schedule.any fun e => isNewer e.tag tag && notAfter e.time t then none
  else
    let drop := fun e : ScheduleEntry => isOlder e.tag tag && notBefore e.time t
    some
      { schedule := insertInTagOrder { tag := tag, time := t } (schedule.filter (!drop ·))
        removed := (schedule.filter drop).map (·.tag)
        late := notAfter base now }

/-- The placement of a complete tag under the policy of the frozen configuration (R30). -/
def place (policy : Policy) (now : Count) (schedule : List ScheduleEntry) (tag : Tag) (base : Count) :
    Option Placement :=
  match policy with
  | .fifo => some (placeFifo now schedule tag base)
  | .latest => placeLatest now schedule tag base

/-- A placement carried out: the pin claim on F's buffer, then the whole schedule in one step, the
unpin requests, and LATE_SWAP; with the claim refused, nothing (R30, R33, R39). -/
def carryOut (s : State) (tag : Tag) (p : Placement) : State :=
  match s.buf.pin tag with
  | none => s
  | some b =>
    let s := s.withBuf (b.unpinAll p.removed)
    let s := s.withAgr { s.agr with schedule := p.schedule }
    if p.late then raise s .lateSwap else s

/-! ## Evaluation (R36) -/

/-- One tag of an evaluation: if it is not scheduled and is complete, it is placed (R36). -/
def evaluateTag (s : State) (tag : Tag) : State :=
  if s.agr.schedule.any fun e => e.tag == tag then s
  else
    match completionStamp s tag with
    | none => s
    | some c =>
      match place s.cfg.policy s.tim.count s.agr.schedule tag (addFrames c s.cfg.lead) with
      | none => s
      | some p => carryOut s tag p

/-- One pass over the own ready tags, oldest first (R36). -/
def evaluationPass (s : State) : State :=
  (s.buf.readyList.map (·.tag)).foldl evaluateTag s

/-- An occasion of evaluation (R37): taken in LISTEN, JOINING, MEMBER, EVICTED and LEAVING, not in
CONFIG and DETACHED (R24). -/
def evaluate (s : State) : State :=
  match s.ros.self with
  | .config | .detached => s
  | .listen | .joining | .member | .evicted | .leaving => evaluationPass s

/-! ## Retiming at a forward jump (R40, R41) -/

/-- The entries given consecutive swap times from a count on (R40). -/
def consecutive (t : Count) : List ScheduleEntry → List ScheduleEntry
  | [] => []
  | e :: es => { e with time := t } :: consecutive (addFrames t 1) es

/-- The retiming of a schedule at a forward jump to N; none where no entry has a T not after N. -/
def retimed (policy : Policy) (n : Count) (schedule : List ScheduleEntry) : Option Placement :=
  let due := schedule.filter fun e => notAfter e.time n
  let rest := schedule.filter fun e => !notAfter e.time n
  match due.getLast? with
  | none => none
  | some last =>
    match policy with
    | .fifo =>
      some { schedule := consecutive (addFrames n 1) due ++ pushLater (addFrames n due.length) rest
             removed := []
             late := true }
    | .latest =>
      if rest.any fun e => isNewer e.tag last.tag && e.time == addFrames n 1 then
        some { schedule := rest, removed := due.map (·.tag), late := true }
      else
        some { schedule := { last with time := addFrames n 1 } :: rest
               removed := due.dropLast.map (·.tag)
               late := true }

/-- The Agreement Unit told of a forward jump to N: it retimes, raising LATE_SWAP once if an entry was
retimed or removed (R40, R41). -/
def retime (s : State) (n : Count) : State :=
  match retimed s.cfg.policy n s.agr.schedule with
  | none => s
  | some p =>
    raise ((s.withBuf (s.buf.unpinAll p.removed)).withAgr { s.agr with schedule := p.schedule })
      .lateSwap

/-- The Agreement Unit empties the schedule and unpins every buffer that was pinned for it (R23,
R24, R34). -/
def emptySchedule (s : State) : State :=
  (s.withBuf (s.buf.unpinAll (s.agr.schedule.map (·.tag)))).withAgr { s.agr with schedule := [] }

/-! ## Checks (R45 to R47) -/

/-- The swap split check on a recorded STATE of the sender (R45). -/
def swapSplitCheck (s : State) (sender : Station) (stamp : Count) (shown : Option Tag) : State :=
  let split := s.ros.self.active && isVoter s stamp sender &&
    match s.buf.shownTag, s.buf.shownSince with
    | some own, some since => isAfter stamp since && shown.all (isOlder · own)
    | _, _ => false
  if split then raise s .swapSplit else s

/-- The stall check of a frame start (R46). -/
def stallCheck (s : State) : State :=
  if !s.ros.self.active then s
  else if s.scn.swapThisFrame then s.withAgr { s.agr with stallCount := 0, stallRaised := false }
  else if s.buf.readyList.isEmpty then s
  else
    let n := min s.cfg.stallf (s.agr.stallCount + 1)
    let reached := decide (n = s.cfg.stallf) && !s.agr.stallRaised
    let s := s.withAgr { s.agr with stallCount := n, stallRaised := s.agr.stallRaised || reached }
    if reached then raise s .stall else s

/-- The frame start at the Agreement Unit: its evaluation and its stall check (R38, R46). -/
def agreementFrameStart (s : State) : State := stallCheck (evaluate s)

/-- The blocking flag of entry n (R47). -/
def blockingFlag (s : State) (n : Station) : Bool :=
  match s.buf.readyList with
  | [] => false
  | oldest :: _ =>
    decide (n ≠ s.cfg.station) && isVoter s s.tim.count n && !holdsAt s oldest.tag s.tim.count n

end Sys2Proof.Machine
end

