-- ==== Sys2Proof/Machine/BusTransmit.lean ====
section
/-! DEFINITION. BIU transmit (chapter 8): the outbound queue and its triggers, the building of a
message at its transmit start, and the transmit machine. -/

namespace Sys2Proof.Machine

/-! ## The outbound queue (R139 to R141) -/

/-- The entry in flight is the head of the queue while the machine is SENDING (R128, R139). -/
def BusTransmitter.flying (t : BusTransmitter) : Option QueueEntry :=
  if t.state = .sending then t.queue.head? else none

/-- An entry is the STANDING entry. -/
def QueueEntry.isStanding (e : QueueEntry) : Bool := e.cls == .standing

/-- An entry is a REPEAT entry for target X. -/
def QueueEntry.isRepeatFor (e : QueueEntry) (x : Station) : Bool :=
  match e.cls with
  | .standing => false
  | .repeatTo target _ => target == x

/-- The place ahead of every waiting entry and behind an entry in flight (R140). -/
def BusTransmitter.putFirst (t : BusTransmitter) (queue : List QueueEntry) (e : QueueEntry) :
    List QueueEntry :=
  if t.state = .sending then queue.take 1 ++ e :: queue.drop 1 else e :: queue

/-- The machine after an addition to the queue: TX_IDLE moves to WAIT_GAP (R143). -/
def TransmitState.woken : TransmitState → TransmitState
  | .txIdle => .waitGap
  | .waitGap => .waitGap
  | .backoff => .backoff
  | .sending => .sending
  | .jamming => .jamming

/-- A new STANDING entry: at the tail, in LEAVING at the head (R140). -/
def BusTransmitter.addStanding (t : BusTransmitter) (self : SelfState) : BusTransmitter :=
  { t with
    queue :=
      if self = .leaving then t.putFirst t.queue (.fresh .standing)
      else t.queue ++ [.fresh .standing]
    state := t.state.woken }

/-- The STANDING entry with renew set to yes (R141, R150). -/
def renewStanding (queue : List QueueEntry) : List QueueEntry :=
  queue.map fun e => if e.isStanding then { e with renew := true } else e

/-- The effect of a standing trigger on the queue (R141). `change` tells a change trigger from a REPEAT
naming the own station and from a heartbeat point. -/
def BusTransmitter.owe (t : BusTransmitter) (self : SelfState) (change : Bool) : BusTransmitter :=
  if !self.active then t
  else if !t.queue.any QueueEntry.isStanding then t.addStanding self
  else if change && t.flying.any QueueEntry.isStanding then
    { t with queue := renewStanding t.queue }
  else t

/-- Entry to LEAVING at the transmit side: a change trigger, and a STANDING entry that waits moves to
the head (R140, R151). -/
def BusTransmitter.placeLeave (t : BusTransmitter) : BusTransmitter :=
  match t.queue.find? QueueEntry.isStanding with
  | none => t.addStanding .leaving
  | some e =>
    if t.flying.any QueueEntry.isStanding then { t with queue := renewStanding t.queue }
    else { t with queue := t.putFirst (t.queue.filter (!·.isStanding)) e }

/-- In WAIT_GAP and BACKOFF a queue that becomes empty returns the machine to TX_IDLE with the backoff
count 0 (R143). -/
def BusTransmitter.settleEmpty (t : BusTransmitter) : BusTransmitter :=
  if t.queue.isEmpty && (t.state == .waitGap || t.state == .backoff) then
    { t with state := .txIdle, backoffCount := 0, slotRunning := false }
  else t

/-- The removal of an own waiting REPEAT entry for X; an entry in flight stays (R130, R131). -/
def BusTransmitter.withdrawRepeat (t : BusTransmitter) (x : Station) : BusTransmitter :=
  if t.flying.any (·.isRepeatFor x) || !t.queue.any (·.isRepeatFor x) then t
  else
    BusTransmitter.settleEmpty
      { t with
        queue := t.queue.filter fun e => !e.isRepeatFor x
        jamEntry := t.jamEntry.filter fun c => !(QueueEntry.fresh c).isRepeatFor x }

/-- One claim of an accepted message taken at the transmit side (R130 to R132). -/
def BusTransmitter.takeClaim (t : BusTransmitter) (self : SelfState) : TransmitClaim → BusTransmitter
  | .withdraw x => t.withdrawRepeat x
  | .answer => t.owe self false

/-- The number of REPEAT entries queued (R128). -/
def BusTransmitter.repeats (t : BusTransmitter) : Nat :=
  (t.queue.filter (!·.isStanding)).length

/-- A repeat request for X, and whether it is lost to a queue of 7 REPEAT entries (R129). -/
def BusTransmitter.request (t : BusTransmitter) (x : Station) (reason : RepeatReason) :
    BusTransmitter × Bool :=
  if t.queue.any (·.isRepeatFor x) then (t, false)
  else if 7 ≤ t.repeats then (t, true)
  else
    ({ t with queue := t.queue ++ [.fresh (.repeatTo x reason)], state := t.state.woken }, false)

/-- The transmit side emptied: at entry to DETACHED, and as part of RESTART. A transmission in flight
is cut off and the line released (R152, R153). An entry that has collided and waits goes with the sequence it
has taken, which no later message carries: R153 and R145, where R185 says that no gap arises with nothing in
flight (DESIGN CHOICE, log entry 37). -/
def BusTransmitter.stop (t : BusTransmitter) : BusTransmitter :=
  { t with queue := [], state := .txIdle, backoffCount := 0, slotRunning := false, inFlight := none,
           jamEntry := none }

/-- The backoff seed of a station, (station + 1) × 499 (R148). -/
def backoffSeed (n : Station) : BitVec 16 := BitVec.ofNat 16 ((n.val + 1) * 499)

/-- One advance of the backoff generator: the exclusive-or of bits 0, 2, 3 and 5 enters at bit 15 as
the register moves one place down (R148). -/
def advanceGenerator (g : BitVec 16) : BitVec 16 :=
  let bit := g.getLsbD 0 ^^ g.getLsbD 2 ^^ g.getLsbD 3 ^^ g.getLsbD 5
  (g >>> 1) ||| (if bit then 0x8000#16 else 0x0000#16)

/-! ## Triggers over State -/

/-- A change trigger signalled to the transmit side (R141). -/
def changeTrigger (s : State) : State := s.withTx (s.tx.owe s.ros.self true)

/-- A change of the own ready list or of the own shown tag: an occasion of evaluation and a standing
trigger (R50, R51). The two act on different state, so their order shows nowhere. -/
def ownHoldingsChanged (s : State) : State := changeTrigger (evaluate s)

/-- The frame start at BIU: outside CONFIG, LISTEN and DETACHED the heartbeat count rises, and the
frame start that raises it to HB is a heartbeat point (R142). -/
def heartbeatFrameStart (s : State) : State :=
  if !s.ros.self.active || decide (s.cfg.hb ≤ s.tx.heartbeat) then s
  else
    let t := { s.tx with heartbeat := s.tx.heartbeat + 1 }
    s.withTx (if t.heartbeat = s.cfg.hb then t.owe s.ros.self false else t)

/-! ## Building a message (R117 to R120, R145) -/

/-- The kind a STANDING entry is sent as (R140); none in the states that send nothing. -/
def standingKind : SelfState → Option MessageKind
  | .joining | .evicted => some .join
  | .member => some .state
  | .leaving => some .leave
  | .config | .listen | .detached => none

/-- The number of a message kind (R117). -/
def MessageKind.code : MessageKind → Nat
  | .join => 1 | .state => 2 | .leave => 3 | .repeatRequest => 4

/-- The number of a policy on the wire (R119). -/
def Policy.code : Policy → Nat
  | .fifo => 0
  | .latest => 1

/-- The number of a repeat reason (R119). -/
def RepeatReason.code : RepeatReason → Nat
  | .bodyBad => 1
  | .lenBad => 2

/-- The header of a message (R117). -/
def buildHeader (cfg : StationConfig) (kind : MessageKind) (length : Nat) (seq : Byte) : List Byte :=
  let b0 := BitVec.ofNat 8 (kind.code + 16 * cfg.group.val + 64 * (length / 16))
  let b1 := BitVec.ofNat 8 (cfg.station.val + 16 * (length % 16))
  [b0, b1, seq, headerCheck [b0, b1, seq]]

/-- The timing prefix as the Timing Unit supplies it: the count and the current line (R99, R119). -/
def timingPrefix (s : State) : List Byte :=
  bytesOf 4 s.tim.count.toNat ++ bytesOf 2 s.scn.currentLine

/-- The JOIN fields after the timing prefix (R119). -/
def joinFields (cfg : StationConfig) : List Byte :=
  bytesOf 2 cfg.fl ++ bytesOf 2 cfg.al ++ bytesOf 1 cfg.lead ++ bytesOf 1 cfg.hb ++
    bytesOf 1 cfg.af ++ bytesOf 2 cfg.members.toNat ++ bytesOf 1 (Policy.code cfg.policy)

/-- The STATE fields after the timing prefix (R120), built from the Roster Unit (R21) and the Buffer
Manager (R67). The shown tag is the one that stands, also in the first STATE after RESTART, of which R186 says
that it reports none (DESIGN CHOICE, log entry 38). -/
def stateFields (s : State) : List Byte :=
  let ready := s.buf.readyList
  let tag := match s.buf.shownTag with
    | some t => t.toNat
    | none => 65535
  let since := match s.buf.shownTag with
    | some _ => s.buf.shownSince
    | none => none
  let absent := if s.buf.shownTag.isNone then 128 else 0
  countBytes s.ros.ownJoined ++ bytesOf 2 tag ++ countBytes since ++
    bytesOf 2 (voterSet s s.tim.count).toNat ++ bytesOf 1 (ready.length + absent) ++ pairBytes ready

/-- The payload of a queue entry sent as a kind (R145). -/
def buildPayload (s : State) (cls : EntryClass) (kind : MessageKind) : List Byte :=
  timingPrefix s ++
    match kind with
    | .join => joinFields s.cfg
    | .state => stateFields s
    | .leave => []
    | .repeatRequest =>
      match cls with
      | .standing => []
      | .repeatTo target reason => bytesOf 1 target.val ++ bytesOf 1 reason.code

/-- The whole message: header, payload, body check (R117, R118, R145). -/
def buildMessage (s : State) (cls : EntryClass) (kind : MessageKind) (seq : Byte) : OutMessage :=
  let payload := buildPayload s cls kind
  { kind := kind, stamp := s.tim.count
    bytes := buildHeader s.cfg kind payload.length seq ++ payload ++ bytesOf 2 (bodyCheck payload).toNat }

/-! ## The transmit machine (R143 to R149) -/

/-- The kind a queue entry is sent as (R140, R145). -/
def entryKind (self : SelfState) (e : QueueEntry) : Option MessageKind :=
  match e.cls with
  | .standing => standingKind self
  | .repeatTo _ _ => some .repeatRequest

/-- A transmit start: the head takes its message sequence, its message is built from the state of the
part, renew becomes no, the receive machine enters WAIT_IDLE and the line is driven (R115, R145). -/
def transmitStart (s : State) : State :=
  match s.tx.queue with
  | [] => s
  | e :: rest =>
    match entryKind s.ros.self e with
    | none => s
    | some kind =>
      let seq := e.seq.getD s.tx.seq
      let next := if e.seq.isNone then s.tx.seq + 1 else s.tx.seq
      let s' := s.withTx
        { s.tx with
          queue := { e with seq := some seq, renew := false } :: rest
          seq := next
          state := .sending
          slotRunning := false
          inFlight := some (buildMessage s e.cls kind seq) }
      (s'.withRx { s.rx with state := .waitIdle }).withLine .busy

/-- The line is idle: the receive machine in WAIT_IDLE becomes IDLE (R115). -/
def lineIdle (s : State) : State :=
  let s := s.withLine .idle
  if s.rx.state = .waitIdle then s.withRx { s.rx with state := .idle } else s

/-- The gap is reached in WAIT_GAP: a transmit start, or BACKOFF with its first slot; in BACKOFF after
a busy line, a fresh slot begins. There is no gap while a burst is received (R144). -/
def gapReached (s : State) : State :=
  if s.rx.state = .receiving then s
  else
    match s.tx.state with
    | .waitGap =>
      if s.tx.backoffCount = 0 then transmitStart (lineIdle s)
      else (lineIdle s).withTx { s.tx with state := .backoff, slotRunning := true }
    | .backoff =>
      if s.tx.slotRunning then s else (lineIdle s).withTx { s.tx with slotRunning := true }
    | .txIdle | .sending | .jamming => s

/-- A slot that runs in BACKOFF ends idle: the backoff count is lowered, and at 0 the machine makes a
transmit start (R144). -/
def slotEnd (s : State) : State :=
  if s.tx.state = .backoff ∧ s.tx.slotRunning = true then
    let s := (lineIdle s).withTx { s.tx with backoffCount := s.tx.backoffCount - 1 }
    if s.tx.backoffCount = 0 then transmitStart s else s
  else s

/-- A JOIN transmission has completed with the stamp it carried (R4). -/
def joinCompleted (s : State) (stamp : Count) : State :=
  match s.ros.ownJoined, s.ros.self with
  | none, .joining | none, .leaving =>
    evaluate (s.withRos { s.ros with ownJoined := some (addFrames stamp s.cfg.lead) })
  | none, .evicted =>
    evaluate
      (s.withRos { s.ros with ownJoined := some (addFrames stamp s.cfg.lead), self := .joining })
  | _, _ => s

/-- A LEAVE transmission has completed with the stamp it carried (R6). -/
def leaveCompleted (s : State) (stamp : Count) : State :=
  match s.ros.ownAbsent, s.ros.self with
  | none, .leaving => s.withRos { s.ros with ownAbsent := some (addFrames stamp s.cfg.lead) }
  | _, _ => s

/-- The report of a completed message to the Roster Unit (R146, step 3). -/
def reportCompletion (s : State) (m : OutMessage) : State :=
  match m.kind with
  | .join => joinCompleted s m.stamp
  | .leave => leaveCompleted s m.stamp
  | .state | .repeatRequest => s

/-- The machine state with nothing in flight: WAIT_GAP while an entry waits, TX_IDLE otherwise. -/
def restState (queue : List QueueEntry) : TransmitState :=
  if queue.isEmpty then .txIdle else .waitGap

/-- The last half-cell has been sent with no collision (R146). -/
def transmissionCompleted (s : State) : State :=
  match s.tx.state, s.tx.queue, s.tx.inFlight with
  | .sending, e :: rest, some m =>
    let s := countEvents s .sent 1
    let s := s.withTx
      { s.tx with
        queue := rest
        state := restState rest
        inFlight := none
        heartbeat := if e.isStanding then 0 else s.tx.heartbeat }
    let s := if e.isStanding then reportCompletion s m else s
    if e.isStanding && e.renew && s.ros.self.active then s.withTx (s.tx.addStanding s.ros.self) else s
  | _, _, _ => s

/-- A collision seen in SENDING: it is counted, and the machine enters JAMMING (R147). -/
def collisionSeen (s : State) : State :=
  match s.tx.state, s.tx.queue with
  | .sending, e :: rest =>
    let s := countEvents s .collisions 1
    s.withTx
      { s.tx with
        queue := { e with collisions := e.collisions + 1 } :: rest
        state := .jamming
        inFlight := none
        jamEntry := some e.cls }
  | _, _ => s

/-- An entry given up at its twelfth collision (R149). -/
def giveUp (s : State) (e : QueueEntry) : State :=
  let rest := s.tx.queue.filter fun q => q.cls != e.cls
  raise
    (s.withTx
      { s.tx with
        queue := rest
        state := restState rest
        backoffCount := 0
        slotRunning := false
        jamEntry := none
        heartbeat := if e.isStanding then 0 else s.tx.heartbeat })
    .txGiveup

/-- A backoff count drawn after the k-th collision: the low min(k, 6) bits of the generator's next
value (R148). -/
def drawBackoff (t : BusTransmitter) (k : Nat) : BusTransmitter :=
  let g := advanceGenerator t.generator
  { t with generator := g, backoffCount := g.toNat % 2 ^ min k 6, state := .waitGap,
           slotRunning := false, jamEntry := none }

/-- The end of the jam (R147). -/
def jamEnded (s : State) : State :=
  if s.tx.state = .jamming then
    match s.tx.queue.find? fun e => s.tx.jamEntry == some e.cls with
    | none =>
      s.withTx
        { s.tx with
          state := restState s.tx.queue, backoffCount := 0, slotRunning := false, jamEntry := none }
    | some e => if 12 ≤ e.collisions then giveUp s e else s.withTx (drawBackoff s.tx e.collisions)
  else s

/-- The line leaving idle restarts a wait: the slot in progress in BACKOFF is not counted (R144). -/
def spoilSlot (s : State) : State :=
  if s.tx.state = .backoff then s.withTx { s.tx with slotRunning := false } else s

end Sys2Proof.Machine
end

