-- ==== Sys2Proof/Machine/Capture.lean ====
section
/-! DEFINITION. The arbiter of the frame memory port (5.5) and the Capture Unit (chapter 4): the
course of one input frame from its begin marker to the release of its buffer. -/

namespace Sys2Proof.Machine

/-! ## The frame memory port (R91) -/

/-- A read request: granted at once while the port is IDLE, otherwise it waits (R91). -/
def ScanOutUnit.requestRead (u : ScanOutUnit) (a : SlotAddress) : ScanOutUnit :=
  if u.port = .idle then { u with port := .read a } else { u with readWaiting := some a }

/-- A write request: granted at once while the port is IDLE, otherwise it waits (R91). -/
def ScanOutUnit.requestWrite (u : ScanOutUnit) (w : LineWrite) : ScanOutUnit :=
  if u.port = .idle then { u with port := .write w } else { u with writeWaiting := some w }

/-- A transfer completes: a waiting read is granted, else a waiting write, else the port is IDLE
(R91). -/
def ScanOutUnit.transferDone (u : ScanOutUnit) : ScanOutUnit :=
  match u.readWaiting, u.writeWaiting with
  | some a, _ => { u with port := .read a, readWaiting := none }
  | none, some w => { u with port := .write w, writeWaiting := none }
  | none, none => { u with port := .idle }

/-- A write of the Capture Unit's frame is in progress at the port. -/
def ScanOutUnit.writing (u : ScanOutUnit) : Bool :=
  match u.port with
  | .write w => !w.abandoned
  | .idle | .read _ => false

/-- RESTART at the port: the transfer in progress completes, a write in progress no longer counts, a
waiting write is withdrawn and a waiting read proceeds (R78, R92). -/
def ScanOutUnit.abandonWrites (u : ScanOutUnit) : ScanOutUnit :=
  { u with
    port := match u.port with
      | .write w => .write { w with abandoned := true }
      | .idle => .idle
      | .read a => .read a
    writeWaiting := none }

/-! ## The line FIFO (R68, R71) -/

/-- The lines of one frame removed from the FIFO in a body. -/
def withoutLines (fifo : List FifoLine) (owner : LineOwner) : List FifoLine :=
  fifo.filter fun l => l.owner != owner

/-- The request for the write of the head line: made while it belongs to the frame in FILLING and no
write of that frame is in progress or waits (R71). -/
def requestNextWrite (s : State) : State :=
  match s.cap.state, s.cap.aborting, s.cap.buffer, s.cap.fifo with
  | .filling, none, some b, l :: _ =>
    if l.owner = .current ∧ s.scn.writing = false ∧ s.scn.writeWaiting = none then
      s.withScn (s.scn.requestWrite
        { addr := { buffer := b, slot := l.slot }, data := l.data, abandoned := false })
    else s
  | _, _, _, _ => s

/-! ## A begin marker (R70) -/

/-- The Capture Unit in a state with no frame of its own. -/
def CaptureUnit.without (c : CaptureUnit) (state : CaptureState) : CaptureUnit :=
  { c with state := state, closing := false, tag := none, buffer := none, received := 0, timeout := 0,
           aborting := none }

/-- A begin marker handled in two steps, the staleness check and the allocation (R70), for a marker
just taken or for a held begin taken up with its counts (R75). -/
def beginFrame (s : State) (h : HeldBegin) : State :=
  let dropped := s.withCap
    { s.cap.without .discard with held := none, fifo := withoutLines s.cap.fifo .held }
  if s.buf.passesStaleness h.tag then
    let answer := s.buf.allocate s.cfg.policy h.tag
    match answer.grant with
    | none => raise (dropped.withBuf answer.pool) .inputDrop
    | some b =>
      let s := (s.withBuf answer.pool).withCap
        { s.cap with
          state := .filling
          closing := false
          tag := some h.tag
          buffer := some b
          received := h.received
          timeout := h.timeout
          aborting := none
          held := none
          fifo := s.cap.fifo.map fun l => { l with owner := .current } }
      let s := requestNextWrite s
      if answer.reclaimed then ownHoldingsChanged (countEvents s .dropped 1) else s
  else raise dropped .inputStale

/-! ## Release (R72, R75) -/

/-- What the capture state becomes when a release is made and no begin is held: DISCARD where a held
frame has been thrown away, otherwise the state named (R75). -/
def afterRelease (s : State) (result : CaptureState) : State :=
  match s.cap.held with
  | some h => beginFrame (s.withCap (s.cap.without .idle)) h
  | none =>
    if s.cap.discardAfterRelease then
      s.withCap { s.cap.without .discard with discardAfterRelease := false }
    else s.withCap (s.cap.without result)

/-- The capture state a waiting abort names. -/
def AbortResult.toState : AbortResult → CaptureState
  | .idle => .idle
  | .discard => .discard

/-- The abort reported: the Buffer Manager frees the buffer, and the release is made (R58, R72). -/
def reportAbort (s : State) (result : AbortResult) : State :=
  afterRelease (s.withBuf s.buf.abort) result.toState

/-- An abort of the frame in FILLING: its lines leave the FIFO and no further write is requested; it
is reported at once, or when the write in progress completes (R72). -/
def abortFrame (s : State) (result : AbortResult) : State :=
  let s := s.withCap { s.cap with fifo := withoutLines s.cap.fifo .current }
  let s := s.withScn { s.scn with writeWaiting := none }
  if s.scn.writing then s.withCap { s.cap with aborting := some result } else reportAbort s result

/-- The completion reported: the Buffer Manager makes the buffer READY at the current count, and the
standing STATE is triggered (R57, R72). The occasion of evaluation is the caller's. -/
def reportCompleteFrame (s : State) : State :=
  match s.buf.complete s.tim.count with
  | none => s
  | some b => changeTrigger (s.withBuf b)

/-- The frame in FILLING is closing and all its lines have left the FIFO by a completed write (R72). -/
def completionDue (c : CaptureUnit) : Bool :=
  c.state == .filling && c.closing && c.aborting.isNone && !(c.fifo.any fun l => l.owner == .current)

/-! ## Input events (R71, R73 to R75) -/

/-- The held frame thrown away: its marker is dropped and its lines leave the FIFO (R75). -/
def CaptureUnit.dropHeld (c : CaptureUnit) : CaptureUnit :=
  { c with held := none, fifo := withoutLines c.fifo .held }

/-- A begin marker that must be held (R74, R75). A second one gives up the frame held before it. The
new marker ends a frame thrown away before it (log entry 11). -/
def holdBegin (s : State) (tag : Tag) : State :=
  let again := s.cap.held.isSome
  let s := s.withCap
    { s.cap.dropHeld with
      held := some { tag := tag, received := 0, timeout := 0 }, discardAfterRelease := false }
  if again then raise s .inputBad else s

/-- A begin marker at the Capture Unit (R70, R74, R75). -/
def takeBegin (s : State) (tag : Tag) : State :=
  let fresh : HeldBegin := { tag := tag, received := 0, timeout := 0 }
  match s.cap.state with
  | .idle | .discard => beginFrame s fresh
  | .filling =>
    if s.cap.closing || s.cap.aborting.isSome then holdBegin s tag
    else
      let s := raise s .inputBad
      if s.scn.writing then holdBegin (abortFrame s .idle) tag
      else beginFrame (abortFrame s .idle) fresh

/-- A line of the held frame: it joins the FIFO, or overruns it and the held frame is thrown away
(R75). -/
def takeHeldLine (s : State) (h : HeldBegin) (data : LineData) : State :=
  if 4 ≤ s.cap.fifo.length then
    raise (s.withCap { s.cap.dropHeld with discardAfterRelease := true }) .inputOverrun
  else
    s.withCap
      { s.cap with
        fifo := s.cap.fifo ++ [{ owner := .held, slot := h.received, data := data }]
        held := some { h with received := h.received + 1 } }

/-- A line at the Capture Unit (R71, R72, R73, R75). -/
def takeLine (s : State) (data : LineData) : State :=
  match s.cap.state, s.cap.held with
  | .idle, _ | .discard, _ => s
  | .filling, some h => takeHeldLine s h data
  | .filling, none =>
    if s.cap.closing || s.cap.aborting.isSome then s
    else if s.cfg.al ≤ s.cap.received then abortFrame (raise s .inputBad) .discard
    else if 4 ≤ s.cap.fifo.length then abortFrame (raise s .inputOverrun) .discard
    else
      requestNextWrite
        (s.withCap
          { s.cap with
            fifo := s.cap.fifo ++ [{ owner := .current, slot := s.cap.received, data := data }]
            received := s.cap.received + 1 })

/-- An end marker while the release of a frame is awaited and no begin is held: it ends a held frame
thrown away (R75), and makes IDLE of a DISCARD that the waiting abort names (R72). -/
def CaptureUnit.endWhileReleasing (c : CaptureUnit) : CaptureUnit :=
  { c with discardAfterRelease := false, aborting := c.aborting.map fun _ => .idle }

/-- An end marker at the Capture Unit (R72, R73, R75). -/
def takeEnd (s : State) : State :=
  match s.cap.state, s.cap.held with
  | .idle, _ => s
  | .discard, _ => s.withCap (s.cap.without .idle)
  | .filling, some _ => raise (s.withCap s.cap.dropHeld) .inputBad
  | .filling, none =>
    if s.cap.closing || s.cap.aborting.isSome then s.withCap s.cap.endWhileReleasing
    else if s.cap.received = s.cfg.al then
      let s := s.withCap { s.cap with closing := true }
      if completionDue s.cap then afterRelease (evaluate (reportCompleteFrame s)) .idle else s
    else abortFrame (raise s .inputBad) .idle

/-! ## The capture timeout (R76) -/

/-- The limit of the timeout counts, IT × FL line periods. -/
def timeoutLimit (cfg : StationConfig) : Nat := cfg.it * cfg.fl

/-- A line start at the Capture Unit: the timeout counts of a frame that receives and of a held frame
rise, within 0..IT × FL (R68, R76). -/
def CaptureUnit.lineStart (c : CaptureUnit) (limit : Nat) : CaptureUnit :=
  { c with
    timeout :=
      if c.state = .filling ∧ c.closing = false ∧ c.aborting = none then min limit (c.timeout + 1)
      else c.timeout
    held := c.held.map fun h => { h with timeout := min limit (h.timeout + 1) } }

/-- A timeout at the Capture Unit: the frame in FILLING is aborted, or the held frame is dropped, each
with INPUT_BAD; with no count at its limit nothing has timed out (R75, R76). -/
def takeTimeout (s : State) : State :=
  let limit := timeoutLimit s.cfg
  if s.cap.state = .filling ∧ s.cap.closing = false ∧ s.cap.aborting = none ∧ limit ≤ s.cap.timeout then
    abortFrame (raise s .inputBad) .idle
  else if s.cap.held.any fun h => decide (limit ≤ h.timeout) then
    raise (s.withCap s.cap.dropHeld) .inputBad
  else s

/-! ## Transfers that complete (R71, R91) -/

/-- A capture write that completes: its line stands in frame memory, leaves the FIFO and is counted,
and the port grants the next request. A write abandoned by RESTART counts nothing (R78). -/
def writeLanded (s : State) (w : LineWrite) : State :=
  let s := s.withMem (writeKey s.mem (slotKey w.addr) w.data)
  let s := s.withScn s.scn.transferDone
  if w.abandoned then s
  else
    let s := s.withBuf (s.buf.countLine s.cfg.al)
    if s.cap.aborting.isSome then s else s.withCap { s.cap with fifo := s.cap.fifo.tail }

/-- A scan-out read that completes: its line goes out on the panel, and the port grants the next
request (R91). -/
def readDelivered (s : State) (a : SlotAddress) : State :=
  let u := s.scn.transferDone
  s.withScn
    { u with
      panel := u.panel.map fun l =>
        if l.content = .awaiting ∧ l.number = a.slot then
          { l with content := .picture (readSlot s.mem a) }
        else l }

/-! ## Changes of standing (R77, R78) -/

/-- Entry to DETACHED at the Capture Unit: capture stops with no fault (R77). Where a write is in progress, or
an abort waits for one, the capture state becomes IDLE with the release, when the write completes, and not at
once: R72 has the state entered at the release, R77 says that it becomes IDLE (DESIGN CHOICE, log entry 31). -/
def captureDetached (s : State) : State :=
  let s := s.withCap { s.cap.dropHeld with discardAfterRelease := false }
  match s.cap.state, s.cap.aborting with
  | .idle, _ => s
  | .discard, _ => s.withCap (s.cap.without .idle)
  | .filling, some _ => s.withCap { s.cap with aborting := some .idle }
  | .filling, none => abortFrame s .idle

end Sys2Proof.Machine
end

