-- ==== Sys2Proof/Machine/Roster.lean ====
section
/-! DEFINITION. The Roster Unit (chapter 1): what an accepted message does to the roster and to the
self state, and the checks of a frame start. -/

namespace Sys2Proof.Machine

/-! ## Changes of the self state -/

/-- Entry to JOINING from LISTEN: the heartbeat count is set to 0 and the standing JOIN is triggered
(R4, R141, R142). -/
def enterJoining (s : State) : State :=
  let s := s.withRos { s.ros with self := .joining }
  changeTrigger (s.withTx { s.tx with heartbeat := 0 })

/-- Eviction in MEMBER: VIEW_SPLIT and EVICTED in one raise, own joined-at none, and the standing JOIN
triggered (R22). -/
def evict (s : State) : State :=
  let s := raiseAll s [.viewSplit, .evicted]
  changeTrigger (s.withRos { s.ros with self := .evicted, ownJoined := none })

/-- Entry to DETACHED: the schedule is emptied, capture stops, and the transmit side stops (R7, R24,
R77, R152). -/
def enterDetached (s : State) : State :=
  let s := s.withRos { s.ros with self := .detached }
  let s := captureDetached (emptySchedule s)
  s.withTx s.tx.stop

/-! ## Accepted messages (R14 to R18, R22) -/

/-- The liveness refresh of an accepted message (R14). -/
def RosterEntry.refresh (e : RosterEntry) (stamp frameStarts : Count) : RosterEntry :=
  { e with
    lastStamp := some stamp
    lastFrame := some frameStarts
    state := match e.state with
      | .quiet => .voter
      | .voter => .voter
      | .joining => .joining
      | .absent => .absent
      | .expected => .expected
      | .vacant => .vacant }

/-- A JOIN's configuration fields differ from the own frozen configuration (R16). -/
def joinClashes (cfg : StationConfig) (j : JoinFields) : Bool :=
  j.fl != cfg.fl || j.al != cfg.al || j.lead != cfg.lead || j.hb != cfg.hb || j.af != cfg.af ||
    j.members != cfg.members || j.policy != Policy.code cfg.policy

/-- An entry that takes an accepted JOIN which does not clash (R15). -/
def RosterEntry.takeJoin (e : RosterEntry) (joinedAt : Count) : RosterEntry :=
  match e.state with
  | .expected | .absent =>
    { e with clash := false, state := .joining, joinedAt := some joinedAt, absentFrom := none,
             cause := .none }
  | .joining | .voter | .quiet | .vacant => { e with clash := false }

/-- An accepted STATE admits the station of an EXPECTED or ABSENT entry (R17). -/
def RosterEntry.admits (e : RosterEntry) (memberSince : Count) : Bool :=
  (e.state == .expected || e.state == .absent) && !e.clash &&
    e.absentFrom.all (isBefore · memberSince)

/-- Insertion into holdings in ascending tag order. -/
def insertHolding (p : ReadyPair) : List ReadyPair → List ReadyPair
  | [] => [p]
  | q :: qs => if isNewer q.tag p.tag then p :: q :: qs else q :: insertHolding p qs

/-- Of entries that carry the same tag, the first one given is kept (R17). -/
def firstOfEachTag (ps : List ReadyPair) : List ReadyPair :=
  ps.foldl (fun acc p => if acc.any fun q => q.tag == p.tag then acc else acc ++ [p]) []

/-- The pairs are in ascending tag order, each newer than every one before it. -/
def tagsAscend : List ReadyPair → Bool
  | [] => true
  | p :: ps => ps.all (fun q => isNewer q.tag p.tag) && tagsAscend ps

/-- Every order of a list. -/
def insertEverywhere (p : ReadyPair) : List ReadyPair → List (List ReadyPair)
  | [] => [[p]]
  | q :: qs => (p :: q :: qs) :: (insertEverywhere p qs).map (q :: ·)

/-- Every order of a list. -/
def orders : List ReadyPair → List (List ReadyPair)
  | [] => [[]]
  | p :: ps => (orders ps).flatMap (insertEverywhere p)

/-- A STATE's ready entries as the roster keeps them: the first of each tag, in ascending tag order
(R17). Tags that have no ascending order, since the order is modular, keep an order that a free value
takes (log entry 8). -/
def holdingsOf (ready : List ReadyPair) : List ReadyPair :=
  let distinct := firstOfEachTag ready
  let sorted := distinct.foldl (fun acc p => insertHolding p acc) []
  if tagsAscend sorted then sorted
  else
    let all := orders distinct
    (all[Config.unorderedHoldings (distinct.map (·.tag)) % all.length]?).getD sorted

/-- The recording of a STATE's content (R17). -/
def RosterEntry.record (e : RosterEntry) (f : StateFields) : RosterEntry :=
  { e with holdings := holdingsOf f.ready, shownTag := f.shownTag, shownSince := f.shownSince,
           view := f.view }

/-- An accepted STATE's content is recorded: its sender is admitted by it or already JOINING, VOTER or
QUIET (R17). -/
def RosterEntry.records (e : RosterEntry) (memberSince : Count) : Bool :=
  match e.state with
  | .expected | .absent => e.admits memberSince
  | .joining | .voter | .quiet => true
  | .vacant => false

/-- An entry that takes an accepted STATE (R17). A member-since exactly 2^31 from the count is neither
after nor not after it: a free value takes the state (log entry 9). -/
def RosterEntry.takeState (e : RosterEntry) (f : StateFields) (count : Count) : RosterEntry :=
  if !e.records f.memberSince then e
  else if e.admits f.memberSince then
    { e.record f with
      state :=
        if notAfter f.memberSince count then .voter
        else if isAfter f.memberSince count then .joining
        else if Config.incomparableStamps f.memberSince count then .voter
        else .joining
      joinedAt := some f.memberSince
      absentFrom := none
      cause := .none }
  else e.record f

/-- An entry that takes an accepted LEAVE (R18). -/
def RosterEntry.takeLeave (e : RosterEntry) (absentFrom : Count) : RosterEntry :=
  match e.state, e.absentFrom with
  | .joining, none | .voter, none | .quiet, none =>
    { e with absentFrom := some absentFrom, cause := .left }
  | _, _ => e

/-- The view comparison on a recorded STATE with stamp `stamp` (R22). -/
def viewComparison (s : State) (sender : Station) (stamp : Count) (view : StationSet) : State :=
  let own := s.cfg.station
  if isVoter s stamp sender && isVoter s stamp own && !hasStation view own then
    match s.ros.self with
    | .member => evict s
    | .leaving => raise s .viewSplit
    | .config | .listen | .joining | .evicted | .detached => s
  else s

/-- The sender's entry refreshed and then changed. -/
def refreshThen (s : State) (m : Message) (change : RosterEntry → RosterEntry) : State :=
  s.withRos (s.ros.setEntry m.sender
    (change ((s.ros.entry m.sender).refresh m.stamp s.ros.frameStarts)))

/-- A message's content at the Roster Unit, kind by kind (R14 to R18, R22). -/
def rosterContent (s : State) (m : Message) : State :=
  match m.body with
  | .join j =>
    if joinClashes s.cfg j then
      raise
        (s.withRos (s.ros.setEntry m.sender { s.ros.entry m.sender with clash := true })) .configClash
    else refreshThen s m (·.takeJoin (addFrames m.stamp s.cfg.lead))
  | .state f =>
    let recorded := ((s.ros.entry m.sender).refresh m.stamp s.ros.frameStarts).records f.memberSince
    let s := refreshThen s m (·.takeState f s.tim.count)
    if recorded then viewComparison s m.sender m.stamp f.view else s
  | .leave => refreshThen s m (·.takeLeave (addFrames m.stamp s.cfg.lead))
  | .repeatRequest _ _ => refreshThen s m id

/-- An accepted message at the Roster Unit: in LISTEN it ends the listen period (R3), and it is handled
by its kind. -/
def rosterMessage (s : State) (m : Message) : State :=
  rosterContent (if s.ros.self = .listen then enterJoining s else s) m

/-- The content of an accepted STATE is recorded at the Roster Unit (R17), which is when AGR makes its
swap split check (R45). -/
def stateRecorded (s : State) (m : Message) : Bool :=
  match m.body with
  | .state f => ((s.ros.entry m.sender).refresh m.stamp s.ros.frameStarts).records f.memberSince
  | .join _ | .leave | .repeatRequest _ _ => false

/-! ## The frame start (R3, R5, R7, R11, R18, R19) -/

/-- Check 1 of a frame start: a JOINING entry whose joined-at is not after the count becomes VOTER
(R11). -/
def RosterEntry.reachJoined (e : RosterEntry) (count : Count) : RosterEntry :=
  if e.state = .joining ∧ e.joinedAt.any (notAfter · count) = true then { e with state := .voter }
  else e

/-- Check 2 of a frame start: a VOTER entry last heard HB+2 or more frame starts ago becomes QUIET
(R11). -/
def RosterEntry.fallQuiet (e : RosterEntry) (hb : Nat) (frameStarts : Count) : RosterEntry :=
  if e.state = .voter ∧ e.lastFrame.any (fun f => decide (hb + 2 ≤ (frameStarts - f).toNat)) = true then
    { e with state := .quiet }
  else e

/-- The absence a frame start finds for an entry: by silence at the value given, or reached after a
LEAVE (R18, R19). -/
inductive AbsenceFound where
  | none
  | silence (at_ : Count)
  | reached
deriving DecidableEq, Repr

/-- Check 3 of a frame start, the absence checks (R18, R19). -/
def RosterEntry.absenceAt (e : RosterEntry) (cfg : StationConfig) (count : Count) : AbsenceFound :=
  match e.state with
  | .vacant | .expected | .absent => .none
  | .joining | .voter | .quiet =>
    match e.absentFrom with
    | some a => if notBefore count a then .reached else .none
    | none =>
      match provisionalAbsent cfg e with
      | some p => if notBefore count p then .silence p else .none
      | none => .none

/-- The entry as checks 1 and 2 leave it (R11). -/
def RosterEntry.aged (e : RosterEntry) (cfg : StationConfig) (count frameStarts : Count) :
    RosterEntry :=
  (e.reachJoined count).fallQuiet cfg.hb frameStarts

/-- An entry after the checks of a frame start (R11). -/
def RosterEntry.frameStart (e : RosterEntry) (cfg : StationConfig) (count frameStarts : Count) :
    RosterEntry :=
  let e := e.aged cfg count frameStarts
  match e.absenceAt cfg count with
  | .none => e
  | .silence p => { e with state := .absent, absentFrom := some p, cause := .silence }
  | .reached => { e with state := .absent }

/-- The frame start finds the entry absent, a decided absence (R19, R37). -/
def RosterEntry.becomesAbsent (e : RosterEntry) (cfg : StationConfig) (count frameStarts : Count) :
    Bool :=
  (e.aged cfg count frameStarts).absenceAt cfg count != .none

/-- The frame start loses a voter by silence: MEMBER_LOST (R19). -/
def RosterEntry.becomesLost (e : RosterEntry) (cfg : StationConfig) (count frameStarts : Count) :
    Bool :=
  let e := e.aged cfg count frameStarts
  match e.absenceAt cfg count with
  | .silence _ => e.state == .voter || e.state == .quiet
  | .none | .reached => false

/-- The self state at a frame start (R3, R5, R7), the frame-start count already advanced. -/
def selfFrameStart (s : State) : State :=
  match s.ros.self with
  | .listen =>
    if s.ros.frameStarts = BitVec.ofNat 32 (s.cfg.lf + 1) then enterJoining s else s
  | .joining =>
    if s.ros.ownJoined.any (notBefore s.tim.count ·) then s.withRos { s.ros with self := .member }
    else s
  | .leaving =>
    if s.ros.ownAbsent.any (fun a => notBefore s.tim.count (addFrames a 2)) then enterDetached s else s
  | .config | .member | .evicted | .detached => s

/-- The checks of every roster entry at a frame start (R11, R18, R19). -/
def entriesFrameStart (s : State) : State :=
  let lost := stations.filter fun n =>
    (s.ros.entry n).becomesLost s.cfg s.tim.count s.ros.frameStarts
  let s' := s.withRos
    (s.ros.mapEntries fun _ e => e.frameStart s.cfg s.tim.count s.ros.frameStarts)
  lost.foldl (fun s _ => raise s .memberLost) s'

/-- The frame-start count advanced (R1). -/
def countFrameStart (s : State) : State :=
  s.withRos { s.ros with frameStarts := s.ros.frameStarts + 1 }

/-- The frame start at the Roster Unit (R1, R3, R5, R7, R11). -/
def rosterFrameStart (s : State) : State := entriesFrameStart (selfFrameStart (countFrameStart s))

/-- How many absences the frame start decides, each an occasion of evaluation (R19, R37). -/
def absencesDecided (s : State) : Nat :=
  let s := countFrameStart s
  (stations.filter fun n =>
    (s.ros.entry n).becomesAbsent s.cfg s.tim.count s.ros.frameStarts).length

/-! ## The self entry (R12) -/

/-- The count has reached a point, own joined-at or own absent-from. At a point exactly 2^31 from the
count it is neither "not before" the point nor is the point "after" it, and R12 names no state: a free
value takes it (log entry 9). -/
def countReached (now point : Count) : Bool :=
  notBefore now point || (!isAfter point now && Config.incomparableStamps point now)

/-- The state of the self entry (R12). -/
def selfEntryState (s : State) : EntryState :=
  match s.ros.self with
  | .config => .vacant
  | .detached => .absent
  | .listen | .joining | .member | .evicted | .leaving =>
    if s.ros.ownAbsent.any (countReached s.tim.count) then .absent
    else
      match s.ros.ownJoined with
      | none => .expected
      | some j => if countReached s.tim.count j then .voter else .joining

/-- The self entry, built from the self state and not from received messages (R12). -/
def selfEntry (s : State) : RosterEntry :=
  { RosterEntry.initial (selfEntryState s) with
    joinedAt := s.ros.ownJoined
    absentFrom := s.ros.ownAbsent
    cause := if selfEntryState s = .absent then .left else .none
    holdings := s.buf.readyList
    shownTag := s.buf.shownTag
    shownSince := s.buf.shownSince
    view := voterSet s s.tim.count }

/-- The roster entry of station n as it is read: the self entry for the own number, once the station
has taken START (R9, R12, R179). -/
def readEntry (s : State) (n : Station) : RosterEntry :=
  if s.ros.self ≠ .config ∧ n = s.cfg.station then selfEntry s else s.ros.entry n

end Sys2Proof.Machine
end

