-- ==== Sys2Proof/Machine/Timing.lean ====
section
/-! DEFINITION. The Timing Unit (chapter 6): the group frame count, adoption and forward jumps, phase
offsets, and the trim decision. -/

namespace Sys2Proof.Machine

/-! ## Offsets (R96) -/

/-- Every stored phase offset set to none with age 0 (R103, R112). -/
def clearOffsets (r : RosterUnit) : RosterUnit :=
  r.mapEntries fun _ e => { e with offset := none, age := 0 }

/-- The age of every stored phase offset increased by 1, stopping at 255 (R97, stage 2). -/
def ageOffsets (r : RosterUnit) : RosterUnit :=
  r.mapEntries fun _ e => if e.offset.isSome then { e with age := min 255 (e.age + 1) } else e

/-- Every stored offset moved by the length just chosen less FL, and bounded again (R111). -/
def adjustOffsets (r : RosterUnit) (fl length : Nat) : RosterUnit :=
  r.mapEntries fun _ e =>
    { e with offset := e.offset.map fun x => boundLines (fl - 1) (x + ((length : Int) - (fl : Int))) }

/-! ## The trim decision (R109, R110) -/

/-- The offset of station n, where it is usable at the frame start of count g (R109). -/
def usableOffset (s : State) (g : Count) (n : Station) : Option Int :=
  let e := s.ros.entry n
  match e.offset with
  | none => none
  | some x =>
    if decide (n ≠ s.cfg.station) && decide (e.age ≤ s.cfg.hb + 2) && isVoter s g n &&
        e.state != .quiet then some x
    else none

/-- The median of the usable offsets and the value 0 for self: the lower middle value (R109). -/
def trimMedian (s : State) (g : Count) : Int :=
  let values := sortAscending (0 :: stations.filterMap (usableOffset s g))
  (values[(values.length - 1) / 2]?).getD 0

/-- The length of the new frame chosen from the median, and whether it is a snap (R110). -/
def trimLength (cfg : StationConfig) (m : Int) : Nat × Bool :=
  if (cfg.snap : Int) < m ∨ m < -(cfg.snap : Int) then (boundLength cfg.fl ((cfg.fl : Int) - m), true)
  else if (cfg.db : Int) < m then (cfg.fl - 1, false)
  else if m < -(cfg.db : Int) then (cfg.fl + 1, false)
  else (cfg.fl, false)

/-! ## The frame start (R97, R98) -/

/-- The frame start is a lone start: UNSET with the Roster Unit's frame-start count at LF (R98). -/
def isLoneStart (s : State) : Bool :=
  s.tim.countState == .unset && s.ros.frameStarts == BitVec.ofNat 32 s.cfg.lf

/-- Stage 1 of a frame start, the count (R97, R98). -/
def TimingUnit.advance (t : TimingUnit) (lone : Bool) : TimingUnit :=
  match t.countState with
  | .set => { t with count := t.count + 1 }
  | .unset => if lone then { t with count := 0#32, countState := .set } else t

/-- The frame start at the Timing Unit, in its four stages; with the length of the new frame that it
returns to the Scan-out Unit (R97). -/
def timingFrameStart (s : State) : State × Nat :=
  let s := s.withTim (s.tim.advance (isLoneStart s))
  let s := s.withRos (ageOffsets s.ros)
  let m := trimMedian s s.tim.count
  let (length, snap) := trimLength s.cfg m
  let s := s.withTim { s.tim with lastMedian := m }
  let s := s.withRos (adjustOffsets s.ros s.cfg.fl length)
  (if snap then raise s .snap else s, length)

/-- A line start at the Timing Unit (R99). -/
def TimingUnit.lineStart (t : TimingUnit) : TimingUnit := { t with lineStarts := t.lineStarts + 1 }

/-- The report of an applied realignment (R106). -/
def TimingUnit.realignReported (t : TimingUnit) : TimingUnit :=
  { t with realignPending := false, realignNumber := t.realignNumber + 1 }

/-! ## The realignment claim (R102, R103) -/

/-- The group position at line-start count `at_` for a message with stamp S and phase P noted at
line-start count s0 (R102). -/
def groupPosition (fl : Nat) (stamp : Count) (phase : Nat) (s0 at_ : Count) : Count × Nat :=
  let a := phase + (at_ - s0).toNat
  (addFrames stamp (a / fl), a % fl)

/-- The next line start is a frame start, before any realignment (R82, R103). -/
def frameStartNext (u : ScanOutUnit) : Bool := u.currentLine + 1 == u.endLine

/-- The count and the line that a claim sets and requests (R103). -/
def claimedPosition (s : State) (stamp : Count) (phase : Nat) (s0 : Count) : Count × Nat :=
  let fl := s.cfg.fl
  let next := frameStartNext s.scn
  let at_ := s.tim.lineStarts + (if next then 2#32 else 1#32)
  let (n, p) := groupPosition fl stamp phase s0 at_
  let renumbers := !next && (decide (p ≠ 0) || decide (s.scn.elapsed < fl / 2))
  (if renumbers then n else n - 1, p)

/-- The claim: the count is set, the realignment request is on its way to the Scan-out Unit, which has it
before the next line start (log entry 26), and every stored offset is discarded (R103). -/
def realignmentClaim (s : State) (stamp : Count) (phase : Nat) (s0 : Count) : State :=
  let (n, p) := claimedPosition s stamp phase s0
  let s := s.withTim { s.tim with count := n, realignPending := true }
  let s := s.withArriving { s.arriving with request := some p }
  s.withRos (clearOffsets s.ros)

/-! ## Accepted messages (R101, R104, R105, R107, R108) -/

/-- What the Timing Unit does with a message (R101). -/
inductive TimingUse where
  | adoption
  | jump
  | storeOffset (d : Int)
  | nothing
deriving DecidableEq, Repr

/-- The handling of an accepted message, by the count state noted, the count state now and the signed
difference of its stamp from the noted count (R101). -/
def timingUse (t : TimingUnit) (rt : ReceiveTiming) (stamp : Count) : TimingUse :=
  let d := signedDifference stamp rt.count
  if t.realignPending || rt.realignNumber != t.realignNumber then .nothing
  else
    match rt.countState, t.countState with
    | .unset, .unset => .adoption
    | .unset, .set => if 2 ≤ d then .jump else .nothing
    | .set, .set => if 2 ≤ d then .jump else if -1 ≤ d then .storeOffset d else .nothing
    | .set, .unset => .nothing

/-- The phase offset of a message (R108). -/
def phaseOffset (fl : Nat) (d : Int) (phase line : Nat) : Int :=
  boundLines (fl - 1) (d * (fl : Int) + ((phase : Int) - (line : Int)))

/-- An accepted message at the Timing Unit, with its receive timing. Adoption and a forward jump tell
the Agreement Unit, which the caller hands on (R104, R105). -/
def timingMessage (s : State) (m : Message) (rt : ReceiveTiming) : State :=
  match timingUse s.tim rt m.stamp with
  | .adoption =>
    let s := realignmentClaim s m.stamp m.phase rt.lineStarts
    s.withTim { s.tim with countState := .set }
  | .jump => raise (realignmentClaim s m.stamp m.phase rt.lineStarts) .countJump
  | .storeOffset d =>
    s.withRos (s.ros.setEntry m.sender
      { s.ros.entry m.sender with
        offset := some (phaseOffset s.cfg.fl d m.phase rt.line), age := 0 })
  | .nothing => s

end Sys2Proof.Machine
end

