-- ==== Sys2Proof/Machine/Handoffs.lean ====
section
/-! DEFINITION. The hand-offs between blocks within one command. Where the manual says that signals
"reach different blocks and carry no order among them" (R50, R87, R127), the order is taken by a free
value, one choice at a time; where it gives an order (AGR after ROS has recorded a message, R127; AGR
told of a jump after TIM has set the count, R105), a hand-off is made only when the one before it has
been taken. -/

namespace Sys2Proof.Machine

/-- A signal that a block has made and that its receiver has not taken yet. -/
inductive Handoff where
  /-- ROS takes the frame start (R87, step 3) -/
  | rosterFrameStart
  /-- AGR takes the frame start (R38, R46, R87) -/
  | agreementFrameStart
  /-- BIU takes the frame start (R87, R142) -/
  | busFrameStart
  /-- an occasion of evaluation reaches AGR (R37) -/
  | occasion
  /-- BUF's standing trigger reaches the transmit side (R50, R141) -/
  | holdingsTrigger
  /-- ROS takes an accepted message (R127) -/
  | rosterTakes (m : Message)
  /-- TIM takes an accepted message (R127) -/
  | timingTakes (m : Message) (rt : Option ReceiveTiming)
  /-- BIU transmit takes a claim of an accepted message (R130 to R132) -/
  | transmitTakes (c : TransmitClaim)
  /-- AGR takes an accepted message after ROS has (R37, R45, R127); `recorded` tells that ROS recorded
  the content of a STATE -/
  | agreementTakes (m : Message) (recorded : Bool)
  /-- AGR is told of a forward jump to a count (R40, R41, R105) -/
  | jumpTold (n : Count)
  /-- CAP makes the release of a completed frame, and takes up a held begin (R72, R75) -/
  | captureRelease
deriving DecidableEq, Repr

/-- An accepted message is an occasion of evaluation: a STATE, JOIN or LEAVE, not a REPEAT (R37,
R127). -/
def Message.isOccasion (m : Message) : Bool :=
  match m.body with
  | .join _ | .state _ | .leave => true
  | .repeatRequest _ _ => false

/-- AGR takes an accepted message: the swap split check of a recorded STATE, and the evaluation of an
occasion (R37, R45). -/
def agreementMessage (s : State) (m : Message) (recorded : Bool) : State :=
  let s :=
    match m.body with
    | .state f => if recorded then swapSplitCheck s m.sender m.stamp f.shownTag else s
    | .join _ | .leave | .repeatRequest _ _ => s
  if m.isOccasion then evaluate s else s

/-- The station a REPEAT's target byte names; a target of 16..255 names none (R127). -/
def repeatTarget (m : Message) : Option Station :=
  match m.body with
  | .repeatRequest target _ => if h : target.toNat < 16 then some ⟨target.toNat, h⟩ else none
  | .join _ | .state _ | .leave => none

/-- What an accepted message asks of the transmit side: the request for its sender is withdrawn (R131),
and a REPEAT that names another station withdraws the request for it (R130), one that names the own
station is answered (R132). A REPEAT whose target is 16..255 withdraws its sender's request too: R131 says
"any message, of any kind", R132 that such a REPEAT removes no entry (DESIGN CHOICE, log entry 32). -/
def transmitClaims (cfg : StationConfig) (m : Message) : List TransmitClaim :=
  .withdraw m.sender ::
    match repeatTarget m with
    | some x => [if x = cfg.station then .answer else .withdraw x]
    | none => []

/-- The signals the Timing Unit makes on a message: an adoption is an occasion (R104), a forward jump is
told to AGR with the count that the claim set (R105). -/
def timingSignals (s : State) (m : Message) (rt : ReceiveTiming) : List Handoff :=
  match timingUse s.tim rt m.stamp with
  | .adoption => [.occasion]
  | .jump => [.jumpTold (timingMessage s m rt).tim.count]
  | .storeOffset _ => []
  | .nothing => []

/-- One hand-off taken: what it does, and the signals it makes in turn. A forward jump is told to AGR when TIM
has set the count (R105), and an evaluation that is due may be taken between the two, before the retiming, since
R105 and R127 give no order (DESIGN CHOICE, log entry 36). -/
def takeHandoff (s : State) : Handoff → State × List Handoff
  | .rosterFrameStart =>
    (rosterFrameStart s, List.replicate (absencesDecided s) .occasion)
  | .agreementFrameStart => (agreementFrameStart s, [])
  | .busFrameStart => (heartbeatFrameStart s, [])
  | .occasion => (evaluate s, [])
  | .holdingsTrigger => (changeTrigger s, [])
  | .rosterTakes m => (rosterMessage s m, [.agreementTakes m (stateRecorded s m)])
  | .timingTakes m (some rt) => (timingMessage s m rt, timingSignals s m rt)
  | .timingTakes _ none => (s, [])
  | .transmitTakes c => (s.withTx (s.tx.takeClaim s.ros.self c), [])
  | .agreementTakes m recorded => (agreementMessage s m recorded, [])
  | .jumpTold n => (evaluate (retime s n), [])
  | .captureRelease => (afterRelease s .idle, [])

/-- How many turns a hand-off can need: one for itself and one for each signal it can make. -/
def Handoff.turns : Handoff → Nat
  | .rosterFrameStart => 17
  | .rosterTakes _ | .timingTakes _ _ => 2
  | .agreementFrameStart | .busFrameStart | .occasion | .holdingsTrigger | .transmitTakes _ => 1
  | .agreementTakes _ _ | .jumpTold _ | .captureRelease => 1

/-- How many turns a list of hand-offs can need. -/
def totalTurns (due : List Handoff) : Nat := (due.map Handoff.turns).sum

/-- One hand-off of a list, by position, and the others in their order. -/
def pickAt : Nat → Handoff → List Handoff → Handoff × List Handoff
  | 0, h, rest => (h, rest)
  | _ + 1, h, [] => (h, [])
  | k + 1, h, h' :: rest => let (x, others) := pickAt k h' rest; (x, h :: others)

/-- The hand-off taken next, by the free value where more than one is due. -/
def chooseNext (choose : Nat → Nat) (s : State) (h : Handoff) (rest : List Handoff) :
    State × Handoff × List Handoff :=
  match rest with
  | [] => (s, h, [])
  | _ :: _ =>
    (s.withChoices (s.choices + 1), pickAt (choose s.choices % (rest.length + 1)) h rest)

/-- The hand-offs that are due taken one after another, until none is due or the turns are used up
(`drain_complete` of Laws/Handoffs.lean: with `totalTurns` turns none is left). Gives the hand-offs
left too. -/
def drain (choose : Nat → Nat) : Nat → List Handoff → State → State × List Handoff
  | 0, due, s => (s, due)
  | _ + 1, [], s => (s, [])
  | n + 1, h :: rest, s =>
    let (s, x, others) := chooseNext choose s h rest
    let (s', more) := takeHandoff s x
    drain choose n (others ++ more) s'

/-- All the hand-offs that are due, taken in an order the choice function takes. -/
def settleWith (choose : Nat → Nat) (due : List Handoff) (s : State) : State :=
  (drain choose (totalTurns due) due s).1

/-- All the hand-offs that are due, taken in the order of the free value (log entry 1). -/
def settle (due : List Handoff) (s : State) : State := settleWith Config.handoffChoice due s

/-! ## What is on its way -/

/-- The hand-offs of an accepted message that are on their way (R127). -/
def Arrivals.messages (a : Arrivals) : List Handoff :=
  (a.roster.map .rosterTakes).toList ++ (a.timing.map fun x => .timingTakes x.1 (some x.2)).toList ++
    a.claims.map .transmitTakes

/-- What is on its way without a message's hand-offs: a realignment request at most. -/
def Arrivals.requestAlone (a : Arrivals) : Arrivals :=
  { a with roster := none, timing := none, claims := [] }

/-- Hand-offs that are due, taken together with those of an accepted message that are on their way. -/
def settleWithMessages (choose : Nat → Nat) (due : List Handoff) (s : State) : State :=
  settleWith choose (due ++ s.arriving.messages) (s.withArriving s.arriving.requestAlone)

/-- The hand-offs of an accepted message that are on their way, taken (R127). -/
def takeMessages (choose : Nat → Nat) (s : State) : State := settleWithMessages choose [] s

/-- The realignment request on its way, placed at the Scan-out Unit (R94, R103). -/
def placeRequest (s : State) : State :=
  match s.arriving.request with
  | none => s
  | some p =>
    (s.withScn { s.scn with realign := some p }).withArriving { s.arriving with request := none }

/-- What stays on its way of a message's hand-offs, by bits 0 to 2 of a number: to the Roster Unit, to the
Timing Unit and to the transmit side. -/
def Arrivals.later (lag : Nat) (a : Arrivals) : Arrivals :=
  { a with
    roster := if lag.testBit 0 then a.roster else none
    timing := if lag.testBit 1 then a.timing else none
    claims := if lag.testBit 2 then a.claims else [] }

/-- What does not stay on its way of a message's hand-offs. -/
def Arrivals.sooner (lag : Nat) (a : Arrivals) : Arrivals :=
  { roster := if lag.testBit 0 then none else a.roster
    timing := if lag.testBit 1 then none else a.timing
    claims := if lag.testBit 2 then [] else a.claims
    request := none }

/-- A message's hand-offs taken but for those that a lag leaves on their way. -/
def takeSooner (choose : Nat → Nat) (lag : Nat) (s : State) : State :=
  settleWith choose (s.arriving.sooner lag).messages (s.withArriving (s.arriving.later lag))

/-- All that is on its way, taken. -/
def arrive (choose : Nat → Nat) (s : State) : State := placeRequest (takeMessages choose s)

/-- What is on its way behind a transmit start: it stays so, and finds the entry in flight (R130, R131, R150)
or behind its collision (R147); where nothing is being sent it is taken. -/
def arriveUnlessSending (choose : Nat → Nat) (s : State) : State :=
  if s.tx.state = .sending then s else arrive choose s

/-- An effect that is taken before or after what is on its way, as a free value tells; with nothing on its
way there is no choice. -/
def eitherSide (choose : Nat → Nat) (effect : State → State) (s : State) : State :=
  if s.arriving = .nothing then effect s
  else
    let chosen := s.withChoices (s.choices + 1)
    if choose s.choices % 2 = 0 then effect (arrive choose chosen) else arrive choose (effect chosen)

/-- RESTART, in the middle of what is on its way (R94, R112, R176). Each block takes an accepted message before
or behind it, as a free value tells (log entry 34), and a realignment request reaches the Scan-out Unit behind
it. -/
def aroundRestart (choose : Nat → Nat) (effect : State → State) (s : State) : State :=
  if s.arriving.messages = [] then placeRequest (effect s)
  else
    let chosen := s.withChoices (s.choices + 1)
    arrive choose (effect (takeSooner choose (choose s.choices % 8) chosen))

/-- A command's effect while the RESET line is released. What is on its way from the step before is taken
first: only a transmit start, its collision, a frame start and RESTART may be taken before an accepted
message's hand-offs (R104, R112, R130, R131, R145, R147, R150), and only RESTART before a realignment request
(R94, R112).
All that one command raises reaches the Fault Unit before the next command, so that READ_FAULTS and
CLEAR_COUNTERS find the raises of one command all taken or none (DESIGN CHOICE, log entry 33: R158 lets
blocks raise independently, and R161 and R162 order a read or a clear against each raise). -/
def afterArrivals (s : State) (effect : State → State) : Host.Outcome State Fault Refusal :=
  unlessReset s fun s => effect (arrive Config.handoffChoice s)

end Sys2Proof.Machine
end

