-- ==== Sys2Proof/Machine/ScanOut.lean ====
section
/-! DEFINITION. The Scan-out Unit (chapter 5): the line timer, realignments, the lines on the panel, the
frame start with its swap decision. -/

namespace Sys2Proof.Machine

/-! ## Lines on the panel (R85) -/

/-- The line that begins: its content by its number and the SHOWING buffer, and for an active line of
a SHOWING buffer the read request (R85, R91). -/
def lineBegins (s : State) (frameStartMark : Bool) : State :=
  let n := s.scn.currentLine
  let line := fun c => some { number := n, frameStartMark := frameStartMark, content := c : PanelLine }
  if s.cfg.al ≤ n then s.withScn { s.scn with panel := line .blankLine }
  else
    match s.buf.find .showing with
    | some b => s.withScn { s.scn.requestRead { buffer := b, slot := n } with panel := line .awaiting }
    | none => s.withScn { s.scn with panel := line .blankFill }

/-! ## The swap decision (R88) -/

/-- The swap decision against the count of the new frame: with the head's T equal to the count, the
claim removes the head, the Buffer Manager carries out the swap, SWAP is asserted and the swap counted
(R43, R62, R88). -/
def swapDecision (s : State) : State :=
  match s.agr.schedule with
  | [] => s
  | e :: rest =>
    if e.time = s.tim.count then
      match s.buf.swapTo e.tag s.tim.count with
      | none => s
      | some (b, passed) =>
        let s := (s.withBuf b).withAgr { s.agr with schedule := rest }
        let s := s.withScn { s.scn with swapLine := true, swapThisFrame := true }
        countEvents (countEvents s .swaps 1) .passedOver passed
    else s

/-- The signals of a frame start that reach blocks in no given order: those of the Timing Unit's lone
start (R98) and of the Buffer Manager's swap (R62), and the frame start itself (R87, step 3). -/
def frameStartSignals (lone swapped : Bool) : List Handoff :=
  (if lone then [.occasion] else []) ++ (if swapped then [.occasion, .holdingsTrigger] else []) ++
    [.rosterFrameStart, .agreementFrameStart, .busFrameStart]

/-! ## The frame start (R87) -/

/-- Steps 1 and 2 of a frame start, and the beginning of line 0 (R83, R85, R87, R88). -/
def frameBegins (s : State) : State :=
  let (s, length) := timingFrameStart s
  let length := boundLength s.cfg.fl (length : Int)
  let s := s.withScn
    { s.scn with currentLine := 0, elapsed := 1, endLine := length, frameLength := length,
                 swapLine := false, swapThisFrame := false }
  lineBegins (swapDecision s) true

/-- The frame start (R87), with the order of step 3 taken by a choice function. The hand-offs of an accepted
message that are still on their way carry no order against the signals of step 3 (R104, R127), and come after
steps 1 and 2 (log entry 30). -/
def frameStartWith (choose : Nat → Nat) (s : State) : State :=
  let begun := frameBegins s
  settleWithMessages choose (frameStartSignals (isLoneStart s) begun.scn.swapThisFrame) begun

/-! ## The line start (R82, R84) -/

/-- Every line start is signalled to the Capture Unit and to the Timing Unit, and ends the line period
of the SWAP line (R76, R82, R89, R99). -/
def signalLineStart (s : State) : State :=
  let s := s.withCap (s.cap.lineStart (timeoutLimit s.cfg))
  let s := s.withTim s.tim.lineStart
  s.withScn { s.scn with swapLine := false }

/-- The pending realignment makes the line start a frame start: p is 0 and e is not below FL/2 (R84). -/
def realignsToFrameStart (s : State) (p : Nat) : Bool :=
  p == 0 && decide (s.cfg.fl / 2 ≤ s.scn.elapsed)

/-- The length D of a realigned frame (R84). -/
def realignedLength (fl e p : Nat) : Nat := boundLength fl ((e : Int) + (fl : Int) - (p : Int))

/-- The realignment applied: it is no longer pending, and is reported to the Timing Unit (R84, R106). -/
def realignmentApplied (s : State) : State :=
  (s.withScn { s.scn with realign := none }).withTim s.tim.realignReported

/-- The realignment that renumbers the frame in progress (R84). -/
def renumber (s : State) (p : Nat) : State :=
  let fl := s.cfg.fl
  let e := s.scn.elapsed
  let d := realignedLength fl e p
  let s := realignmentApplied s
  let s := s.withScn
    { s.scn with frameLength := d, endLine := fl, currentLine := fl - (d - e), elapsed := e + 1 }
  lineBegins s false

/-- A line start that is neither a frame start nor a realignment (R82). -/
def nextLine (s : State) : State :=
  lineBegins
    (s.withScn { s.scn with currentLine := s.scn.currentLine + 1, elapsed := s.scn.elapsed + 1 }) false

/-- The line start that comes is a frame start: at the end line, or by a pending realignment (R82,
R84). -/
def frameStartDue (s : State) : Bool :=
  frameStartNext s.scn || s.scn.realign.any (realignsToFrameStart s)

/-- The next line start may be a frame start: at the end line, or by a realignment, which needs half a frame
elapsed (R82, R84). -/
def frameStartMayFollow (s : State) : Bool :=
  frameStartNext s.scn || decide (s.cfg.fl / 2 ≤ s.scn.elapsed)

/-- What a line start finds. A realignment request is at the Scan-out Unit before it (R103). What an accepted
message has handed on is taken before a line start that is no frame start, and stays on its way where a frame
start comes (R104, log entry 30). -/
def beforeLineStart (choose : Nat → Nat) (s : State) : State :=
  let s := placeRequest s
  if s.scn.timer = .running ∧ frameStartDue s = true then s else arrive choose s

/-- A line start of the running timer (R82), with the order of a frame start's step 3 taken by a choice
function. -/
def lineStartWith (choose : Nat → Nat) (s : State) : State :=
  if s.scn.timer = .stopped then s
  else if frameStartNext s.scn then frameStartWith choose (signalLineStart s)
  else
    match s.scn.realign with
    | none => nextLine (signalLineStart s)
    | some p =>
      if realignsToFrameStart s p then frameStartWith choose (realignmentApplied (signalLineStart s))
      else renumber (signalLineStart s) p

/-- A frame start, where one is due (R82, R87). -/
def frameStartIfDue (choose : Nat → Nat) (s : State) : State :=
  if frameStartDue s then lineStartWith choose s else s

end Sys2Proof.Machine
end

