-- ==== Sys2Proof/Machine/BusReceive.lean ====
section
/-! DEFINITION. BIU receive (chapter 7): a burst, its ten checks, and what follows from the one that
decides. -/

namespace Sys2Proof.Machine

/-! ## Reading a burst (R117, R119, R120) -/

/-- Byte i of the burst. -/
def byteAt (bs : List Byte) (i : Nat) : Byte := bs.getD i 0#8

/-- The kind field of a header (R117). -/
def headerKind (bs : List Byte) : Nat := (byteAt bs 0).toNat % 16

/-- The group field of a header (R117). -/
def headerGroup (bs : List Byte) : Nat := (byteAt bs 0).toNat / 16 % 4

/-- The length field of a header: bits 5:4 in byte 0, bits 3:0 in byte 1 (R117). -/
def headerLength (bs : List Byte) : Nat :=
  16 * ((byteAt bs 0).toNat / 64) + (byteAt bs 1).toNat / 16

/-- The station field of a header (R117). -/
def headerStation (bs : List Byte) : Station :=
  ⟨(byteAt bs 1).toNat % 16, Nat.mod_lt _ (by decide)⟩

/-- The payload, the bytes between header and body check (7.2). -/
def payloadOf (bs : List Byte) : List Byte := (bs.drop 4).take (headerLength bs)

/-- A count field of a payload. -/
def countField (payload : List Byte) (offset : Nat) : Count := BitVec.ofNat 32 (field payload offset 4)

/-- The JOIN fields of a payload (R119). -/
def readJoin (payload : List Byte) : JoinFields :=
  { fl := field payload 6 2, al := field payload 8 2, lead := field payload 10 1
    hb := field payload 11 1, af := field payload 12 1
    members := BitVec.ofNat 16 (field payload 13 2), policy := field payload 15 1 }

/-- The ready entries of a STATE payload, n of them (R120). -/
def readReady (payload : List Byte) (n : Nat) : List ReadyPair :=
  (List.range n).map fun i =>
    { tag := BitVec.ofNat 16 (field payload (19 + 6 * i) 2), stamp := countField payload (21 + 6 * i) }

/-- The STATE fields of a payload; bit 7 of the ready count alone says whether a shown tag is present
(R120). -/
def readState (payload : List Byte) : StateFields :=
  let count := field payload 18 1
  let shown := decide (count < 128)
  { memberSince := countField payload 6
    shownTag := if shown then some (BitVec.ofNat 16 (field payload 10 2)) else none
    shownSince := if shown then some (countField payload 12) else none
    view := BitVec.ofNat 16 (field payload 16 2)
    ready := readReady payload (count % 128) }

/-- The message body of a payload by its kind (R119, R120). -/
def readBody (kind : Nat) (payload : List Byte) : MessageBody :=
  match kind with
  | 1 => .join (readJoin payload)
  | 2 => .state (readState payload)
  | 3 => .leave
  | _ => .repeatRequest (byteAt payload 6) (byteAt payload 7)

/-- The message that a burst carries. -/
def readMessage (bs : List Byte) : Message :=
  let payload := payloadOf bs
  { sender := headerStation bs, seq := byteAt bs 2, stamp := countField payload 0
    phase := field payload 4 2, body := readBody (headerKind bs) payload }

/-! ## The receive checks (R121 to R126) -/

/-- Check 2 passes: at least 4 whole bytes and the header check over bytes 0..2 (R122). -/
def headerPasses (bs : List Byte) : Bool :=
  decide (4 ≤ bs.length) && headerCheck (bs.take 3) == byteAt bs 3

/-- Check 7 passes: the length fits the kind; for a STATE the ready count too, where the burst carried
payload byte 18 (R124). -/
def lengthPasses (bs : List Byte) : Bool :=
  let length := headerLength bs
  match headerKind bs with
  | 1 => length == 16
  | 2 =>
    [19, 25, 31, 37].contains length &&
      (decide (bs.length ≤ 22) || (byteAt bs 22).toNat % 128 == (length - 19) / 6)
  | 3 => length == 6
  | _ => length == 8

/-- Check 8 passes: exactly 4 + length + 2 whole bytes, not overlong, no trailing bits, and the body
check over the payload (R125). -/
def bodyPasses (r : BusReceiver) : Bool :=
  let length := headerLength r.bytes
  r.bytes.length == 4 + length + 2 && !r.overlong && !r.trailingBits &&
    (bodyCheck (payloadOf r.bytes)).toNat == field r.bytes (4 + length) 2

/-- What check 9 finds (R126). -/
inductive SequenceFound where
  | new | gap | duplicate
deriving DecidableEq, Repr

/-- Check 9: the message sequence against the last one recorded for the sender (R126). -/
def judgeSequence (e : RosterEntry) (seq : Byte) : SequenceFound :=
  match e.lastSeq with
  | none => .new
  | some last =>
    if e.state = .expected ∨ e.state = .absent then .new
    else
      let k := (seq - last).toNat
      if k = 1 then .new else if 2 ≤ k ∧ k ≤ 127 then .gap else .duplicate

/-- The outcome of the checks (R121). -/
inductive BurstOutcome where
  /-- check 1 -/
  | collision
  /-- checks 2, 3, 5 and 6: discarded with a fault -/
  | discarded (k : FaultKind)
  /-- check 4: dropped silently -/
  | dropped
  /-- checks 7 and 8: discarded with a fault and a repeat request -/
  | damaged (k : FaultKind) (sender : Station) (reason : RepeatReason)
  /-- check 9 -/
  | duplicate
  /-- check 10, and whether a gap was seen -/
  | accepted (m : Message) (gap : Bool)
deriving DecidableEq, Repr

/-- The ten checks in their order, the first that fails deciding (R121). -/
def judgeBurst (cfg : StationConfig) (ros : RosterUnit) (r : BusReceiver) : BurstOutcome :=
  let bs := r.bytes
  let sender := headerStation bs
  if r.invalidSymbol then .collision
  else if !headerPasses bs then .discarded .hdrBad
  else if headerKind bs = 0 ∨ 4 < headerKind bs then .discarded .kindBad
  else if headerGroup bs ≠ cfg.group.val then .dropped
  else if sender = cfg.station then .discarded .numberClash
  else if !hasStation cfg.members sender then .discarded .alien
  else if !lengthPasses bs then .damaged .lenBad sender .lenBad
  else if !bodyPasses r then .damaged .bodyBad sender .bodyBad
  else
    match judgeSequence (ros.entry sender) (byteAt bs 2) with
    | .duplicate => .duplicate
    | .new => .accepted (readMessage bs) false
    | .gap => .accepted (readMessage bs) true

/-! ## Outcomes (R121, R127, R129) -/

/-- A repeat request for the sender of a damaged burst, in JOINING, MEMBER, EVICTED and LEAVING (R129). -/
def repeatRequest (s : State) (x : Station) (reason : RepeatReason) : State :=
  if !s.ros.self.active then s
  else
    let (t, lost) := s.tx.request x reason
    let s := s.withTx t
    if lost then countEvents s .repeatsLost 1 else s

/-- Acceptance at BIU receive: the sender's last message sequence, the count, and SEQ_GAP (R127). -/
def acceptMessage (s : State) (m : Message) (gap : Bool) : State :=
  let s := s.withRos (s.ros.setEntry m.sender { s.ros.entry m.sender with lastSeq := some m.seq })
  let s := countEvents s .accepted 1
  if gap then raise s .seqGap else s

/-- Where an accepted message's hand-offs may meet the own transmit start, a frame start or RESTART, either may
be taken first (R104, R112, R130, R131, R145, R150; log entries 26, 30 and 34): a free value tells which are
still on their way when the step ends (`Arrivals.later`). With an empty queue, no frame start next and no
command byte awaited there is nothing to meet. -/
def lagOf (choose : Nat → Nat) (s : State) : Nat :=
  if s.tx.queue.isEmpty && !frameStartMayFollow s && s.lpt.phase != .command then 0
  else choose s.choices % 8

/-- All the hand-offs of an accepted message, which carry no order among them (R127). -/
def handoffsOf (cfg : StationConfig) (m : Message) (rt : Option ReceiveTiming) : Arrivals :=
  { roster := some m, timing := rt.map (m, ·), claims := transmitClaims cfg m, request := none }

/-- An accepted message handed on (R127). A realignment request that it leads to may be on its way too, so
that RESTART comes before it at the Scan-out Unit (R94, R112); a free value tells. -/
def handOnMessage (choose : Nat → Nat) (s : State) (m : Message) (rt : Option ReceiveTiming) : State :=
  let lag := lagOf choose s
  let s := takeSooner choose lag ((s.withChoices (s.choices + 1)).withArriving (handoffsOf s.cfg m rt))
  let s := if choose s.choices % 2 = 0 then placeRequest s else s
  s.withChoices (s.choices + 1)

/-- The outcome of the checks carried out (R121), the order of an accepted message's hand-offs taken
by a choice function. -/
def carryOutBurst (choose : Nat → Nat) (s : State) (rt : Option ReceiveTiming) :
    BurstOutcome → State
  | .collision => countEvents s .collisions 1
  | .discarded k => raise s k
  | .dropped => s
  | .damaged k x reason => repeatRequest (raise s k) x reason
  | .duplicate => countEvents s .duplicates 1
  | .accepted m gap => handOnMessage choose (acceptMessage s m gap) m rt

/-! ## The line (R115, R116, R137) -/

/-- The receive timing noted at the start of a burst (R100). -/
def noteTiming (s : State) : ReceiveTiming :=
  { count := s.tim.count, line := s.scn.currentLine, lineStarts := s.tim.lineStarts
    realignNumber := s.tim.realignNumber, countState := s.tim.countState }

/-- The receive machine with no burst: no bytes, no flags. -/
def BusReceiver.cleared (r : BusReceiver) (state : ReceiveState) : BusReceiver :=
  { r with state := state, bytes := [], overlong := false, trailingBits := false,
           invalidSymbol := false }

/-- The line leaves idle: in IDLE a burst begins and its receive timing is noted; a slot in progress is
spoiled (R116, R144). -/
def lineLeavesIdle (s : State) : State :=
  if s.line = .busy then s
  else
    let s := spoilSlot (s.withLine .busy)
    if s.rx.state = .idle then
      s.withRx { s.rx.cleared .receiving with timing := some (noteTiming s) }
    else s

/-- The burst in progress with what it carried: up to 69 whole bytes are kept, a 70th makes it overlong
(R116). -/
def BusReceiver.carry (r : BusReceiver) (b : Burst) : BusReceiver :=
  { r with
    bytes := (r.bytes ++ b.bytes).take 69
    overlong := r.overlong || decide (69 < (r.bytes ++ b.bytes).length)
    trailingBits := b.trailingBits
    invalidSymbol := r.invalidSymbol || b.invalidSymbol }

/-- The burst that ends is taken whole through the checks, and its outcome is carried out (R116,
R121). -/
def burstTaken (choose : Nat → Nat) (s : State) (b : Burst) : State :=
  let r := s.rx.carry b
  let outcome := judgeBurst s.cfg s.ros r
  carryOutBurst choose ((s.withRx (r.cleared .idle)).withLine .idle) r.timing outcome

/-- The line returns to idle: in RECEIVING the burst is taken and the machine returns to IDLE; in
WAIT_IDLE the machine becomes IDLE (R115, R116, R121). While the own transmit machine drives the line,
the line does not return to idle. -/
def burstEnds (choose : Nat → Nat) (s : State) (b : Burst) : State :=
  if s.line = .idle ∨ s.tx.state = .sending ∨ s.tx.state = .jamming then s
  else if s.rx.state = .receiving then burstTaken choose s b
  else lineIdle s

end Sys2Proof.Machine
end

