-- ==== Sys2Proof/WellFormed.lean ====
section
/-! DEFINITION. Which commands spell an event of their row: an UNKNOWN_COMMAND carries a byte that is
no command code (R171, R182). Every other operand may take every value of its type. -/

namespace Sys2Proof

/-- The ten command codes of R182. -/
def commandCodes : List Byte :=
  [0x10#8, 0x11#8, 0x12#8, 0x13#8, 0x20#8, 0x21#8, 0x22#8, 0x23#8, 0x24#8, 0x25#8]

/-- The command spells an event of its row. -/
def WellFormed : Instr → Bool
  | .unknownCommand code => !commandCodes.contains code
  | .hardReset | .chipSelectFalls | .chipSelectRises | .loadConfig _ | .start | .leave | .restart => true
  | .readState | .readMember _ | .readSchedule | .readFaults | .readCounters | .clearCounters => true
  | .lineStart | .frameStart | .beginMarker _ | .inputLine _ | .endMarker | .captureTimeout => true
  | .captureWriteComplete | .scanOutReadComplete | .lineBusy | .burstEnd _ | .gapReached => true
  | .backoffSlotEnd | .transmissionComplete | .collision | .jamEnd | .byteClocked _ => true
  | .resetReleased => true

end Sys2Proof
end

