-- ==== Sys2Proof/Machine/LocalPort.lean ====
section
/-! DEFINITION. The Local Port (chapter 10): the phases of a transaction, the validation of a
configuration block, the commands that act on the blocks, and the replies of the reads. -/

namespace Sys2Proof.Machine

/-! ## Status codes and the transaction (R169 to R171) -/

/-- The status OK (R171). -/
def statusOk : Byte := 0x01#8
/-- The status REFUSED (R171). -/
def statusRefused : Byte := 0x02#8
/-- The status BAD_CONFIG (R171). -/
def statusBadConfig : Byte := 0x03#8
/-- The status UNKNOWN (R171). -/
def statusUnknown : Byte := 0x04#8

/-- How many parameter bytes a command code takes (R169, R182). -/
def parameterCount (code : Byte) : Nat :=
  if code = 0x10#8 then 23 else if code = 0x21#8 then 1 else 0

/-- A command is taken: its reply stands in the reply copy, and the phase becomes REPLY. While the byte
that takes it is clocked, the port drives 00h (R169). -/
def LocalPort.answered (p : LocalPort) (code : Byte) (params reply : List Byte) : LocalPort :=
  { p with phase := .reply, command := some code, params := params, reply := some reply, sent := 0,
           dataOut := 0x00#8 }

/-- The reply of a command taken by its command byte. -/
def reply (s : State) (code : Byte) (bytes : List Byte) : State :=
  s.withLpt (s.lpt.answered code s.lpt.params bytes)

/-- The port stands where a command byte is awaited (R169). -/
def awaitsCommand (p : LocalPort) : Bool := p.phase == .command

/-- The port stands before the last parameter byte of a command (R169). -/
def awaitsLast (p : LocalPort) (code : Byte) : Bool :=
  p.phase == .parameters && p.command == some code && p.params.length + 1 == parameterCount code

/-- Chip select falls (R169). -/
def LocalPort.selected (p : LocalPort) : LocalPort :=
  { p with phase := .command, command := none, params := [], reply := none, sent := 0 }

/-- Chip select rises: the phase becomes IDLE from any phase, and no transaction is in progress (R169,
R170). -/
def LocalPort.deselected (p : LocalPort) : LocalPort := { p with phase := .idle, command := none }

/-- A byte clocked in REPLY: the next byte of the reply copy is sent, and after the last one the phase
becomes IGNORE (R169). -/
def LocalPort.sendNext (p : LocalPort) : LocalPort :=
  let bytes := p.reply.getD []
  { p with
    dataOut := bytes.getD p.sent 0x00#8
    sent := p.sent + 1
    phase := if bytes.length ≤ p.sent + 1 then .ignore else .reply }

/-! ## The configuration block (R172, R173, R182) -/

/-- The offset and the size of field i of the block (R182). -/
def fieldPlace : Nat → Nat × Nat
  | 1 => (2, 1) | 2 => (3, 1) | 3 => (4, 2) | 4 => (6, 2) | 5 => (8, 2) | 6 => (10, 1) | 7 => (11, 1)
  | 8 => (12, 1) | 9 => (13, 1) | 10 => (14, 1) | 11 => (15, 2) | 12 => (17, 1) | 13 => (18, 1)
  | 14 => (19, 1) | 15 => (20, 3) | _ => (0, 2)

/-- The default of field i; none for a field that must be given (R173). -/
def fieldDefault : Nat → Option Nat
  | 2 => some 0 | 4 => some 1125 | 5 => some 1080 | 6 => some 2 | 7 => some 4 | 8 => some 16
  | 9 => some 8 | 10 => some 1 | 11 => some 32 | 12 => some 30 | 13 => some 2 | 14 => some 1
  | 15 => some 2097151 | _ => none

/-- The value of field i: its bytes where its bit of the given-set is 1, otherwise its default (R172). -/
def fieldValue (block : List Byte) (i : Nat) : Option Nat :=
  if (field block 0 2).testBit (i - 1) then
    some (field block (fieldPlace i).1 (fieldPlace i).2)
  else fieldDefault i

/-- The value of field i where the checks of R173 are made on numbers; a field that is not there fails
its own check before this is read. -/
def fieldNumber (block : List Byte) (i : Nat) : Nat := (fieldValue block i).getD 0

/-- A number within a range. -/
def within (lo hi x : Nat) : Bool := decide (lo ≤ x) && decide (x ≤ hi)

/-- The check of field i (R173). -/
def fieldPasses (block : List Byte) (i : Nat) : Bool :=
  let v := fieldNumber block
  match i with
  | 0 => !(field block 0 2).testBit 15
  | 1 => (fieldValue block 1).isSome && within 0 15 (v 1)
  | 2 => within 0 3 (v 2)
  | 3 => (fieldValue block 3).isSome && (v 3).testBit (v 1)
  | 4 => within 16 4095 (v 4)
  | 5 => within 8 (v 4 - 4) (v 5)
  | 6 => within 1 4 (v 6)
  | 7 => within 1 8 (v 7)
  | 8 => within (v 7 + 3) 255 (v 8)
  | 9 => within 2 64 (v 9)
  | 10 => within 0 3 (v 10)
  | 11 => within 4 (v 4 / 4) (v 11)
  | 12 => within 4 255 (v 12)
  | 13 => within 1 4 (v 13)
  | 14 => within 0 1 (v 14)
  | 15 => decide (v 15 < 2097152)
  | _ => true

/-- The index of the first field that fails its check, in index order (R172). -/
def firstFailure (block : List Byte) : Option Nat :=
  [0, 1, 2, 3, 4, 5, 6, 7, 8, 9, 10, 11, 12, 13, 14, 15].find? fun i => !fieldPasses block i

/-- The configuration that a block which passes every check carries (R172). -/
def configOf (block : List Byte) : StationConfig :=
  let v := fieldNumber block
  { station := Fin.ofNat 16 (v 1), group := Fin.ofNat 4 (v 2), members := BitVec.ofNat 16 (v 3)
    fl := v 4, al := v 5, lead := v 6, hb := v 7, af := v 8, lf := v 9, db := v 10, snap := v 11
    stallf := v 12, it := v 13, policy := if v 14 = 0 then .fifo else .latest
    faultMask := BitVec.ofNat 21 (v 15) }

/-- LOAD_CONFIG taken with its block (R172). -/
def takeLoadConfig (s : State) (block : List Byte) : State :=
  let answer := fun (p : LocalPort) bytes => s.withLpt (p.answered 0x10#8 block bytes)
  if s.lpt.frozen then answer s.lpt [statusRefused]
  else
    match firstFailure block with
    | some i => answer s.lpt [statusBadConfig, BitVec.ofNat 8 i]
    | none => answer { s.lpt with held := some (configOf block) } [statusOk]

/-! ## START, LEAVE and RESTART (R174 to R176) -/

/-- The roster set from members, the self entry's place left at its initial value (R2, R8, R12). -/
def expectedRoster (cfg : StationConfig) : Vector RosterEntry 16 :=
  Vector.ofFn fun n : Station =>
    RosterEntry.initial (if hasStation cfg.members n && n != cfg.station then .expected else .vacant)

/-- The Roster Unit entering LISTEN at START and at RESTART (R2, R8). -/
def listening (cfg : StationConfig) : RosterUnit :=
  { self := .listen, ownJoined := none, ownAbsent := none, frameStarts := 0#32
    roster := expectedRoster cfg }

/-- The receive machine in WAIT_IDLE, IDLE at once where the line is idle already (R115, R134). -/
def BusReceiver.waitForIdle (r : BusReceiver) (line : BusLine) : BusReceiver :=
  { r.cleared (if line = .idle then .idle else .waitIdle) with timing := none }

/-- The Scan-out Unit at START: the first line period begins at once, as line 0 of a frame of FL lines
(R82). -/
def ScanOutUnit.started (u : ScanOutUnit) (fl : Nat) : ScanOutUnit :=
  { u with timer := .running, currentLine := 0, elapsed := 1, endLine := fl, frameLength := fl }

/-- START handed to every block (R174). -/
def startBlocks (s : State) : State :=
  let cfg := s.cfg
  let s := s.withLpt { s.lpt with frozen := true }
  let s := s.withRos (listening cfg)
  let s := lineBegins (s.withScn (s.scn.started cfg.fl)) true
  let s := s.withRx (s.rx.waitForIdle s.line)
  let s := s.withTx { s.tx with generator := backoffSeed cfg.station, heartbeat := 0 }
  s.withFlt (s.flt.takeMask cfg.faultMask)

/-- START is taken: in CONFIG with a held configuration, frozen being no (R2, R174). -/
def startAllowed (s : State) : Bool :=
  s.ros.self == .config && s.lpt.held.isSome && !s.lpt.frozen

/-- START taken or refused (R174). -/
def takeStart (s : State) : State :=
  if startAllowed s then reply (startBlocks s) 0x11#8 [statusOk] else reply s 0x11#8 [statusRefused]

/-- LEAVE is taken in JOINING, MEMBER and EVICTED (R175). -/
def leaveAllowed : SelfState → Bool
  | .joining | .member | .evicted => true
  | .config | .listen | .leaving | .detached => false

/-- Entry to LEAVING: the standing LEAVE is placed at the head of the queue (R6, R151). -/
def leaveBlocks (s : State) : State :=
  (s.withRos { s.ros with self := .leaving }).withTx s.tx.placeLeave

/-- LEAVE taken or refused (R175). -/
def takeLeaveCommand (s : State) : State :=
  if leaveAllowed s.ros.self then reply (leaveBlocks s) 0x12#8 [statusOk]
  else reply s 0x12#8 [statusRefused]

/-- The Timing Unit at RESTART; the line-start count keeps running (R112). -/
def TimingUnit.restarted (t : TimingUnit) : TimingUnit :=
  { t with count := 0#32, countState := .unset, realignPending := false
           realignNumber := t.realignNumber + 1, lastMedian := 0 }

/-- The Scan-out Unit at RESTART: the timer runs on with the frame in progress, and a pending request is
dropped (R89, R92, R94). A request that reaches it after RESTART is not there yet (`Arrivals.request`). -/
def ScanOutUnit.restarted (u : ScanOutUnit) : ScanOutUnit :=
  { u.abandonWrites with realign := none, swapThisFrame := false, swapLine := false }

/-- The transmit side at RESTART: cut off and emptied, the generator seeded again, the transmit
sequence kept (R153). -/
def BusTransmitter.restarted (t : BusTransmitter) (n : Station) : BusTransmitter :=
  { t.stop with heartbeat := 0, generator := backoffSeed n }

/-- RESTART handed to every block, the Agreement Unit before the Buffer Manager and the Timing Unit
(R176). -/
def restartBlocks (s : State) : State :=
  let s := emptySchedule (s.withRos (listening s.cfg))
  let s := s.withAgr { s.agr with stallCount := 0, stallRaised := false }
  let s := s.withBuf .initial
  let s := s.withCap .initial
  let s := s.withScn s.scn.restarted
  let s := s.withTim s.tim.restarted
  let s := s.withRx (s.rx.waitForIdle s.line)
  s.withTx (s.tx.restarted s.cfg.station)

/-- RESTART taken in every state but CONFIG, or refused (R176). -/
def takeRestart (s : State) : State :=
  if s.ros.self = .config then reply s 0x13#8 [statusRefused]
  else reply (restartBlocks s) 0x13#8 [statusOk]

/-! ## Reads (R177 to R180, R183) -/

/-- The code of a self state (R183). -/
def SelfState.code : SelfState → Nat
  | .config => 0 | .listen => 1 | .joining => 2 | .member => 3 | .evicted => 4 | .leaving => 5
  | .detached => 6

/-- The code of an entry state (R183). -/
def EntryState.code : EntryState → Nat
  | .vacant => 0 | .expected => 1 | .joining => 2 | .voter => 3 | .quiet => 4 | .absent => 5

/-- The code of an absence cause (R183). -/
def AbsenceCause.code : AbsenceCause → Nat
  | .none => 0 | .silence => 1 | .left => 2

/-- The reply of READ_STATE (R178, R183), the copies of all blocks taken in one step (DESIGN CHOICE, log
entry 29). -/
def readStateReply (s : State) : List Byte :=
  let configured := s.ros.self != .config
  let present := flagBits [s.buf.shownTag.isSome, s.ros.ownJoined.isSome, s.ros.ownAbsent.isSome]
  let ready := s.buf.readyList
  [statusOk] ++ bytesOf 1 s.ros.self.code ++ bytesOf 1 present ++ bytesOf 4 s.tim.count.toNat ++
    tagBytes s.buf.shownTag ++ countBytes s.buf.shownSince ++ countBytes s.ros.ownJoined ++
    countBytes s.ros.ownAbsent ++ bytesOf 2 (if configured then s.scn.frameLength else 0) ++
    signedBytes (if configured then s.tim.lastMedian else 0) ++ bytesOf 1 ready.length ++
    pairBytes ready

/-- The reply of READ_MEMBER for a station number 0..15 (R179, R183), the copies of all blocks taken in
one step (DESIGN CHOICE, log entry 29). -/
def readMemberReply (s : State) (n : Station) : List Byte :=
  let e := readEntry s n
  let provisional := provisionalAbsent s.cfg e
  let present := flagBits
    [e.joinedAt.isSome, e.absentFrom.isSome, provisional.isSome, e.lastStamp.isSome,
      e.lastFrame.isSome, e.lastSeq.isSome, e.shownTag.isSome, e.offset.isSome]
  [statusOk] ++ bytesOf 1 n.val ++ bytesOf 1 e.state.code ++ bytesOf 1 e.cause.code ++
    bytesOf 1 (flagBits [e.clash, blockingFlag s n]) ++ bytesOf 2 present ++ countBytes e.joinedAt ++
    countBytes e.absentFrom ++ countBytes provisional ++ countBytes e.lastStamp ++
    countBytes e.lastFrame ++ bytesOf 1 (e.lastSeq.getD 0#8).toNat ++ tagBytes e.shownTag ++
    countBytes e.shownSince ++ bytesOf 2 e.view.toNat ++ signedBytes (e.offset.getD 0) ++
    bytesOf 1 e.age ++ bytesOf 1 e.holdings.length ++ pairBytes e.holdings ++ [0x00#8]

/-- READ_MEMBER taken with its parameter; an n of 16..255 is refused (R179). -/
def takeReadMember (s : State) (n : Byte) : State :=
  let bytes :=
    if h : n.toNat < 16 then readMemberReply s ⟨n.toNat, h⟩ else [statusRefused]
  s.withLpt (s.lpt.answered 0x21#8 [n] bytes)

/-- The reply of READ_SCHEDULE (R48, R183). -/
def readScheduleReply (s : State) : List Byte :=
  [statusOk] ++ bytesOf 1 s.agr.schedule.length ++
    s.agr.schedule.flatMap fun e => bytesOf 2 e.tag.toNat ++ bytesOf 4 e.time.toNat

/-- The reply of READ_FAULTS: the summary and the fault counters as they stand (R160, R183). -/
def readFaultsReply (f : FaultUnit) : List Byte :=
  [statusOk] ++ bytesOf 3 f.summary.toNat ++ f.faultCounters.toList.flatMap (bytesOf 1)

/-- READ_FAULTS taken: the copy, then the summary is emptied (R160). -/
def takeReadFaults (s : State) : State :=
  (reply s 0x23#8 (readFaultsReply s.flt)).withFlt s.flt.emptySummary

/-- The reply of READ_COUNTERS (R164, R183). -/
def readCountersReply (f : FaultUnit) : List Byte :=
  [statusOk] ++ f.eventCounters.toList.flatMap (bytesOf 2)

/-- CLEAR_COUNTERS taken (R162). -/
def takeClearCounters (s : State) : State :=
  (reply s 0x25#8 [statusOk]).withFlt s.flt.clearCounters

/-- A command byte that is no command code: taken at once, with the reply UNKNOWN alone (R169, R171). The
item command of R168, "a command code, or none" and "the command byte of the transaction in progress", holds
that byte (DESIGN CHOICE, log entry 35). -/
def takeUnknown (s : State) (code : Byte) : State := reply s code [statusUnknown]

/-! ## A byte at the port (R169) -/

/-- A command byte received in COMMAND (R169, R182). -/
def takeCommandByte (s : State) (code : Byte) : State :=
  if 0 < parameterCount code then
    s.withLpt { s.lpt with phase := .parameters, command := some code, dataOut := 0x00#8 }
  else if code = 0x11#8 then takeStart s
  else if code = 0x12#8 then takeLeaveCommand s
  else if code = 0x13#8 then takeRestart s
  else if code = 0x20#8 then reply s code (readStateReply s)
  else if code = 0x22#8 then reply s code (readScheduleReply s)
  else if code = 0x23#8 then takeReadFaults s
  else if code = 0x24#8 then reply s code (readCountersReply s.flt)
  else if code = 0x25#8 then takeClearCounters s
  else takeUnknown s code

/-- A parameter byte received in PARAMETERS: the last one takes the command (R169). -/
def takeParameterByte (s : State) (b : Byte) : State :=
  if awaitsLast s.lpt 0x10#8 then takeLoadConfig s (s.lpt.params ++ [b])
  else if awaitsLast s.lpt 0x21#8 then takeReadMember s b
  else s.withLpt { s.lpt with params := s.lpt.params ++ [b], dataOut := 0x00#8 }

/-- A byte clocked at the SPI port, in each phase (R169). -/
def clockByte (s : State) (b : Byte) : State :=
  match s.lpt.phase with
  | .idle => s
  | .command => takeCommandByte s b
  | .parameters => takeParameterByte s b
  | .reply => s.withLpt s.lpt.sendNext
  | .ignore => s.withLpt { s.lpt with dataOut := 0x00#8 }

end Sys2Proof.Machine
end

