-- ==== Sys2Proof/Machine/BusCommands.lean ====
section
/-! DEFINITION. The meanings of the tile bus events, on the receive side and on the transmit side. -/

namespace Sys2Proof.Machine

/-- LINE_BUSY (R116, R144). While the RESET line is held only the bus itself changes. -/
def execLineBusy (s : State) : Host.Outcome State Fault Refusal :=
  if s.resetHeld then .next (s.withLine .busy) else afterArrivals s lineLeavesIdle

/-- BURST_END (R115, R121). While the RESET line is held only the bus itself changes. -/
def execBurstEnd (burst : Burst) (s : State) : Host.Outcome State Fault Refusal :=
  if s.resetHeld then .next (s.withLine .idle)
  else afterArrivals s (burstEnds Config.handoffChoice · burst)

/-- GAP_REACHED (R144). What a message accepted just before has handed on is taken behind the transmit
start. -/
def execGapReached (s : State) : Host.Outcome State Fault Refusal :=
  unlessReset s fun s => arriveUnlessSending Config.handoffChoice (gapReached s)

/-- BACKOFF_SLOT_END (R144), with what is on its way taken behind it, as at GAP_REACHED. -/
def execBackoffSlotEnd (s : State) : Host.Outcome State Fault Refusal :=
  unlessReset s fun s => arriveUnlessSending Config.handoffChoice (slotEnd s)

/-- TRANSMISSION_COMPLETE (R146). -/
def execTransmissionComplete (s : State) : Host.Outcome State Fault Refusal :=
  afterArrivals s transmissionCompleted

/-- COLLISION (R147). What is on its way is taken before it, and finds the entry in flight, or behind it, and
finds an entry that waits for the end of the jam (R128, R130, R131). -/
def execCollision (s : State) : Host.Outcome State Fault Refusal :=
  unlessReset s (eitherSide Config.handoffChoice collisionSeen)

/-- JAM_END (R147). -/
def execJamEnd (s : State) : Host.Outcome State Fault Refusal := afterArrivals s jamEnded

end Sys2Proof.Machine
end

