-- ==== Sys2Proof/Machine/InputCommands.lean ====
section
/-! DEFINITION. The meanings of the video input's events, of the capture timeout, and of the transfers
that complete at the frame memory port. -/

namespace Sys2Proof.Machine

/-- An input event: CAP acts on it in JOINING, MEMBER, EVICTED and LEAVING only (R69). -/
def onInput (s : State) (take : State → State) : Host.Outcome State Fault Refusal :=
  afterArrivals s fun s => if s.ros.self.active then take s else s

/-- BEGIN_MARKER (R70, R74, R75). -/
def execBeginMarker (tag : Tag) (s : State) : Host.Outcome State Fault Refusal :=
  onInput s (takeBegin · tag)

/-- INPUT_LINE (R71, R75). -/
def execInputLine (data : LineData) (s : State) : Host.Outcome State Fault Refusal :=
  onInput s (takeLine · data)

/-- END_MARKER (R73, R75). -/
def execEndMarker (s : State) : Host.Outcome State Fault Refusal := onInput s takeEnd

/-- CAPTURE_TIMEOUT (R76). -/
def execCaptureTimeout (s : State) : Host.Outcome State Fault Refusal := afterArrivals s takeTimeout

/-- What follows a capture write that has landed: a waiting abort is reported, a completion that is due
is reported and its buffer released, or the next write is requested. Where a begin is held, the
completion's occasion of evaluation and the release reach AGR and BUF in no given order (R39, R57, R61,
R72). -/
def afterWrite (choose : Nat → Nat) (s : State) : State :=
  match s.cap.aborting with
  | some r => reportAbort s r
  | none =>
    if completionDue s.cap then
      let s := reportCompleteFrame s
      if s.cap.held.isSome then settleWith choose [.occasion, .captureRelease] s
      else afterRelease (evaluate s) .idle
    else requestNextWrite s

/-- A capture write that completes (R71, R91); one that RESTART abandoned has no further effect at the
Capture Unit (R78). -/
def captureWriteCompleted (choose : Nat → Nat) (s : State) (w : LineWrite) : State :=
  let s' := writeLanded s w
  if w.abandoned then requestNextWrite s' else afterWrite choose s'

/-- CAPTURE_WRITE_COMPLETE (R91): the write in progress at the port completes. -/
def execCaptureWriteComplete (s : State) : Host.Outcome State Fault Refusal :=
  match s.resetHeld, s.scn.port with
  | true, _ => .next s
  | false, .write w =>
    if slotExists s w.addr then
      afterArrivals s (captureWriteCompleted Config.handoffChoice · w)
    else .fault (.noSuchSlot w.addr)
  | false, .idle | false, .read _ => afterArrivals s id

/-- SCAN_OUT_READ_COMPLETE (R91): the read in progress at the port completes. -/
def execScanOutReadComplete (s : State) : Host.Outcome State Fault Refusal :=
  match s.resetHeld, s.scn.port with
  | true, _ => .next s
  | false, .read a =>
    if slotExists s a then afterArrivals s (readDelivered · a) else .fault (.noSuchSlot a)
  | false, .idle | false, .write _ => afterArrivals s id

end Sys2Proof.Machine
end

