-- ==== Sys2Proof/Machine/PortCommands.lean ====
section
/-! DEFINITION. The meanings of the local port's commands. A command is taken where the transaction
stands before the byte that takes it (R169); elsewhere that byte takes no command, and the row's event
does not occur (log entry 2). -/

namespace Sys2Proof.Machine

/-- A command taken by its command byte, in the phase COMMAND (R169). -/
def onCommandByte (s : State) (take : State → State) : Host.Outcome State Fault Refusal :=
  afterArrivals s fun s => if awaitsCommand s.lpt then take s else s

/-- CHIP_SELECT_FALLS (R169). -/
def execChipSelectFalls (s : State) : Host.Outcome State Fault Refusal :=
  afterArrivals s fun s => s.withLpt s.lpt.selected

/-- CHIP_SELECT_RISES (R169, R170): the effect of a command already taken stands. -/
def execChipSelectRises (s : State) : Host.Outcome State Fault Refusal :=
  afterArrivals s fun s => s.withLpt s.lpt.deselected

/-- LOAD_CONFIG (R172), taken with its 23rd parameter byte. -/
def execLoadConfig (last : Byte) (s : State) : Host.Outcome State Fault Refusal :=
  afterArrivals s fun s =>
    if awaitsLast s.lpt 0x10#8 then takeLoadConfig s (s.lpt.params ++ [last]) else s

/-- START (R174). -/
def execStart (s : State) : Host.Outcome State Fault Refusal := onCommandByte s takeStart

/-- LEAVE (R175). -/
def execLeave (s : State) : Host.Outcome State Fault Refusal := onCommandByte s takeLeaveCommand

/-- RESTART (R112, R176). -/
def execRestart (s : State) : Host.Outcome State Fault Refusal :=
  unlessReset s (aroundRestart Config.handoffChoice fun s =>
    if awaitsCommand s.lpt then takeRestart s else s)

/-- READ_STATE (R178). -/
def execReadState (s : State) : Host.Outcome State Fault Refusal :=
  onCommandByte s fun s => reply s 0x20#8 (readStateReply s)

/-- READ_MEMBER (R179), taken with its parameter byte. -/
def execReadMember (n : Byte) (s : State) : Host.Outcome State Fault Refusal :=
  afterArrivals s fun s => if awaitsLast s.lpt 0x21#8 then takeReadMember s n else s

/-- READ_SCHEDULE (R48). -/
def execReadSchedule (s : State) : Host.Outcome State Fault Refusal :=
  onCommandByte s fun s => reply s 0x22#8 (readScheduleReply s)

/-- READ_FAULTS (R160), after or before all raises of another command (DESIGN CHOICE, log entry 33). -/
def execReadFaults (s : State) : Host.Outcome State Fault Refusal := onCommandByte s takeReadFaults

/-- READ_COUNTERS (R164), after or before all counts of another command (DESIGN CHOICE, log entry 33). -/
def execReadCounters (s : State) : Host.Outcome State Fault Refusal :=
  onCommandByte s fun s => reply s 0x24#8 (readCountersReply s.flt)

/-- CLEAR_COUNTERS (R162), after or before all raises of another command (DESIGN CHOICE, log entry 33). -/
def execClearCounters (s : State) : Host.Outcome State Fault Refusal :=
  onCommandByte s takeClearCounters

/-- UNKNOWN_COMMAND (R171): for a byte that is no command code. -/
def execUnknownCommand (code : Byte) (s : State) : Host.Outcome State Fault Refusal :=
  onCommandByte s fun s => if commandCodes.contains code then s else takeUnknown s code

/-- BYTE_CLOCKED (R169): a byte at the SPI port in whatever phase. A byte that takes a command acts as
that command's own row does. -/
def execByteClocked (byte : Byte) (s : State) : Host.Outcome State Fault Refusal :=
  if awaitsCommand s.lpt = true ∧ byte = 0x13#8 then
    unlessReset s (aroundRestart Config.handoffChoice (clockByte · byte))
  else afterArrivals s (clockByte · byte)

end Sys2Proof.Machine
end

