-- ==== Sys2Proof/Machine/ResetCommands.lean ====
section
/-! DEFINITION. The meanings of the RESET line's two commands. -/

namespace Sys2Proof.Machine

/-- Every block at its hard-reset values and the RESET line held. What is no block's state stays: the
commands that wait, the bus of which the part releases its driver, and frame memory, whose content no
rule clears (R9, R23, R66, R68, R81, R95, R96, R134, R154, R167, R181). -/
def hardReset (s : State) : State :=
  { State.reset with
    pending := s.pending, resetHeld := true, choices := s.choices, line := s.line, mem := s.mem }

/-- HARD_RESET (R9): taken in any state. -/
def execHardReset (s : State) : Host.Outcome State Fault Refusal := .next (hardReset s)

/-- RESET_RELEASED (R95): the part leaves hard reset in its hard-reset values. -/
def execResetReleased (s : State) : Host.Outcome State Fault Refusal := .next (s.withResetHeld false)

end Sys2Proof.Machine
end

