-- ==== Sys2Proof/Machine/TimerCommands.lean ====
section
/-! DEFINITION. The meanings of the line timer's commands. -/

namespace Sys2Proof.Machine

/-- LINE_START (R82): a line period of the running timer ends; the line start that comes may be a frame
start. -/
def execLineStart (s : State) : Host.Outcome State Fault Refusal :=
  unlessReset s fun s =>
    placeRequest (lineStartWith Config.handoffChoice (beforeLineStart Config.handoffChoice s))

/-- FRAME_START (R87): a line period that ends the frame ends; elsewhere no frame start occurs. -/
def execFrameStart (s : State) : Host.Outcome State Fault Refusal :=
  unlessReset s fun s =>
    placeRequest (frameStartIfDue Config.handoffChoice (beforeLineStart Config.handoffChoice s))

end Sys2Proof.Machine
end

