-- ==== Sys2Proof/Machine/Dispatch.lean ====
section
/-! DEFINITION. One arm per command, each one direct call of its meaning. -/

namespace Sys2Proof.Machine

/-- The effect of a command on everything but the queue of waiting commands. -/
def exec (i : Instr) (s : State) : Host.Outcome State Fault Refusal :=
  match i with
  | .hardReset => Sys2Proof.Machine.execHardReset s
  | .chipSelectFalls => Sys2Proof.Machine.execChipSelectFalls s
  | .chipSelectRises => Sys2Proof.Machine.execChipSelectRises s
  | .loadConfig last => Sys2Proof.Machine.execLoadConfig last s
  | .start => Sys2Proof.Machine.execStart s
  | .leave => Sys2Proof.Machine.execLeave s
  | .restart => Sys2Proof.Machine.execRestart s
  | .readState => Sys2Proof.Machine.execReadState s
  | .readMember n => Sys2Proof.Machine.execReadMember n s
  | .readSchedule => Sys2Proof.Machine.execReadSchedule s
  | .readFaults => Sys2Proof.Machine.execReadFaults s
  | .readCounters => Sys2Proof.Machine.execReadCounters s
  | .clearCounters => Sys2Proof.Machine.execClearCounters s
  | .unknownCommand code => Sys2Proof.Machine.execUnknownCommand code s
  | .lineStart => Sys2Proof.Machine.execLineStart s
  | .frameStart => Sys2Proof.Machine.execFrameStart s
  | .beginMarker tag => Sys2Proof.Machine.execBeginMarker tag s
  | .inputLine data => Sys2Proof.Machine.execInputLine data s
  | .endMarker => Sys2Proof.Machine.execEndMarker s
  | .captureTimeout => Sys2Proof.Machine.execCaptureTimeout s
  | .captureWriteComplete => Sys2Proof.Machine.execCaptureWriteComplete s
  | .scanOutReadComplete => Sys2Proof.Machine.execScanOutReadComplete s
  | .lineBusy => Sys2Proof.Machine.execLineBusy s
  | .burstEnd burst => Sys2Proof.Machine.execBurstEnd burst s
  | .gapReached => Sys2Proof.Machine.execGapReached s
  | .backoffSlotEnd => Sys2Proof.Machine.execBackoffSlotEnd s
  | .transmissionComplete => Sys2Proof.Machine.execTransmissionComplete s
  | .collision => Sys2Proof.Machine.execCollision s
  | .jamEnd => Sys2Proof.Machine.execJamEnd s
  | .byteClocked byte => Sys2Proof.Machine.execByteClocked byte s
  | .resetReleased => Sys2Proof.Machine.execResetReleased s

end Sys2Proof.Machine
end

