-- ==== Sys2Proof/Safety.lean ====
section
/-! DEFINITION. What is a safe state and a safe step, and the laws of the state that the manual gives
for the whole machine: a configuration held is valid (R173), the frame memory port addresses line slots
that exist (R56), the buffer pool, its lists and the swap schedule agree (R23, R33, R49 to R51), the outbound
queue keeps its bounds (R139, R143), the FAULT line follows the summary (R159), and stations outside
members stay VACANT (R10). -/

namespace Sys2Proof.Machine

/-! ## The configuration (R173) -/

/-- Every field of a configuration passes its check (R173). -/
def validConfig (c : StationConfig) : Bool :=
  hasStation c.members c.station && within 16 4095 c.fl && within 8 (c.fl - 4) c.al &&
    within 1 4 c.lead && within 1 8 c.hb && within (c.hb + 3) 255 c.af && within 2 64 c.lf &&
    within 0 3 c.db && within 4 (c.fl / 4) c.snap && within 4 255 c.stallf && within 1 4 c.it

/-! ## The frame memory port (R56, R91) -/

/-- The slot of the transfer in progress and those of the requests that wait exist (R56). -/
def portSafe (s : State) : Bool :=
  (match s.scn.port with
    | .idle => true
    | .read a => slotExists s a
    | .write w => slotExists s w.addr) &&
  s.scn.readWaiting.all (slotExists s) && s.scn.writeWaiting.all (fun w => slotExists s w.addr)

/-- Before START the timer stands, the port is idle, and the Capture Unit is empty (R68, R81). -/
def quietBeforeStart (s : State) : Bool :=
  s.scn.timer == .stopped && s.scn.port == .idle && s.scn.readWaiting.isNone &&
    s.scn.writeWaiting.isNone && s.cap.state == .idle && s.cap.fifo.isEmpty && s.cap.held.isNone

/-- The number of lines of the held frame in the FIFO. -/
def heldLines (fifo : List FifoLine) : Nat := (fifo.filter fun l => l.owner == .held).length

/-- A capture write is in progress or waits at the port. -/
def writePending (s : State) : Bool := s.scn.writing || s.scn.writeWaiting.isSome

/-- The line FIFO and the port agree (R68, R71, R72, R74): every line goes to a slot that exists; a begin
is held only while the release of a frame is awaited; the held count is the number of held lines; one
write at a time is in progress or waits, and unless an abort waits for it, it writes the head line, of
the frame in FILLING. -/
def captureLaw (s : State) : Bool :=
  s.cap.fifo.all (fun l => decide (l.slot < s.cfg.al)) &&
  s.cap.held.all (fun h => h.received == heldLines s.cap.fifo) &&
  (s.cap.state == .filling || s.cap.aborting.isNone) &&
  (s.cap.held.isNone || (s.cap.state == .filling && (s.cap.closing || s.cap.aborting.isSome))) &&
  !(s.scn.writing && s.scn.writeWaiting.isSome) &&
  (s.cap.aborting.isNone || s.scn.writeWaiting.isNone) &&
  (s.cap.aborting.isSome || !writePending s ||
    (s.cap.state == .filling && s.cap.fifo.head?.any fun l => l.owner == .current))

/-- The data path is safe: a held configuration is valid, frozen is yes in every state but CONFIG and
then a configuration is held (R174), nothing moves before START, and every transfer has its slot. -/
def dataPathSafe (s : State) : Bool :=
  s.lpt.held.all validConfig && (s.lpt.frozen == (s.ros.self != .config)) &&
  (s.lpt.held.isSome || !s.lpt.frozen) && (s.lpt.frozen || quietBeforeStart s) && portSafe s &&
  captureLaw s

/-- An outcome goes on. -/
def goesOn (o : Host.Outcome State Fault Refusal) : Bool :=
  match o with
  | .next _ => true
  | .fault _ => false
  | .refused _ => false

/-! ## The buffer pool (R49 to R51) -/

/-- One record fits its state (R49); its line count is `lineCountLaw`. -/
def recordLaw (r : BufferRecord) : Bool :=
  match r.state with
  | .free => r == .free
  | .filling => r.tag.isSome && r.readyStamp.isNone && !r.pinned
  | .ready => r.tag.isSome && r.readyStamp.isSome
  | .showing => r.tag.isSome && r.readyStamp.isNone && !r.pinned

/-- How many records are in a state. -/
def BufferManager.countIn (b : BufferManager) (st : BufferState) : Nat :=
  (bufferIds.filter fun i => b.records[i].state == st).length

/-- The tags of the pool are in order (R50): the own ready list ascends strictly, every tag in it is
newer than the own shown tag, and the tag being captured is newer than all of these (R70). -/
def orderLaw (b : BufferManager) : Bool :=
  tagsAscend b.readyList &&
  b.readyList.all (fun p => b.shownTag.all fun shown => isNewer p.tag shown) &&
  (match b.find .filling with
    | some i => b.records[i].tag.all b.newerThanHeld
    | none => true)

/-- The tags of the pool: the shown tag, the ready tags and the tag being captured. -/
def poolTags (b : BufferManager) : List Tag :=
  b.heldTags ++ ((b.find .filling).bind fun i => b.records[i].tag).toList

/-- Tags all lie within a quarter of the tag range of one another, so that they have one order. -/
def tagsNear (tags : List Tag) : Bool :=
  tags.all fun x => tags.all fun y => decide ((x - y).toNat < 16384) || decide ((y - x).toNat < 16384)

/-- The pool, the own ready list and the shown tag agree (R49 to R51): each record fits its state, at
most one is FILLING and at most one SHOWING, the own ready list holds exactly the READY buffers, each
once and at most 3, leaving room for one that is FILLING, and the shown tag is the SHOWING buffer's. The
order of the tags is `orderLaw`. -/
def poolLaw (b : BufferManager) : Bool :=
  bufferIds.all (fun i => recordLaw b.records[i]) &&
  decide (b.countIn .filling ≤ 1) && decide (b.countIn .showing ≤ 1) &&
  decide b.ready.Nodup && bufferIds.all (fun i => b.ready.contains i == (b.records[i].state == .ready)) &&
  decide (b.ready.length + b.countIn .filling ≤ 3) &&
  (match b.find .showing with
    | some i => b.shownTag == b.records[i].tag && b.shownSince.isSome
    | none => b.shownTag.isNone && b.shownSince.isNone)

/-- The number of lines of the frame in FILLING that wait in the FIFO. -/
def currentLines (fifo : List FifoLine) : Nat := (fifo.filter fun l => l.owner == .current).length

/-- The line counts of the records and the lines of the capture agree (R49, R56, R68, R71, R72): a READY and a
SHOWING buffer hold AL lines and one that is FILLING at most AL; the FIFO holds at most four lines, none
outside FILLING, none of a held frame where none is held and none of a frame that is being aborted; until the
frame in FILLING is aborted its line count and its lines in the FIFO are the lines received, at most AL, and
AL once it is closing; before START every buffer is FREE. -/
def lineCountLaw (s : State) : Bool :=
  bufferIds.all (fun i =>
    let r := s.buf.records[i]
    match r.state with
    | .free => r.lineCount == 0
    | .filling => decide (r.lineCount ≤ s.cfg.al)
    | .ready | .showing => r.lineCount == s.cfg.al) &&
  (s.lpt.frozen || bufferIds.all fun i => s.buf.records[i].state == .free) &&
  decide (s.cap.fifo.length ≤ 4) && (s.cap.state == .filling || s.cap.fifo.isEmpty) &&
  (s.cap.held.isSome || heldLines s.cap.fifo == 0) &&
  (s.cap.aborting.isNone || currentLines s.cap.fifo == 0) &&
  (s.cap.state != .filling || s.cap.aborting.isSome ||
    ((s.buf.find .filling).any fun i =>
        s.buf.records[i].lineCount + currentLines s.cap.fifo == s.cap.received) &&
      decide (s.cap.received ≤ s.cfg.al) && (!s.cap.closing || s.cap.received == s.cfg.al))

/-! ## The swap schedule (R23, R33) -/

/-- The schedule and the pool agree (R23): the tags scheduled are tags of the own ready list, in its
order, and a READY buffer is pinned exactly while its tag is scheduled. -/
def scheduleLaw (s : State) : Bool :=
  (s.agr.schedule.map (·.tag)).isSublist (s.buf.readyList.map (·.tag)) &&
  bufferIds.all fun i =>
    s.buf.records[i].state != .ready ||
      (s.buf.records[i].pinned ==
        s.buf.records[i].tag.any fun tag => s.agr.schedule.any fun e => e.tag == tag)

/-- The swap times ascend strictly and every one is after the count (R23, R33): the distances from the
count rise, none is 0, and none passes LEAD by more than FIFO's one frame for each entry before it. -/
def swapTimesLaw (c : StationConfig) (now : Count) (schedule : List ScheduleEntry) : Bool :=
  let ahead := schedule.map fun e => (e.time - now).toNat
  decide (ahead.Pairwise (· < ·)) &&
  ahead.zipIdx.all fun d =>
    decide (1 ≤ d.1) && decide (d.1 ≤ c.lead + if c.policy = .fifo then d.2 else 0)

/-- A count lies within 2^28 of another, on either side. -/
def countNear (now c : Count) : Bool :=
  decide ((c - now).toNat < 268435456) || decide ((now - c).toNat < 268435456)

/-- Every count that completion reads (R27) lies near the group frame count. -/
def countsNear (s : State) : Bool :=
  let near := countNear s.tim.count
  s.ros.ownJoined.all near && s.ros.ownAbsent.all near &&
  s.buf.readyList.all (near ·.stamp) &&
  stations.all fun n =>
    let e := s.ros.entry n
    e.joinedAt.all near && e.absentFrom.all near && e.shownSince.all near && e.holdings.all (near ·.stamp)

/-- A forward jump still on its way is not behind the count of a frame start that comes before it: the group
position that the Timing Unit claims there, one line start later, is not before the next count (R102, R103,
R105). -/
def lateJumpAhead (s : State) : Bool :=
  s.arriving.timing.all fun x =>
    timingUse s.tim x.2 x.1.stamp != .jump ||
      notBefore (groupPosition s.cfg.fl x.1.stamp x.1.phase x.2.lineStarts (s.tim.lineStarts + 2#32)).1
        (s.tim.count + 1#32)

/-! ## The outbound queue and the transmit machine (R128, R139, R143) -/

/-- The targets of the REPEAT entries of a queue. -/
def repeatTargets (queue : List QueueEntry) : List Station :=
  queue.filterMap fun e => match e.cls with
    | .standing => none
    | .repeatTo target _ => some target

/-- The outbound queue and the transmit machine agree (R128, R139, R143): at most one STANDING entry, at
most 7 REPEAT entries with distinct targets, entries only in JOINING, MEMBER, EVICTED and LEAVING; no
entry has met more than 11 collisions, 12 while the jam of the twelfth lasts; TX_IDLE is the state of an
empty queue, and the machine waits or sends with an entry. -/
def queueLaw (s : State) : Bool :=
  let t := s.tx
  decide ((t.queue.filter (·.isStanding)).length ≤ 1) && decide (repeatTargets t.queue).Nodup &&
  decide ((repeatTargets t.queue).length ≤ 7) && (t.queue.isEmpty || s.ros.self.active) &&
  t.queue.all (fun e => decide (e.collisions ≤ 11) ||
    (t.state == .jamming && t.jamEntry == some e.cls && decide (e.collisions ≤ 12))) &&
  (match t.state with
    | .txIdle => t.queue.isEmpty
    | .waitGap | .backoff | .sending => !t.queue.isEmpty
    | .jamming => true) &&
  (t.inFlight.isSome == (t.state == .sending)) && (t.jamEntry.isNone || t.state == .jamming) &&
  (!t.slotRunning || t.state == .backoff) &&
  decide (t.backoffCount ≤ 63) &&
  ((t.state != .txIdle && t.state != .sending && t.state != .jamming) || t.backoffCount == 0)

/-! ## Faults and the roster -/

/-- The FAULT line is asserted exactly when the summary shares a kind with the mask in effect (R159). -/
def faultLineLaw (f : FaultUnit) : Bool := f.faultLine == faultLevel f.summary f.mask

/-- From START on, an entry whose station number is not in members is VACANT with every field at its
initial value (R10), and a message on its way comes from a member (R123). -/
def strangersVacant (s : State) : Bool :=
  !s.lpt.frozen ||
    ((stations.all fun n => hasStation s.cfg.members n || s.ros.entry n == RosterEntry.initial .vacant) &&
      s.arriving.roster.all (fun m => hasStation s.cfg.members m.sender) &&
      s.arriving.timing.all fun x => hasStation s.cfg.members x.1.sender)

end Sys2Proof.Machine
end

