-- ==== Sys2Proof/Certificates/Slice0/Obligations.lean ====
section
/-! DEFINITION. The statements for the provers, in the order of OBLIGATIONS.json. A command's result is
stated as the whole next state where that state has a closed form, so that the statement is the command's
frame too; where a free value takes an order, the statement says what holds for every order. -/

open Sys2Proof Sys2Proof.Machine

/-- The RESET line is released and nothing is on its way between blocks, so that a command finds the state
as it stands. Where something is on its way, it is taken first (`Obligations.ArrivalsAreTakenFirst`). -/
abbrev settled (s : State) : Prop := s.resetHeld = false ∧ s.arriving = .nothing

/-! ## The step, reset, and the laws every step keeps -/

/-- The step runs the command at the front of the queue on the state with the queue's rest; on an empty
queue the block idles, which is the model's choice (log entry 20). -/
def Obligations.StepRunsFrontCommand : Prop :=
  (∀ (c : Instr) (rest : List Instr) (s : State),
    step (s.withPending (c :: rest)) = exec c (s.withPending rest)) ∧
  (∀ s : State, s.pending = [] → step s = .next s)

/-- HARD_RESET returns every block to its hard-reset values (R9, R23, R66, R68, R81, R96, R115, R154,
R167, R181); RESET_RELEASED lets go of the RESET line and changes nothing else, so that the part leaves hard
reset in its hard-reset values (R95); while the line is held, no command but the reset's own and the tile
bus's line events reaches the part (10.8; the model's reading is log entry 14). The end line and the frame
length of a stopped timer are the model's (log entry 3), as is what stays: the bus line and frame memory's
content (log entry 6), the waiting commands and the free-choice counter. -/
def Obligations.HardResetReturnsEveryBlock : Prop :=
  (∀ s : State, exec .hardReset s = .next
    { pending := s.pending, resetHeld := true, choices := s.choices, line := s.line, mem := s.mem
      ros := { self := .config, ownJoined := none, ownAbsent := none, frameStarts := 0#32
               roster := Vector.replicate 16 (RosterEntry.initial .vacant) }
      agr := { schedule := [], stallCount := 0, stallRaised := false }
      buf := { records := Vector.replicate 4 .free, ready := [], shownTag := none, shownSince := none }
      cap := { state := .idle, closing := false, tag := none, buffer := none, received := 0
               timeout := 0, fifo := [], held := none, discardAfterRelease := false, aborting := none }
      scn := { timer := .stopped, currentLine := 0, elapsed := 1, endLine := 0, frameLength := 0
               realign := none, swapThisFrame := false, swapLine := false, port := .idle
               readWaiting := none, writeWaiting := none, panel := none }
      tim := { count := 0#32, countState := .unset, lineStarts := 0#32, realignNumber := 0#8
               realignPending := false, lastMedian := 0 }
      rx := { state := .off, bytes := [], overlong := false, trailingBits := false
              invalidSymbol := false, timing := none }
      tx := { queue := [], seq := 0#8, heartbeat := 0, state := .txIdle, backoffCount := 0
              generator := 0#16, slotRunning := false, inFlight := none, jamEntry := none }
      arriving := { roster := none, timing := none, claims := [], request := none }
      flt := { summary := 0#21, faultCounters := Vector.replicate 21 0
               eventCounters := Vector.replicate 8 0, mask := 0#21, faultLine := false }
      lpt := { held := none, frozen := false, phase := .idle, command := none, params := []
               reply := none, sent := 0, dataOut := 0#8 } }) ∧
  (∀ s : State, exec .resetReleased s = .next { s with resetHeld := false }) ∧
  ∀ (c : Instr) (s : State), s.resetHeld = true →
    match c with
    | .hardReset | .resetReleased => True
    | .lineBusy => exec c s = .next { s with line := .busy }
    | .burstEnd _ => exec c s = .next { s with line := .idle }
    | _ => exec c s = .next s

/-- The state after reset meets every law that a step keeps. -/
def Obligations.ResetMeetsTheLaws : Prop :=
  faultLineLaw State.reset.flt = true ∧ FrameMemory.wf State.reset.mem = true ∧
  dataPathSafe State.reset = true ∧ poolLaw State.reset.buf = true ∧ orderLaw State.reset.buf = true ∧
  lineCountLaw State.reset = true ∧ scheduleLaw State.reset = true ∧ State.reset.arriving = .nothing ∧
  swapTimesLaw State.reset.cfg State.reset.tim.count State.reset.agr.schedule = true ∧
  queueLaw State.reset = true ∧ strangersVacant State.reset = true

/-- Every step keeps the FAULT line asserted exactly when the summary shares a kind with the mask in
effect (R159); a raise of a kind in the mask asserts it and one of a kind outside leaves it, a hard reset
and READ_FAULTS deassert it, RESTART and CLEAR_COUNTERS keep its level, and an empty mask leaves it
deasserted. -/
def Obligations.FaultLineFollowsSummary : Prop :=
  (∀ s t : State, faultLineLaw s.flt = true → step s = .next t → faultLineLaw t.flt = true) ∧
  (∀ s t : State, exec .hardReset s = .next t → t.flt.faultLine = false) ∧
  (∀ s t : State, settled s → s.lpt.phase = .command → exec .readFaults s = .next t →
    t.flt.faultLine = false) ∧
  (∀ s t : State, settled s → exec .restart s = .next t → t.flt = s.flt) ∧
  (∀ s t : State, settled s → exec .clearCounters s = .next t →
    t.flt.summary = s.flt.summary ∧ t.flt.mask = s.flt.mask ∧ t.flt.faultLine = s.flt.faultLine) ∧
  (∀ (f : FaultUnit) (k : FaultKind), faultLineLaw f = true →
    (f.mask.getLsbD k.number.val = true → (f.raise [k]).faultLine = true) ∧
    (f.mask.getLsbD k.number.val = false → (f.raise [k]).faultLine = f.faultLine) ∧
    (f.mask = 0#21 → f.faultLine = false))

/-- Every step keeps frame memory in its canonical form. -/
def Obligations.FrameMemoryStaysCanonical : Prop :=
  ∀ s t : State, FrameMemory.wf s.mem = true → step s = .next t → FrameMemory.wf t.mem = true

/-- In a state whose data path is safe, every command completes and keeps the data path safe: no transfer
ever addresses a line slot that does not exist (R56, R71, R85, R91). -/
def Obligations.NoCommandStopsTheBlock : Prop :=
  ∀ s : State, dataPathSafe s = true → ∃ t, step s = .next t ∧ dataPathSafe t = true

/-- Every step keeps the law of the buffer pool (R49 to R51): each record fits its state, at most one
buffer is FILLING and at most one SHOWING, and the own ready list holds exactly the READY buffers, at most 3.
Where the data path is safe, a READY and a SHOWING buffer keep a line count of AL, and the line count of the
frame in FILLING with its lines in the FIFO stays the number of lines received (R49, R56, R71, R72).
Where the tags are in order, the own ready list stays in strictly ascending tag order, every tag in it newer
than the own shown tag (R50), and the tag being captured stays newer than all of these wherever the tags held
and captured lie within a quarter of the tag range, the premise under which the staleness checks of R50 and
R70 are one (log entry 18). With the order every step keeps the law of schedule and pool (R23): the tags
scheduled are tags of the own ready list, in its order, and so at most 3, and a READY buffer is pinned exactly
while its tag is scheduled. That is stated for swap times in order (R33), the stamps that completion reads
within 2^28 of the count, and an advance of the count below 2^28, or a schedule that the step empties. -/
def Obligations.BufferPoolLawKept : Prop :=
  ∀ s t : State, poolLaw s.buf = true → step s = .next t →
    poolLaw t.buf = true ∧
    (dataPathSafe s = true → lineCountLaw s = true → lineCountLaw t = true) ∧
    (orderLaw s.buf = true →
      tagsAscend t.buf.readyList = true ∧
      (∀ p ∈ t.buf.readyList, ∀ shown, t.buf.shownTag = some shown → isNewer p.tag shown = true) ∧
      (tagsNear (poolTags s.buf ++ poolTags t.buf) = true → orderLaw t.buf = true) ∧
      (scheduleLaw s = true → validConfig s.cfg = true →
        swapTimesLaw s.cfg s.tim.count s.agr.schedule = true → countsNear s = true → countsNear t = true →
        ((t.tim.count - s.tim.count).toNat < 268435456 ∨ t.agr.schedule = []) →
        scheduleLaw t = true))

/-- Every step keeps the law of the swap times (R23, R33): T ascends strictly in the schedule's order and
every T is after the count. It is stated for counts within reach of one another, as modular counts need: the
swap times within LEAD, and one frame more for each entry before it under FIFO, which every step keeps too;
the stamps that completion reads within 2^28 of the count, and the step's own advance of the count below
2^28; and for no forward jump still on its way whose position lies before the count of a frame start taken
ahead of it (`lateJumpAhead`), as none does that a burst shorter than a frame brings (R102, R105). -/
def Obligations.SwapTimesStayAfterTheCount : Prop :=
  ∀ s t : State, poolLaw s.buf = true → orderLaw s.buf = true → scheduleLaw s = true →
    swapTimesLaw s.cfg s.tim.count s.agr.schedule = true → validConfig s.cfg = true →
    s.lpt.frozen = true → s.tim.countState = .set → countsNear s = true → countsNear t = true →
    lateJumpAhead s = true → (t.tim.count - s.tim.count).toNat < 268435456 → step s = .next t →
    swapTimesLaw t.cfg t.tim.count t.agr.schedule = true

/-- Every step keeps the law of the outbound queue and the transmit machine (R128, R139, R143). Its clauses
on a running slot are the model's field of log entry 15, and those on the message in flight and on the entry
behind a jam the fields of log entry 3. -/
def Obligations.OutboundQueueLawKept : Prop :=
  ∀ s t : State, queueLaw s = true → step s = .next t → queueLaw t = true

/-- Every step keeps the entries of stations outside members VACANT at their initial values, from START
until the next hard reset (R10), and no message of such a station is on its way to the Roster Unit or the
Timing Unit (R123; log entry 26). -/
def Obligations.StrangersStayVacant : Prop :=
  ∀ s t : State, strangersVacant s = true → step s = .next t → strangersVacant t = true

/-- A message built at a transmit start passes checks 2, 3, 7 and 8 at a receiver and is read back with
its sender, sequence, stamp, phase and content (R117 to R120, R124, R125, R145). The member-since of a STATE
built while own joined-at is none, which R21 does not have, is the model's 0 (log entry 23). -/
def Obligations.BuiltMessageIsReadBack : Prop :=
  ∀ (s : State) (cls : EntryClass) (kind : MessageKind) (seq : Byte),
    validConfig s.cfg = true → s.scn.currentLine < 65536 → s.buf.readyList.length ≤ 3 →
    (cls = .standing ↔ kind ≠ .repeatRequest) →
    let bytes := (buildMessage s cls kind seq).bytes
    bytes.length ≤ 43 ∧ headerPasses bytes = true ∧ headerKind bytes = kind.code ∧
    headerGroup bytes = s.cfg.group.val ∧ lengthPasses bytes = true ∧
    bodyPasses { BusReceiver.initial with bytes := bytes } = true ∧
    readMessage bytes =
      { sender := s.cfg.station, seq := seq, stamp := s.tim.count, phase := s.scn.currentLine
        body := match kind with
          | .join => .join
              { fl := s.cfg.fl, al := s.cfg.al, lead := s.cfg.lead, hb := s.cfg.hb, af := s.cfg.af
                members := s.cfg.members, policy := Policy.code s.cfg.policy }
          | .state => .state
              { memberSince := s.ros.ownJoined.getD 0#32
                shownTag := s.buf.shownTag
                shownSince := if s.buf.shownTag.isSome then some (s.buf.shownSince.getD 0#32) else none
                view := voterSet s s.tim.count, ready := s.buf.readyList }
          | .leave => .leave
          | .repeatRequest =>
            match cls with
            | .standing => .leave
            | .repeatTo target reason =>
              .repeatRequest (BitVec.ofNat 8 target.val) (BitVec.ofNat 8 reason.code) }

/-- The tags of distinct frames placed one after another under a policy, each with its base swap time, at
a count `now`; a frame passed over leaves the schedule as it was. -/
def placeAll (policy : Policy) (now : Count) (frames : List (Tag × Count)) : List ScheduleEntry :=
  frames.foldl (fun schedule f =>
    match place policy now schedule f.1 f.2 with
    | some p => p.schedule
    | none => schedule) []

/-- The schedule that a set of complete frames gives does not depend on the order in which they were
placed, where no late fix-up applies (R36): frames with tags within a common half of the tag order, which
starts anywhere, and with base swap times after the count and below 2^30 frames ahead of it. -/
def Obligations.PlacementOrderDoesNotMatter : Prop :=
  ∀ (policy : Policy) (now : Count) (first : Tag) (frames frames' : List (Nat × Nat)),
    frames.Perm frames' → (frames.map (·.1)).Nodup →
    (∀ f ∈ frames, f.1 < 32768 ∧ 1 ≤ f.2 ∧ f.2 < 1073741824) →
    let timed := fun f : Nat × Nat => (first + BitVec.ofNat 16 f.1, addFrames now f.2)
    placeAll policy now (frames.map timed) = placeAll policy now (frames'.map timed)

/-! ## The local port -/

/-- CHIP_SELECT_FALLS begins a transaction and CHIP_SELECT_RISES ends it (R169, R170); no other state of
the part changes, and an effect already taken stands. That the command becomes none at the rise, while the
parameter bytes and the reply copy stay, is the model's reading (log entry 22). An UNKNOWN_COMMAND is
answered UNKNOWN alone (R169, R171); that the item command holds the unknown byte is the model's choice (log
entry 35). -/
def Obligations.TransactionFrames : Prop :=
  ∀ s : State, settled s →
    exec .chipSelectFalls s = .next
      { s with lpt := { s.lpt with phase := .command, command := none, params := [], reply := none
                                   sent := 0 } } ∧
    exec .chipSelectRises s = .next { s with lpt := { s.lpt with phase := .idle, command := none } } ∧
    (∀ code : Byte, s.lpt.phase = .command →
      code ∉ [0x10#8, 0x11#8, 0x12#8, 0x13#8, 0x20#8, 0x21#8, 0x22#8, 0x23#8, 0x24#8, 0x25#8] →
      exec (.unknownCommand code) s = .next
        { s with lpt := { s.lpt with phase := .reply, command := some code, reply := some [0x04#8]
                                     sent := 0, dataOut := 0x00#8 } })

/-- BYTE_CLOCKED in each phase of a transaction (R169): a byte of IDLE and of IGNORE has no effect on the
part, a byte of REPLY sends the next reply byte, a command byte with parameters opens PARAMETERS, a
parameter byte before the last is kept, and a byte that takes a command acts as that command, which is the
model's reading of the table's rows (log entry 22). That a byte clocked in IDLE does nothing is log entry 2,
and what the item command holds after an unknown byte is log entry 35. -/
def Obligations.ByteClockedInEachPhase : Prop :=
  ∀ (s : State) (b : Byte), settled s →
    (s.lpt.phase = .idle → exec (.byteClocked b) s = .next s) ∧
    (s.lpt.phase = .ignore →
      exec (.byteClocked b) s = .next { s with lpt := { s.lpt with dataOut := 0x00#8 } }) ∧
    (∀ (bytes : List Byte) (h : s.lpt.sent < bytes.length),
      s.lpt.phase = .reply → s.lpt.reply = some bytes →
      exec (.byteClocked b) s = .next
        { s with lpt := { s.lpt with
            dataOut := bytes[s.lpt.sent], sent := s.lpt.sent + 1
            phase := if s.lpt.sent + 1 = bytes.length then .ignore else .reply } }) ∧
    (s.lpt.phase = .command → b = 0x10#8 ∨ b = 0x21#8 →
      exec (.byteClocked b) s = .next
        { s with lpt := { s.lpt with phase := .parameters, command := some b, dataOut := 0x00#8 } }) ∧
    (s.lpt.phase = .command →
      (b = 0x11#8 → exec (.byteClocked b) s = exec .start s) ∧
      (b = 0x12#8 → exec (.byteClocked b) s = exec .leave s) ∧
      (b = 0x13#8 → exec (.byteClocked b) s = exec .restart s) ∧
      (b = 0x20#8 → exec (.byteClocked b) s = exec .readState s) ∧
      (b = 0x22#8 → exec (.byteClocked b) s = exec .readSchedule s) ∧
      (b = 0x23#8 → exec (.byteClocked b) s = exec .readFaults s) ∧
      (b = 0x24#8 → exec (.byteClocked b) s = exec .readCounters s) ∧
      (b = 0x25#8 → exec (.byteClocked b) s = exec .clearCounters s) ∧
      (WellFormed (.unknownCommand b) = true →
        exec (.byteClocked b) s = exec (.unknownCommand b) s)) ∧
    (s.lpt.phase = .parameters → s.lpt.command = some 0x10#8 → s.lpt.params.length < 22 →
      exec (.byteClocked b) s = .next
        { s with lpt := { s.lpt with params := s.lpt.params ++ [b], dataOut := 0x00#8 } }) ∧
    (s.lpt.phase = .parameters → s.lpt.command = some 0x10#8 → s.lpt.params.length = 22 →
      exec (.byteClocked b) s = exec (.loadConfig b) s) ∧
    (s.lpt.phase = .parameters → s.lpt.command = some 0x21#8 → s.lpt.params = [] →
      exec (.byteClocked b) s = exec (.readMember b) s)

/-- The value of a field of a configuration block: its bytes of R182 where its bit of the given-set is 1,
its default of R173 otherwise; none for a field that must be given and is not. -/
def givenOrDefault (block : List Byte) (bit offset size : Nat) (default : Option Nat) : Option Nat :=
  if (field block 0 2).testBit bit then some (field block offset size) else default

/-- The value of the field of index i, in the numbers of R173 and R182. -/
def valueOf (block : List Byte) : Nat → Option Nat
  | 1 => givenOrDefault block 0 2 1 none
  | 2 => givenOrDefault block 1 3 1 (some 0)
  | 3 => givenOrDefault block 2 4 2 none
  | 4 => givenOrDefault block 3 6 2 (some 1125)
  | 5 => givenOrDefault block 4 8 2 (some 1080)
  | 6 => givenOrDefault block 5 10 1 (some 2)
  | 7 => givenOrDefault block 6 11 1 (some 4)
  | 8 => givenOrDefault block 7 12 1 (some 16)
  | 9 => givenOrDefault block 8 13 1 (some 8)
  | 10 => givenOrDefault block 9 14 1 (some 1)
  | 11 => givenOrDefault block 10 15 2 (some 32)
  | 12 => givenOrDefault block 11 17 1 (some 30)
  | 13 => givenOrDefault block 12 18 1 (some 2)
  | 14 => givenOrDefault block 13 19 1 (some 1)
  | 15 => givenOrDefault block 14 20 3 (some 2097151)
  | _ => none

/-- The field of index i passes its check of R173, in R173's own numbers; index 0 is the given-set. -/
def passesCheck (block : List Byte) (i : Nat) : Prop :=
  match i with
  | 0 => (field block 0 2).testBit 15 = false
  | 1 => ∃ x, valueOf block 1 = some x ∧ x ≤ 15
  | 2 => ∃ x, valueOf block 2 = some x ∧ x ≤ 3
  | 3 => ∃ x n, valueOf block 3 = some x ∧ valueOf block 1 = some n ∧ x.testBit n = true
  | 4 => ∃ x, valueOf block 4 = some x ∧ 16 ≤ x ∧ x ≤ 4095
  | 5 => ∃ x fl, valueOf block 5 = some x ∧ valueOf block 4 = some fl ∧ 8 ≤ x ∧ x + 4 ≤ fl
  | 6 => ∃ x, valueOf block 6 = some x ∧ 1 ≤ x ∧ x ≤ 4
  | 7 => ∃ x, valueOf block 7 = some x ∧ 1 ≤ x ∧ x ≤ 8
  | 8 => ∃ x hb, valueOf block 8 = some x ∧ valueOf block 7 = some hb ∧ hb + 3 ≤ x ∧ x ≤ 255
  | 9 => ∃ x, valueOf block 9 = some x ∧ 2 ≤ x ∧ x ≤ 64
  | 10 => ∃ x, valueOf block 10 = some x ∧ x ≤ 3
  | 11 => ∃ x fl, valueOf block 11 = some x ∧ valueOf block 4 = some fl ∧ 4 ≤ x ∧ x ≤ fl / 4
  | 12 => ∃ x, valueOf block 12 = some x ∧ 4 ≤ x ∧ x ≤ 255
  | 13 => ∃ x, valueOf block 13 = some x ∧ 1 ≤ x ∧ x ≤ 4
  | 14 => ∃ x, valueOf block 14 = some x ∧ x ≤ 1
  | 15 => ∃ x, valueOf block 15 = some x ∧ x < 2097152
  | _ => True

/-- LOAD_CONFIG with its last byte (R172, R173): while frozen it is refused; otherwise the first field, in
index order, that fails its check of R173 is reported, and a block of which every field passes replaces the
held configuration, each field as given or defaulted, and is valid. -/
def Obligations.LoadConfigTakenOrRefused : Prop :=
  ∀ (s : State) (last : Byte), settled s → s.lpt.phase = .parameters →
    s.lpt.command = some 0x10#8 → s.lpt.params.length = 22 →
    let block := s.lpt.params ++ [last]
    let answered := fun held bytes => { s with lpt := { s.lpt with
      held := held, phase := .reply, params := block, reply := some bytes, sent := 0
      dataOut := 0x00#8 } }
    (s.lpt.frozen = true → exec (.loadConfig last) s = .next (answered s.lpt.held [0x02#8])) ∧
    (∀ i, s.lpt.frozen = false → (∀ j, j < i → passesCheck block j) → ¬ passesCheck block i →
      i ≤ 15 ∧
      exec (.loadConfig last) s = .next (answered s.lpt.held [0x03#8, BitVec.ofNat 8 i])) ∧
    (s.lpt.frozen = false → (∀ i, i ≤ 15 → passesCheck block i) → ∃ c : StationConfig,
      exec (.loadConfig last) s = .next (answered (some c) [0x01#8]) ∧ validConfig c = true ∧
      valueOf block 1 = some c.station.val ∧ valueOf block 2 = some c.group.val ∧
      valueOf block 3 = some c.members.toNat ∧ valueOf block 4 = some c.fl ∧
      valueOf block 5 = some c.al ∧ valueOf block 6 = some c.lead ∧ valueOf block 7 = some c.hb ∧
      valueOf block 8 = some c.af ∧ valueOf block 9 = some c.lf ∧ valueOf block 10 = some c.db ∧
      valueOf block 11 = some c.snap ∧ valueOf block 12 = some c.stallf ∧ valueOf block 13 = some c.it ∧
      valueOf block 14 = some (Policy.code c.policy) ∧ valueOf block 15 = some c.faultMask.toNat)

/-- Line n begins on the panel between a state s and a state t (R85, R91): a blank line from AL on, blank fill
with no buffer SHOWING, and otherwise a line that awaits its slot, whose read is granted at once at an idle
port and waits at a busy one. The buffer SHOWING is the one in t, as a swap decision has left it. -/
def lineBegun (s t : State) (n : Nat) (mark : Bool) : Prop :=
  let shows := fun content =>
    t.scn.panel = some { number := n, frameStartMark := mark, content := content : PanelLine }
  (s.cfg.al ≤ n ∨ t.buf.find .showing = none →
    t.scn.port = s.scn.port ∧ t.scn.readWaiting = s.scn.readWaiting) ∧
  (s.cfg.al ≤ n → shows .blankLine) ∧
  (n < s.cfg.al → t.buf.find .showing = none → shows .blankFill) ∧
  (∀ b, n < s.cfg.al → t.buf.find .showing = some b → shows .awaiting ∧
    (s.scn.port = .idle → t.scn.port = .read { buffer := b, slot := n } ∧
      t.scn.readWaiting = s.scn.readWaiting) ∧
    (s.scn.port ≠ .idle → t.scn.port = s.scn.port ∧
      t.scn.readWaiting = some { buffer := b, slot := n }))

/-- A line start at the Capture Unit between s and t (R76, R82): the timeout count of a frame that receives and
of a held frame rises by 1, up to IT × FL (log entry 10), and the unit is otherwise as it was. -/
def timeoutsCounted (s t : State) : Prop :=
  let limit := s.cfg.it * s.cfg.fl
  t.cap = { s.cap with timeout := t.cap.timeout, held := t.cap.held } ∧
  (s.cap.state = .filling → s.cap.closing = false → s.cap.aborting = none →
    t.cap.timeout = min limit (s.cap.timeout + 1)) ∧
  (s.cap.state ≠ .filling ∨ s.cap.closing = true ∨ s.cap.aborting ≠ none →
    t.cap.timeout = s.cap.timeout) ∧
  t.cap.held = s.cap.held.map (fun h => { h with timeout := min limit (h.timeout + 1) })

/-- START (R174): in CONFIG with a held configuration not frozen it is taken by every block, and line 0 of the
first frame begins (R82, R85, R91); otherwise it is refused and nothing changes. The model's own are the
frame-start mark of the first line (log entry 7) and the own number's stored entry, VACANT, where R12 builds
the self entry (log entry 24). -/
def Obligations.StartTakenOrRefused : Prop :=
  ∀ s : State, settled s → s.lpt.phase = .command →
    (∀ cfg, s.ros.self = .config → s.lpt.frozen = false → s.lpt.held = some cfg → ∃ t,
      exec .start s = .next t ∧
      t.ros.self = .listen ∧ t.ros.ownJoined = none ∧ t.ros.ownAbsent = none ∧
      t.ros.frameStarts = 0#32 ∧
      (∀ n : Station, t.ros.entry n = RosterEntry.initial
        (if hasStation cfg.members n = true ∧ n ≠ cfg.station then .expected else .vacant)) ∧
      t.scn.timer = .running ∧ t.scn.currentLine = 0 ∧ t.scn.elapsed = 1 ∧ t.scn.endLine = cfg.fl ∧
      t.scn.frameLength = cfg.fl ∧ lineBegun s t 0 true ∧ t.scn.writeWaiting = s.scn.writeWaiting ∧
      t.scn.swapLine = s.scn.swapLine ∧
      t.scn.realign = s.scn.realign ∧ t.scn.swapThisFrame = s.scn.swapThisFrame ∧
      t.rx.state = (if s.line = .idle then .idle else .waitIdle) ∧ t.rx.bytes = [] ∧
      t.tx = { s.tx with generator := BitVec.ofNat 16 ((cfg.station.val + 1) * 499), heartbeat := 0 } ∧
      t.flt = { s.flt with mask := cfg.faultMask
                           faultLine := s.flt.summary &&& cfg.faultMask != 0#21 } ∧
      t.lpt = { s.lpt with frozen := true, phase := .reply, command := some 0x11#8
                           reply := some [0x01#8], sent := 0, dataOut := 0x00#8 } ∧
      t.tim = s.tim ∧ t.agr = s.agr ∧ t.buf = s.buf ∧ t.cap = s.cap ∧ t.mem = s.mem ∧
      t.line = s.line ∧ t.pending = s.pending ∧ t.choices = s.choices ∧ t.arriving = .nothing) ∧
    (s.ros.self ≠ .config ∨ s.lpt.frozen = true ∨ s.lpt.held = none →
      exec .start s = .next { s with lpt := { s.lpt with
        phase := .reply, command := some 0x11#8, reply := some [0x02#8], sent := 0
        dataOut := 0x00#8 } })

/-- LEAVE (R6, R151, R175): in JOINING, MEMBER and EVICTED the station becomes LEAVING and the STANDING
entry goes to the head of the queue, behind an entry in flight; in the other states it is refused and
nothing changes. -/
def Obligations.LeaveTakenOrRefused : Prop :=
  ∀ s : State, settled s → s.lpt.phase = .command →
    (s.ros.self ∈ [SelfState.joining, .member, .evicted] → ∃ t,
      exec .leave s = .next t ∧
      t = { s with ros := { s.ros with self := .leaving }, tx := t.tx
                   lpt := { s.lpt with phase := .reply, command := some 0x12#8
                                       reply := some [0x01#8], sent := 0, dataOut := 0x00#8 } } ∧
      (let others := s.tx.queue.filter (!·.isStanding)
       let standing := (s.tx.queue.find? QueueEntry.isStanding).getD (.fresh .standing)
       t.tx = { s.tx with queue := t.tx.queue, state := t.tx.state } ∧
       (s.tx.state ≠ .sending → t.tx.queue = standing :: others) ∧
       (∀ e rest, s.tx.state = .sending → s.tx.queue = e :: rest →
          (e.isStanding = false → t.tx.queue = e :: standing :: rest.filter (!·.isStanding)) ∧
          (e.isStanding = true → rest.any QueueEntry.isStanding = false →
            t.tx.queue = { e with renew := true } :: rest)) ∧
       t.tx.state = (if s.tx.state = .txIdle ∧ s.tx.queue.any QueueEntry.isStanding = false
         then .waitGap else s.tx.state))) ∧
    (s.ros.self ∉ [SelfState.joining, .member, .evicted] →
      exec .leave s = .next { s with lpt := { s.lpt with
        phase := .reply, command := some 0x12#8, reply := some [0x02#8], sent := 0
        dataOut := 0x00#8 } })

/-- RESTART (R176 and the rules it names): in every state but CONFIG each block returns to its start values,
the configuration and the faults are kept and the line timer runs on; in CONFIG it is refused. The own
number's stored entry being VACANT is log entry 24; the write in progress abandoned, and the receive machine
IDLE at once where the line is idle, are log entry 13. A realignment request pending at the Scan-out Unit is
dropped; one that is on its way reaches it behind RESTART and is kept (R94, R112). An accepted message still
on its way to the Roster Unit, the Timing Unit or the transmit side is taken by each of them before RESTART or
behind it, as a free value tells (log entry 34), and the count ends at 0 and UNSET in every order. At the
Timing Unit before RESTART, a forward jump raises COUNT_JUMP and its request reaches the Scan-out Unit behind
RESTART; behind it the message's older realignment number keeps it out of timing use, with no claim and no
COUNT_JUMP (R112). At the Roster Unit behind RESTART the message ends the new LISTEN (R3). -/
def Obligations.RestartTakenOrRefused : Prop :=
  (∀ s : State, s.resetHeld = false → s.lpt.phase = .command →
    s.arriving = { Arrivals.nothing with request := s.arriving.request } →
    (s.ros.self ≠ .config → ∃ t,
      exec .restart s = .next t ∧
      t.ros.self = .listen ∧ t.ros.ownJoined = none ∧ t.ros.ownAbsent = none ∧
      t.ros.frameStarts = 0#32 ∧
      (∀ n : Station, t.ros.entry n = RosterEntry.initial
        (if hasStation s.cfg.members n = true ∧ n ≠ s.cfg.station then .expected else .vacant)) ∧
      t.agr = { schedule := [], stallCount := 0, stallRaised := false } ∧
      (∀ i : BufferId, t.buf.records[i] = .free) ∧ t.buf.ready = [] ∧ t.buf.shownTag = none ∧
      t.buf.shownSince = none ∧ t.cap = CaptureUnit.initial ∧
      t.scn = { s.scn with realign := s.arriving.request, swapThisFrame := false, swapLine := false
                           writeWaiting := none, port := t.scn.port } ∧
      (match s.scn.port with
        | .write w => t.scn.port = .write { w with abandoned := true }
        | .idle => t.scn.port = .idle
        | .read a => t.scn.port = .read a) ∧
      t.tim = { s.tim with count := 0#32, countState := .unset, realignPending := false
                           realignNumber := s.tim.realignNumber + 1, lastMedian := 0 } ∧
      t.rx = { state := if s.line = .idle then .idle else .waitIdle, bytes := [], overlong := false
               trailingBits := false, invalidSymbol := false, timing := none } ∧
      t.tx = { queue := [], seq := s.tx.seq, heartbeat := 0, state := .txIdle, backoffCount := 0
               generator := BitVec.ofNat 16 ((s.cfg.station.val + 1) * 499), slotRunning := false
               inFlight := none, jamEntry := none } ∧
      t.flt = s.flt ∧
      t.lpt = { s.lpt with phase := .reply, command := some 0x13#8, reply := some [0x01#8], sent := 0
                           dataOut := 0x00#8 } ∧
      t.mem = s.mem ∧ t.line = s.line ∧ t.pending = s.pending ∧ t.choices = s.choices ∧ t.arriving = .nothing) ∧
    (s.ros.self = .config → s.arriving = .nothing →
      exec .restart s = .next { s with lpt := { s.lpt with
        phase := .reply, command := some 0x13#8, reply := some [0x02#8], sent := 0
        dataOut := 0x00#8 } })) ∧
  ∀ s : State, s.resetHeld = false → s.lpt.phase = .command → s.ros.self ≠ .config →
    (∀ x, s.arriving.timing = some x → x.2.realignNumber ≠ s.tim.realignNumber + 1) →
    exec .restart s = .next (aroundRestart Config.handoffChoice takeRestart s) ∧
    ∀ choose : Nat → Nat,
      let t := aroundRestart choose takeRestart s
      let alone := takeRestart { s with arriving := .nothing }
      let timed := match s.arriving.timing with
        | some x => if (choose s.choices).testBit 1 then s else timingMessage s x.1 x.2
        | none => s
      let heard := match s.arriving.roster with
        | some m => if (choose s.choices).testBit 0 then rosterMessage alone m else alone
        | none => alone
      t.arriving = .nothing ∧
      t.tim = { s.tim with count := 0#32, countState := .unset, realignPending := false
                           realignNumber := s.tim.realignNumber + 1, lastMedian := 0 } ∧
      t.agr = alone.agr ∧ t.buf = alone.buf ∧ t.cap = alone.cap ∧ t.rx = alone.rx ∧ t.lpt = alone.lpt ∧
      t.mem = s.mem ∧ t.line = s.line ∧ t.pending = s.pending ∧
      t.scn = { alone.scn with realign := timed.arriving.request } ∧
      t.flt.faultCounters[FaultKind.countJump.number] =
        timed.flt.faultCounters[FaultKind.countJump.number] ∧
      t.ros = heard.ros ∧ t.tx = heard.tx ∧
      t.ros.self = (if s.arriving.roster.isSome && (choose s.choices).testBit 0 then .joining else .listen)

/-- READ_STATE (R177, R178, R183) answers in the layout of R183, and READ_SCHEDULE (R48, R183) with the
schedule's entries in order; each changes nothing but the port. The copies of all blocks are taken in one
step (log entry 29). -/
def Obligations.ReadStateAndScheduleReplies : Prop :=
  (∀ s : State, settled s → s.lpt.phase = .command → ∃ bytes : List Byte,
    exec .readState s = .next { s with lpt := { s.lpt with
      phase := .reply, command := some 0x20#8, reply := some bytes, sent := 0, dataOut := 0x00#8 } } ∧
    bytes.length = 26 + 6 * s.buf.readyList.length ∧
    field bytes 0 1 = 1 ∧ field bytes 1 1 = s.ros.self.code ∧
    (field bytes 2 1).testBit 0 = s.buf.shownTag.isSome ∧
    (field bytes 2 1).testBit 1 = s.ros.ownJoined.isSome ∧
    (field bytes 2 1).testBit 2 = s.ros.ownAbsent.isSome ∧
    field bytes 3 4 = s.tim.count.toNat ∧ field bytes 7 2 = (s.buf.shownTag.getD 0#16).toNat ∧
    field bytes 9 4 = (s.buf.shownSince.getD 0#32).toNat ∧
    field bytes 13 4 = (s.ros.ownJoined.getD 0#32).toNat ∧
    field bytes 17 4 = (s.ros.ownAbsent.getD 0#32).toNat ∧
    field bytes 21 2 = (if s.ros.self = .config then 0 else s.scn.frameLength % 65536) ∧
    (BitVec.ofNat 16 (field bytes 23 2) =
      if s.ros.self = .config then 0#16 else BitVec.ofInt 16 s.tim.lastMedian) ∧
    field bytes 25 1 = s.buf.readyList.length % 256 ∧
    ∀ (i : Nat) (h : i < s.buf.readyList.length),
      field bytes (26 + 6 * i) 2 = (s.buf.readyList[i]).tag.toNat ∧
      field bytes (28 + 6 * i) 4 = (s.buf.readyList[i]).stamp.toNat) ∧
  ∀ s : State, settled s → s.lpt.phase = .command → ∃ bytes : List Byte,
    exec .readSchedule s = .next { s with lpt := { s.lpt with
      phase := .reply, command := some 0x22#8, reply := some bytes, sent := 0, dataOut := 0x00#8 } } ∧
    bytes.length = 2 + 6 * s.agr.schedule.length ∧ field bytes 0 1 = 1 ∧
    field bytes 1 1 = s.agr.schedule.length % 256 ∧
    ∀ (i : Nat) (h : i < s.agr.schedule.length),
      field bytes (2 + 6 * i) 2 = (s.agr.schedule[i]).tag.toNat ∧
      field bytes (4 + 6 * i) 4 = (s.agr.schedule[i]).time.toNat

/-- READ_MEMBER (R177, R179, R183) answers with the entry of a station 0..15 in the layout of R183, the
self entry of R12 for the own number, and refuses 16..255; it changes nothing but the port. The self entry
is the one R12 gives; where R12 names no state for a point exactly 2^31 from the count nothing is said (log
entry 9), and a cause other than LEFT is none (log entry 24). The blocking flag is R47's. The copies of all
blocks are taken in one step (log entry 29). -/
def Obligations.ReadMemberReply : Prop :=
  (∀ (s : State) (n : Byte), settled s → s.lpt.phase = .parameters →
    s.lpt.command = some 0x21#8 → s.lpt.params = [] → ∃ bytes : List Byte,
    exec (.readMember n) s = .next { s with lpt := { s.lpt with
      phase := .reply, params := [n], reply := some bytes, sent := 0, dataOut := 0x00#8 } } ∧
    (16 ≤ n.toNat → bytes = [0x02#8]) ∧
    (∀ h : n.toNat < 16,
      let m : Station := ⟨n.toNat, h⟩
      let e := if s.ros.self ≠ .config ∧ m = s.cfg.station then selfEntry s else s.ros.entry m
      let provisional := provisionalAbsent s.cfg e
      bytes.length = 41 + 6 * e.holdings.length ∧
      field bytes 0 1 = 1 ∧ field bytes 1 1 = n.toNat ∧ field bytes 2 1 = e.state.code ∧
      field bytes 3 1 = e.cause.code ∧ (field bytes 4 1).testBit 0 = e.clash ∧
      (field bytes 4 1).testBit 1 = blockingFlag s m ∧
      field bytes 5 2 = flagBits [e.joinedAt.isSome, e.absentFrom.isSome, provisional.isSome,
        e.lastStamp.isSome, e.lastFrame.isSome, e.lastSeq.isSome, e.shownTag.isSome,
        e.offset.isSome] ∧
      field bytes 7 4 = (e.joinedAt.getD 0#32).toNat ∧
      field bytes 11 4 = (e.absentFrom.getD 0#32).toNat ∧
      field bytes 15 4 = (provisional.getD 0#32).toNat ∧
      field bytes 19 4 = (e.lastStamp.getD 0#32).toNat ∧
      field bytes 23 4 = (e.lastFrame.getD 0#32).toNat ∧
      field bytes 27 1 = (e.lastSeq.getD 0#8).toNat ∧
      field bytes 28 2 = (e.shownTag.getD 0#16).toNat ∧
      field bytes 30 4 = (e.shownSince.getD 0#32).toNat ∧ field bytes 34 2 = e.view.toNat ∧
      BitVec.ofNat 16 (field bytes 36 2) = BitVec.ofInt 16 (e.offset.getD 0) ∧
      field bytes 38 1 = e.age % 256 ∧ field bytes 39 1 = e.holdings.length % 256 ∧
      (∀ (i : Nat) (hi : i < e.holdings.length),
        field bytes (40 + 6 * i) 2 = (e.holdings[i]).tag.toNat ∧
        field bytes (42 + 6 * i) 4 = (e.holdings[i]).stamp.toNat) ∧
      field bytes (40 + 6 * e.holdings.length) 1 = 0)) ∧
  (∀ s : State, let e := selfEntry s
    let reached := fun p : Count =>
      s.tim.count = p ∨ (1 ≤ (s.tim.count - p).toNat ∧ (s.tim.count - p).toNat < 2147483648)
    let ahead := fun p : Count =>
      1 ≤ (p - s.tim.count).toNat ∧ (p - s.tim.count).toNat < 2147483648
    e.joinedAt = s.ros.ownJoined ∧ e.absentFrom = s.ros.ownAbsent ∧ e.holdings = s.buf.readyList ∧
    e.shownTag = s.buf.shownTag ∧ e.shownSince = s.buf.shownSince ∧
    e.view = voterSet s s.tim.count ∧ e.clash = false ∧ e.lastStamp = none ∧ e.lastFrame = none ∧
    e.lastSeq = none ∧ e.offset = none ∧ provisionalAbsent s.cfg e = none ∧
    e.cause = (if e.state = .absent then .left else .none) ∧
    (s.ros.self = .config → e.state = .vacant) ∧ (s.ros.self = .detached → e.state = .absent) ∧
    (s.ros.self ∉ [SelfState.config, .detached] →
      (∀ a, s.ros.ownAbsent = some a → reached a → e.state = .absent) ∧
      ((∀ a, s.ros.ownAbsent = some a → ahead a) →
        (s.ros.ownJoined = none → e.state = .expected) ∧
        (∀ j, s.ros.ownJoined = some j → ahead j → e.state = .joining) ∧
        (∀ j, s.ros.ownJoined = some j → reached j → e.state = .voter)))) ∧
  (∀ (s : State) (n : Station), blockingFlag s n = true ↔
    ∃ oldest rest, s.buf.readyList = oldest :: rest ∧ n ≠ s.cfg.station ∧
      isVoter s s.tim.count n = true ∧
      ∀ stamp, holdingStamp s oldest.tag n = some stamp → notAfter stamp s.tim.count = false)

/-- READ_FAULTS (R160): the reply is the copy of the summary and of the counters as they stood, the
summary is emptied, the FAULT line is deasserted, and the counters are kept; a raise taken after it is
recorded in the emptied summary and leaves the reply; a transaction that ends early has emptied the summary
all the same. The layout of the reply is R183's; the command becoming none at the end of the transaction is
the model's (log entry 22). -/
def Obligations.ReadFaultsReply : Prop :=
  ∀ s : State, settled s → s.lpt.phase = .command → ∃ (bytes : List Byte) (t : State),
    exec .readFaults s = .next t ∧
    t = { s with
      flt := { s.flt with summary := 0#21, faultLine := false }
      lpt := { s.lpt with phase := .reply, command := some 0x23#8, reply := some bytes, sent := 0
                          dataOut := 0x00#8 } } ∧
    bytes.length = 25 ∧ field bytes 0 1 = 1 ∧ field bytes 1 3 = s.flt.summary.toNat ∧
    (∀ k : Fin 21, field bytes (4 + k.val) 1 = s.flt.faultCounters[k] % 256) ∧
    (∀ k : FaultKind, (raise t k).flt.summary = k.bit ∧ (raise t k).lpt = t.lpt) ∧
    exec .chipSelectRises t = .next { t with lpt := { t.lpt with phase := .idle, command := none } }

/-- READ_COUNTERS (R164): the reply is the copy of the eight event counters, which are kept; a count signal
taken before the read is in the copy. CLEAR_COUNTERS (R162): every counter becomes 0, and the summary, the
mask and the FAULT line stay; a raise taken after the clear leaves its counter at 1, a raise taken before it
leaves it at 0, and an event count likewise. -/
def Obligations.CountersReadAndCleared : Prop :=
  (∀ s : State, settled s → s.lpt.phase = .command → ∃ bytes : List Byte,
    exec .readCounters s = .next { s with lpt := { s.lpt with
      phase := .reply, command := some 0x24#8, reply := some bytes, sent := 0, dataOut := 0x00#8 } } ∧
    bytes.length = 17 ∧ field bytes 0 1 = 1 ∧
    ∀ k : Fin 8, field bytes (1 + 2 * k.val) 2 = s.flt.eventCounters[k] % 65536) ∧
  (∀ s : State, settled s → s.lpt.phase = .command →
    exec .clearCounters s = .next
      { s with
        flt := { s.flt with faultCounters := Vector.replicate 21 0
                            eventCounters := Vector.replicate 8 0 }
        lpt := { s.lpt with phase := .reply, command := some 0x25#8, reply := some [0x01#8], sent := 0
                            dataOut := 0x00#8 } }) ∧
  (∀ (f : FaultUnit) (k : FaultKind),
    (f.clearCounters.raise [k]).faultCounters[k.number] = 1 ∧
    (f.raise [k]).clearCounters.faultCounters[k.number] = 0 ∧
    (f.clearCounters.raise [k]).summary = (f.raise [k]).clearCounters.summary ∧
    (f.raise [k]).clearCounters.summary.getLsbD k.number.val = true ∧
    (f.clearCounters.raise [k]).faultLine = (f.raise [k]).clearCounters.faultLine ∧
    faultLineLaw (f.raise [k]).clearCounters = true) ∧
  (∀ (f : FaultUnit) (k : EventKind),
    (f.clearCounters.count k 1).eventCounters[k.number] = 1 ∧
    (f.count k 1).clearCounters.eventCounters[k.number] = 0)

/-- A raise (R158): each kind it names joins the summary and its counter rises by 1, stopping at 255; no
other kind, no event counter and not the mask change; two raises give the same record in either order. -/
def Obligations.RaiseRecordsEachKind : Prop :=
  (∀ (f : FaultUnit) (ks : List FaultKind), ks.Nodup →
    (∀ k : FaultKind,
      (f.raise ks).summary.getLsbD k.number.val = (f.summary.getLsbD k.number.val || ks.contains k) ∧
      (f.raise ks).faultCounters[k.number] =
        if k ∈ ks then min 255 (f.faultCounters[k.number] + 1) else f.faultCounters[k.number]) ∧
    (f.raise ks).eventCounters = f.eventCounters ∧ (f.raise ks).mask = f.mask ∧
    (faultLineLaw f = true → faultLineLaw (f.raise ks) = true)) ∧
  (∀ (f : FaultUnit) (ks ls : List FaultKind),
    ((f.raise ks).raise ls).summary = ((f.raise ls).raise ks).summary ∧
    ((f.raise ks).raise ls).faultCounters = ((f.raise ls).raise ks).faultCounters)

/-! ## The line timer, the frame start, and the Timing Unit -/

/-- A line start of the running timer that is neither a frame start nor a realignment (R82, R85, R89,
R91, R99): the next line begins, with its content by its number and the SHOWING buffer. A stopped timer
has no line start (log entry 2); a read request that replaces one that waits is log entry 17, and the timeout
counts that stop at their limit are log entry 10. -/
def Obligations.OrdinaryLineStart : Prop :=
  ∀ s : State, settled s →
    (s.scn.timer = .stopped → exec .lineStart s = .next s) ∧
    (s.scn.timer = .running → s.scn.currentLine + 1 ≠ s.scn.endLine → s.scn.realign = none → ∃ t,
      exec .lineStart s = .next t ∧
      t = { s with cap := t.cap, scn := t.scn
                   tim := { s.tim with lineStarts := s.tim.lineStarts + 1 } } ∧
      timeoutsCounted s t ∧ lineBegun s t (s.scn.currentLine + 1) false ∧
      t.scn = { s.scn with
        currentLine := s.scn.currentLine + 1, elapsed := s.scn.elapsed + 1, swapLine := false
        panel := t.scn.panel, port := t.scn.port, readWaiting := t.scn.readWaiting })

/-- A pending realignment that renumbers the frame in progress (R84, R106): its length D is e + FL − p
bounded to ⌊FL/2⌋..FL+⌊FL/2⌋, the line now beginning is FL − (D − e), p itself where D was not bounded,
and it is reported to the Timing Unit. That line begins on the panel by its new number, with its read request
(R85, R91), and the timeouts are counted as at every line start (R76, R82). -/
def Obligations.RealignmentRenumbersWithinBounds : Prop :=
  ∀ (s : State) (p : Nat), settled s → s.scn.timer = .running → s.scn.realign = some p →
    s.scn.currentLine + 1 ≠ s.scn.endLine → 16 ≤ s.cfg.fl → p < s.cfg.fl →
    s.scn.elapsed < s.cfg.fl + s.cfg.fl / 2 → (p ≠ 0 ∨ s.scn.elapsed < s.cfg.fl / 2) → ∃ t,
    exec .lineStart s = .next t ∧
    (let fl := s.cfg.fl
     let e := s.scn.elapsed
     fl / 2 ≤ t.scn.frameLength ∧ t.scn.frameLength ≤ fl + fl / 2 ∧ e < t.scn.frameLength ∧
     (fl / 2 ≤ e + fl - p → e + fl - p ≤ fl + fl / 2 →
       t.scn.frameLength = e + fl - p ∧ t.scn.currentLine = p) ∧
     (e + fl - p < fl / 2 → t.scn.frameLength = fl / 2) ∧
     (fl + fl / 2 < e + fl - p → t.scn.frameLength = fl + fl / 2) ∧
     t.scn.currentLine + (t.scn.frameLength - e) = fl ∧ t.scn.currentLine < fl ∧
     t.scn = { s.scn with
       currentLine := t.scn.currentLine, frameLength := t.scn.frameLength, endLine := fl, elapsed := e + 1
       realign := none, swapLine := false
       panel := t.scn.panel, port := t.scn.port, readWaiting := t.scn.readWaiting } ∧
     lineBegun s t t.scn.currentLine false ∧ timeoutsCounted s t ∧
     t.tim = { s.tim with lineStarts := s.tim.lineStarts + 1, realignPending := false
                          realignNumber := s.tim.realignNumber + 1 } ∧
     t.ros = s.ros ∧ t.agr = s.agr ∧ t.buf = s.buf ∧ t.rx = s.rx ∧ t.tx = s.tx ∧ t.flt = s.flt ∧
     t.lpt = s.lpt ∧ t.mem = s.mem ∧ t.line = s.line)

/-- A frame start, in whatever order its hand-offs are taken (R82, R83, R87, R97, R98): FRAME_START and
LINE_START are one event there (log entry 5), and where none is due FRAME_START has no effect (log entry 2);
line 0 begins, the count advances, the length follows the table of R110 for the recorded median and lies
within bounds, every stored phase offset ages by one frame, up to 255, and moves by the length chosen less FL,
bounded to ±(FL−1) (R97, R111), the Roster Unit counts the frame start, and frame memory, the port of the
controller and the bus are untouched. Line 0 carries the mark, and its content and read request are those of
the buffer SHOWING after the swap decision (R85, R87, R91); the timeouts are counted as at every line start
(R76, R82), unless the station enters DETACHED, which stops capture (R77). -/
def Obligations.FrameStartBeginsAFrame : Prop :=
  (∀ s : State, s.arriving = .nothing → s.scn.currentLine + 1 ≠ s.scn.endLine →
    (s.scn.realign ≠ some 0 ∨ s.scn.elapsed < s.cfg.fl / 2) → exec .frameStart s = .next s) ∧
  ∀ s : State, settled s → s.scn.timer = .running → 16 ≤ s.cfg.fl →
    (s.scn.currentLine + 1 = s.scn.endLine ∨
      (s.scn.realign = some 0 ∧ s.cfg.fl / 2 ≤ s.scn.elapsed)) →
    exec .frameStart s = exec .lineStart s ∧ ∃ t, exec .frameStart s = .next t ∧
      t.scn.currentLine = 0 ∧ t.scn.elapsed = 1 ∧ t.scn.endLine = t.scn.frameLength ∧
      t.scn.frameLength = boundLength s.cfg.fl (trimLength s.cfg t.tim.lastMedian).1 ∧
      s.cfg.fl / 2 ≤ t.scn.frameLength ∧ t.scn.frameLength ≤ s.cfg.fl + s.cfg.fl / 2 ∧
      lineBegun s t 0 true ∧
      (s.ros.self ≠ .leaving ∨ t.ros.self ≠ .detached → timeoutsCounted s t ∧
        t.scn.writeWaiting = s.scn.writeWaiting) ∧
      t.tim.lineStarts = s.tim.lineStarts + 1 ∧
      (s.tim.countState = .set →
        t.tim.count = s.tim.count + 1 ∧ t.tim.countState = .set) ∧
      (s.tim.countState = .unset → s.ros.frameStarts ≠ BitVec.ofNat 32 s.cfg.lf →
        t.tim.count = s.tim.count ∧ t.tim.countState = .unset) ∧
      (s.tim.countState = .unset → s.ros.frameStarts = BitVec.ofNat 32 s.cfg.lf →
        t.tim.count = 0#32 ∧ t.tim.countState = .set) ∧
      (s.scn.currentLine + 1 = s.scn.endLine → t.scn.realign = s.scn.realign ∧
        t.tim.realignPending = s.tim.realignPending ∧
        t.tim.realignNumber = s.tim.realignNumber) ∧
      (s.scn.currentLine + 1 ≠ s.scn.endLine → t.scn.realign = none ∧
        t.tim.realignPending = false ∧ t.tim.realignNumber = s.tim.realignNumber + 1) ∧
      (∀ n : Station,
        (t.ros.entry n).offset = (s.ros.entry n).offset.map (fun x =>
          max (-((s.cfg.fl - 1 : Nat) : Int)) (min ((s.cfg.fl - 1 : Nat) : Int)
            (x + (((trimLength s.cfg t.tim.lastMedian).1 : Int) - (s.cfg.fl : Int))))) ∧
        (t.ros.entry n).age =
          if (s.ros.entry n).offset = none then (s.ros.entry n).age
          else min 255 ((s.ros.entry n).age + 1)) ∧
      t.ros.frameStarts = s.ros.frameStarts + 1 ∧
      t.rx = s.rx ∧ t.lpt = s.lpt ∧ t.mem = s.mem ∧ t.line = s.line ∧ t.pending = s.pending

/-- A frame start is due at the next line start (R82, R84): at the end line, or by a pending realignment to
line 0 with half a frame elapsed. -/
def dueFrameStart (s : State) : Prop :=
  settled s ∧ s.scn.timer = .running ∧
    (s.scn.currentLine + 1 = s.scn.endLine ∨
      (s.scn.realign = some 0 ∧ s.cfg.fl / 2 ≤ s.scn.elapsed))

/-- The swap of a frame start (R43, R62, R88, R89), one at the end line and one made by a realignment alike,
in UNSET and in SET: with the head of the schedule due at the count of the new frame, its buffer becomes
SHOWING, every other SHOWING buffer and every READY buffer of an older tag becomes FREE, these and no others
leave the own ready list, the head leaves the schedule, the shown tag and shown-since follow, SWAP is
asserted, and one swap and the frames passed over are counted; with no head due no swap is carried out. -/
def Obligations.SwapExecutesAtItsCount : Prop :=
  ∀ s t : State, dueFrameStart s → exec .frameStart s = .next t →
    (∀ e rest i, s.agr.schedule = e :: rest → e.time = t.tim.count →
      s.buf.findReady e.tag = some i →
      let older := fun k : BufferId => s.buf.records[k].state = .ready ∧
        ∃ tag, s.buf.records[k].tag = some tag ∧ isOlder tag e.tag = true
      t.buf.shownTag = some e.tag ∧ t.buf.shownSince = some t.tim.count ∧
      t.buf.records[i].state = .showing ∧ t.buf.records[i].readyStamp = none ∧
      t.buf.records[i].pinned = false ∧
      (∀ k : BufferId, k ≠ i →
        (s.buf.records[k].state = .showing ∨ older k → t.buf.records[k] = .free) ∧
        (s.buf.records[k].state = .filling → t.buf.records[k].state ∈ [BufferState.filling, .free])) ∧
      (∀ k : BufferId, k ∈ t.buf.ready ↔ k ∈ s.buf.ready ∧ k ≠ i ∧ ¬ older k) ∧
      ((∀ x ∈ rest, x.tag ≠ e.tag) →
        (∀ k : BufferId, k ≠ i → s.buf.records[k].state = .ready →
          s.buf.records[k].tag ≠ some e.tag) →
        (∀ k ∈ s.buf.ready, s.buf.records[k].state = .ready) →
        ∀ x ∈ t.agr.schedule, x.tag ≠ e.tag) ∧
      t.scn.swapLine = true ∧ t.scn.swapThisFrame = true ∧
      t.flt.eventCounters[(4 : Fin 8)] = min 65535 (s.flt.eventCounters[(4 : Fin 8)] + 1) ∧
      t.flt.eventCounters[(5 : Fin 8)] =
        min 65535 (s.flt.eventCounters[(5 : Fin 8)] + s.buf.passedOverCount e.tag i)) ∧
    (s.agr.schedule = [] ∨ (∃ e rest, s.agr.schedule = e :: rest ∧ e.time ≠ t.tim.count) →
      t.buf.shownTag = s.buf.shownTag ∧ t.buf.shownSince = s.buf.shownSince ∧
      t.buf.ready = s.buf.ready ∧ t.scn.swapLine = false ∧ t.scn.swapThisFrame = false ∧
      t.flt.eventCounters = s.flt.eventCounters)

/-- The self state at a frame start, in whatever order its hand-offs are taken: LISTEN becomes JOINING at
frame-start count LF+1, with the standing JOIN owed (R3, R4, R98); JOINING becomes MEMBER where the count is
not before own joined-at (R5); LEAVING becomes DETACHED where the count is not before own absent-from + 2
(R7), with the schedule emptied and, where schedule and pool agree, no buffer pinned (R24), capture stopped
without a fault (R77; that a write in progress keeps the capture state FILLING until it completes is log entry
31) and the transmit side stopped (R152); no other state changes. The heartbeat count rises by 1, stopping at
HB, and the frame start that raises it to HB owes the standing message (R142). -/
def Obligations.SelfStateAtAFrameStart : Prop :=
  ∀ s t : State, dueFrameStart s → exec .frameStart s = .next t →
    let lone := s.ros.frameStarts = BitVec.ofNat 32 s.cfg.lf
    let gone := ∃ a, s.ros.ownAbsent = some a ∧
      notBefore t.tim.count (a + BitVec.ofNat 32 2) = true
    t.ros.ownJoined = s.ros.ownJoined ∧ t.ros.ownAbsent = s.ros.ownAbsent ∧
    (s.ros.self ∈ [SelfState.config, .member, .evicted, .detached] → t.ros.self = s.ros.self) ∧
    (s.ros.self = .listen → ¬ lone → t.ros.self = .listen) ∧
    (s.ros.self = .listen → lone →
      t.ros.self = .joining ∧ t.tx.queue.any QueueEntry.isStanding = true ∧ t.tx.heartbeat ≤ 1) ∧
    (s.ros.self = .joining →
      ((∃ j, s.ros.ownJoined = some j ∧ notBefore t.tim.count j = true) → t.ros.self = .member) ∧
      ((∀ j, s.ros.ownJoined = some j → notBefore t.tim.count j = false) → t.ros.self = .joining)) ∧
    (s.ros.self = .leaving → ¬ gone → t.ros.self = .leaving) ∧
    (s.ros.self = .leaving → gone →
      t.ros.self = .detached ∧ t.agr.schedule = [] ∧
      (poolLaw s.buf = true → orderLaw s.buf = true → scheduleLaw s = true →
        ∀ i : BufferId, t.buf.records[i].pinned = false) ∧
      t.cap.held = none ∧ t.cap.discardAfterRelease = false ∧
      (s.cap.state ≠ .filling ∨ (s.cap.aborting = none ∧ s.scn.writing = false) →
        t.cap.state = .idle) ∧
      (s.cap.state = .filling → (s.cap.aborting ≠ none ∨ s.scn.writing = true) →
        t.cap.state = .filling ∧ t.cap.aborting = some .idle) ∧
      (∀ i, s.cap.state = .filling → s.cap.aborting = none → s.scn.writing = false →
        s.buf.find .filling = some i → t.buf.records[i] = .free) ∧
      (∀ k ∈ [FaultKind.inputDrop, .inputBad, .inputStale, .inputOverrun],
        t.flt.faultCounters[k.number] = s.flt.faultCounters[k.number]) ∧
      t.tx.queue = [] ∧ t.tx.state = .txIdle ∧ t.tx.backoffCount = 0 ∧ t.tx.inFlight = none ∧
      t.tx.jamEntry = none ∧ t.tx.slotRunning = false ∧
      t.tx.seq = s.tx.seq) ∧
    (s.ros.self.active = false → ¬ (s.ros.self = .listen ∧ lone) →
      t.tx.heartbeat = s.tx.heartbeat) ∧
    (s.ros.self.active = true → t.ros.self ≠ .detached →
      t.tx.heartbeat = (if s.tx.heartbeat < s.cfg.hb then s.tx.heartbeat + 1 else s.tx.heartbeat) ∧
      (s.tx.heartbeat + 1 = s.cfg.hb → t.tx.queue.any QueueEntry.isStanding = true))

/-- The trim decision (R110): the length of the new frame by the median, bounded for a snap, and SNAP
raised at each frame start that chooses a snap. -/
def Obligations.TrimFollowsTheTable : Prop :=
  (∀ (c : StationConfig) (m : Int), validConfig c = true →
    ((c.snap : Int) < m ∨ m < -(c.snap : Int) →
      (trimLength c m).2 = true ∧
      ((trimLength c m).1 : Int) =
        max ((c.fl / 2 : Nat) : Int) (min ((c.fl + c.fl / 2 : Nat) : Int) ((c.fl : Int) - m))) ∧
    ((c.db : Int) < m → m ≤ (c.snap : Int) → trimLength c m = (c.fl - 1, false)) ∧
    (m < -(c.db : Int) → -(c.snap : Int) ≤ m → trimLength c m = (c.fl + 1, false)) ∧
    (-(c.db : Int) ≤ m → m ≤ (c.db : Int) → trimLength c m = (c.fl, false)) ∧
    c.fl / 2 ≤ (trimLength c m).1 ∧ (trimLength c m).1 ≤ c.fl + c.fl / 2) ∧
  (∀ s : State, let after := timingFrameStart s
    after.2 = (trimLength s.cfg after.1.tim.lastMedian).1 ∧
    after.1.flt = if (trimLength s.cfg after.1.tim.lastMedian).2 then s.flt.raise [.snap] else s.flt)

/-- The median of a trim decision (R97, R109), which a frame start records as the last median, at the count of
the new frame and after every stored offset has aged: the value at position ⌊(n−1)/2⌋ of the usable offsets
and the value 0 in ascending order; an offset is usable when it is there, its age is not above HB+2, its
station is a voter at the new count and its entry is not QUIET. -/
def Obligations.TrimMedianIsTheLowerMiddle : Prop :=
  (∀ (s : State) (g : Count), ∃ sorted : List Int,
    sorted.Perm (0 :: stations.filterMap (usableOffset s g)) ∧ sorted.Pairwise (· ≤ ·) ∧
    1 ≤ sorted.length ∧ sorted.length ≤ 16 ∧
    sorted[(sorted.length - 1) / 2]? = some (trimMedian s g)) ∧
  (∀ (s : State) (g : Count) (n : Station) (x : Int), usableOffset s g n = some x ↔
    (s.ros.entry n).offset = some x ∧ n ≠ s.cfg.station ∧ (s.ros.entry n).age ≤ s.cfg.hb + 2 ∧
    isVoter s g n = true ∧ (s.ros.entry n).state ≠ .quiet) ∧
  (∀ s t : State, dueFrameStart s → exec .frameStart s = .next t →
    let older := fun e : RosterEntry =>
      { e with age := if e.offset = none then e.age else min 255 (e.age + 1) }
    t.tim.lastMedian =
      trimMedian { s with ros := { s.ros with roster := s.ros.roster.map older } } t.tim.count)

/-- Adoption and the forward jump (R101 to R105): a message that TIM uses in UNSET, or with a stamp 2 or
more ahead, sets the count to the group position's at the application line start, or to one less where a
frame start comes first, makes the realignment request with the line p, and discards every stored offset; a
jump raises COUNT_JUMP and an adoption sets the count state. That the request stands in `arriving` first, with
the Scan-out Unit unchanged, and reaches it by `placeRequest`, is the model's choice of log entry 26, from
R94, R112 and chapters 5.6 and 6.5; R103 says that the claim places it. -/
def Obligations.AdoptionAndJumpTakeTheGroupPosition : Prop :=
  ∀ (s : State) (m : Message) (rt : ReceiveTiming), s.tim.realignPending = false →
    rt.realignNumber = s.tim.realignNumber →
    let ahead := decide (2 ≤ (m.stamp - rt.count).toInt)
    let adopts := decide (rt.countState = .unset ∧ s.tim.countState = .unset)
    let jumps := ahead && decide (s.tim.countState = .set)
    let next := decide (s.scn.currentLine + 1 = s.scn.endLine)
    let lines := m.phase +
      (s.tim.lineStarts + (if next then 2#32 else 1#32) - rt.lineStarts).toNat
    let n : Count := m.stamp + BitVec.ofNat 32 (lines / s.cfg.fl)
    let p := lines % s.cfg.fl
    adopts = true ∨ jumps = true →
    let t := timingMessage s m rt
    t.tim = { s.tim with
      count := if !next && (decide (p ≠ 0) || decide (s.scn.elapsed < s.cfg.fl / 2)) then n else n - 1
      countState := .set, realignPending := true } ∧
    t.scn = s.scn ∧ t.arriving = { s.arriving with request := some p } ∧
    (placeRequest t).scn = { s.scn with realign := some p } ∧ (0 < s.cfg.fl → p < s.cfg.fl) ∧
    (∀ k : Station, t.ros.entry k = { s.ros.entry k with offset := none, age := 0 }) ∧
    t.ros.self = s.ros.self ∧ t.ros.frameStarts = s.ros.frameStarts ∧
    t.flt = (if adopts then s.flt else s.flt.raise [.countJump]) ∧
    t.agr = s.agr ∧ t.buf = s.buf ∧ t.cap = s.cap ∧ t.rx = s.rx ∧ t.tx = s.tx ∧ t.mem = s.mem

/-- A message that TIM uses with a stamp 2 or more behind the noted count is not used for timing: the
count is not moved, no offset is stored, the sender's stored offset and age stay, and no fault is raised
(R107). One with a stamp at most 1 away stores the phase offset d × FL + (P − l0), bounded to ±(FL−1), in the
sender's entry with age 0, and changes nothing else (R108). A message that TIM does not use, by a pending
realignment, an older realignment number, or a lone start made while it was received, changes nothing
(R101). -/
def Obligations.StampWithinOneStoresTheOffset : Prop :=
  ∀ (s : State) (m : Message) (rt : ReceiveTiming),
    let d := (m.stamp - rt.count).toInt
    let bound : Int := ((s.cfg.fl - 1 : Nat) : Int)
    let used := s.tim.realignPending = false ∧ rt.realignNumber = s.tim.realignNumber
    (s.tim.countState = .set → d ≤ -2 → timingMessage s m rt = s) ∧
    (¬ used → timingMessage s m rt = s) ∧
    (rt.countState = .unset → s.tim.countState = .set → d < 2 → timingMessage s m rt = s) ∧
    (used → rt.countState = .set → s.tim.countState = .set → -1 ≤ d → d ≤ 1 →
      let t := timingMessage s m rt
      t = { s with ros := t.ros } ∧ t.ros = { s.ros with roster := t.ros.roster } ∧
      (t.ros.entry m.sender).age = 0 ∧
      (t.ros.entry m.sender).offset = some
        (max (-bound) (min bound (d * (s.cfg.fl : Int) + ((m.phase : Int) - (rt.line : Int))))) ∧
      t.ros.entry m.sender =
        { s.ros.entry m.sender with offset := (t.ros.entry m.sender).offset, age := 0 } ∧
      ∀ k, k ≠ m.sender → t.ros.entry k = s.ros.entry k)

/-! ## Input capture and the frame memory port -/

/-- The outcome of the staleness check of a tag against the tags held (R50, R70): a tag newer than every one
of them passes, and one that is not newer than the newest of them fails. Any other tag, newer than the newest
but not than every one, passes by R70 and not by R50, and is left open (log entry 18). -/
def stalenessAllows (held : List Tag) (tag : Tag) (fresh : Bool) : Prop :=
  ((∀ x ∈ held, isNewer tag x = true) → fresh = true) ∧
  ∀ newest ∈ held, (∀ x ∈ held, x = newest ∨ isNewer newest x = true) → isNewer tag newest = false →
    fresh = false

/-- BEGIN_MARKER in IDLE or DISCARD (R52 to R54, R70): a tag that fails the staleness check against the own
shown tag and the own ready tags is stale, whose outcome between R50 and R70 is log entry 18; otherwise the
lowest-numbered FREE buffer is granted while the ready list holds fewer than 3 tags, or under LATEST the
oldest READY buffer that is not pinned is reclaimed, the ready list's first such, or the frame is dropped. A
reclaim is one buffer dropped, an occasion of evaluation and a standing trigger (R53). The received and
timeout counts of 0 in DISCARD are log entry 12. -/
def Obligations.BeginMarkerInIdle : Prop :=
  ∀ (s : State) (tag : Tag), settled s → s.ros.self.active = true →
    s.cap.state ≠ .filling → s.cap.held = none → s.cap.fifo = [] → s.buf.find .filling = none →
    ∃ fresh : Bool, stalenessAllows (s.buf.shownTag.toList ++ s.buf.readyList.map (·.tag)) tag fresh ∧
    let filling : BufferRecord := { state := .filling, tag := some tag, readyStamp := none
                                    lineCount := 0, pinned := false }
    let discarded := { s.cap with state := .discard, closing := false, tag := none, buffer := none
                                  received := 0, timeout := 0, aborting := none }
    let taken := fun i => { s.cap with state := .filling, closing := false, tag := some tag
                                       buffer := some i, received := 0, timeout := 0, aborting := none }
    (fresh = false → exec (.beginMarker tag) s = .next
      { s with cap := discarded, flt := s.flt.raise [.inputStale] }) ∧
    (∀ i, fresh = true → s.buf.ready.length < 3 → s.buf.find .free = some i →
      exec (.beginMarker tag) s = .next
        { s with cap := taken i
                 buf := { s.buf with records := s.buf.records.set i.val filling } }) ∧
    (fresh = true → (3 ≤ s.buf.ready.length ∨ s.buf.find .free = none) →
      (s.cfg.policy = .fifo ∨ s.buf.ready.all (fun i => s.buf.records[i].pinned) = true) →
      exec (.beginMarker tag) s = .next
        { s with cap := discarded, flt := s.flt.raise [.inputDrop] }) ∧
    (∀ i, fresh = true → (3 ≤ s.buf.ready.length ∨ s.buf.find .free = none) → s.cfg.policy = .latest →
      s.buf.ready.find? (fun i => !s.buf.records[i].pinned) = some i → ∃ t,
      exec (.beginMarker tag) s = .next t ∧
      (let reclaimed := { s with
         cap := taken i, flt := s.flt.count .dropped 1
         buf := { s.buf with records := s.buf.records.set i.val filling
                             ready := s.buf.ready.filter (· ≠ i) } }
       let w := evaluate reclaimed
       t = { reclaimed with agr := w.agr, buf := w.buf, flt := w.flt, tx := s.tx.owe s.ros.self true }) ∧
      t.cap = taken i ∧ t.buf.ready = s.buf.ready.filter (· ≠ i) ∧ t.buf.records[i] = filling ∧
      t.buf.shownTag = s.buf.shownTag ∧ t.buf.shownSince = s.buf.shownSince ∧
      t.flt.eventCounters[(6 : Fin 8)] = min 65535 (s.flt.eventCounters[(6 : Fin 8)] + 1) ∧
      t.ros = s.ros ∧ t.tim = s.tim ∧ t.scn = s.scn ∧ t.rx = s.rx ∧ t.lpt = s.lpt ∧ t.mem = s.mem)

/-- INPUT_LINE (R69, R71, R73): ignored outside FILLING and where capture does not run; a line of the
frame in FILLING joins the FIFO for its slot, or ends the frame with INPUT_BAD past AL lines and with
INPUT_OVERRUN at a full FIFO. The counts cleared when the frame ends are log entry 12. -/
def Obligations.InputLineOutcomes : Prop :=
  ∀ (s : State) (data : LineData), settled s →
    (s.ros.self.active = false ∨ s.cap.state ≠ .filling → exec (.inputLine data) s = .next s) ∧
    (s.ros.self.active = true → s.cap.state = .filling → s.cap.held = none → s.cap.closing = false →
      s.cap.aborting = none →
      let keeps := decide (s.cap.received < s.cfg.al) && decide (s.cap.fifo.length < 4)
      let line : FifoLine := { owner := .current, slot := s.cap.received, data := data }
      let queued := { s with cap := { s.cap with fifo := s.cap.fifo ++ [line]
                                                 received := s.cap.received + 1 } }
      (keeps = true → (s.scn.writing = true ∨ s.scn.writeWaiting ≠ none) →
        exec (.inputLine data) s = .next queued) ∧
      (∀ b, keeps = true → s.scn.writing = false → s.scn.writeWaiting = none →
        s.cap.buffer = some b → s.cap.fifo = [] →
        let w : LineWrite := { addr := { buffer := b, slot := s.cap.received }, data := data
                               abandoned := false }
        exec (.inputLine data) s = .next
          (if s.scn.port = .idle then { queued with scn := { s.scn with port := .write w } }
           else { queued with scn := { s.scn with writeWaiting := some w } })) ∧
      (keeps = false →
        let raised := s.flt.raise
          [if s.cfg.al ≤ s.cap.received then FaultKind.inputBad else .inputOverrun]
        let rest := s.cap.fifo.filter (fun l => l.owner ≠ .current)
        (s.scn.writing = true → exec (.inputLine data) s = .next
          { s with flt := raised, cap := { s.cap with fifo := rest, aborting := some .discard }
                   scn := { s.scn with writeWaiting := none } }) ∧
        (s.scn.writing = false → exec (.inputLine data) s = .next
          { s with flt := raised, buf := s.buf.abort
                   cap := { s.cap with state := .discard, tag := none, buffer := none, received := 0
                                       timeout := 0, fifo := rest, discardAfterRelease := false }
                   scn := { s.scn with writeWaiting := none } })))

/-- END_MARKER (R37, R50, R57, R72, R73): ignored in IDLE, the end of a discard in DISCARD; in FILLING a
short frame is aborted with INPUT_BAD, a whole one waits for its writes, and one whose lines are all written
becomes READY at the current count and joins the own ready list at the tail, which is an occasion of
evaluation and a standing trigger. The counts cleared when the frame ends are log entry 12. -/
def Obligations.EndMarkerOutcomes : Prop :=
  ∀ s : State, settled s → s.ros.self.active = true →
    (s.cap.state = .idle → exec .endMarker s = .next s) ∧
    (s.cap.state = .discard → exec .endMarker s = .next
      { s with cap := { s.cap with state := .idle, closing := false, tag := none, buffer := none
                                   received := 0, timeout := 0, aborting := none } }) ∧
    (s.cap.state = .filling → s.cap.held = none → s.cap.closing = false → s.cap.aborting = none →
      let rest := s.cap.fifo.filter (fun l => l.owner ≠ .current)
      (s.cap.received ≠ s.cfg.al → s.scn.writing = false → s.cap.discardAfterRelease = false →
        exec .endMarker s = .next
          { s with flt := s.flt.raise [.inputBad], buf := s.buf.abort
                   cap := { s.cap with state := .idle, tag := none, buffer := none, received := 0
                                       timeout := 0, fifo := rest }
                   scn := { s.scn with writeWaiting := none } }) ∧
      (s.cap.received ≠ s.cfg.al → s.scn.writing = true → exec .endMarker s = .next
        { s with flt := s.flt.raise [.inputBad]
                 cap := { s.cap with fifo := rest, aborting := some .idle }
                 scn := { s.scn with writeWaiting := none } }) ∧
      (s.cap.received = s.cfg.al → s.cap.fifo.any (fun l => l.owner = .current) = true →
        exec .endMarker s = .next { s with cap := { s.cap with closing := true } }) ∧
      (∀ i, s.cap.received = s.cfg.al → s.cap.fifo.any (fun l => l.owner = .current) = false →
        s.cap.discardAfterRelease = false → s.buf.find .filling = some i → ∃ t,
        exec .endMarker s = .next t ∧ t.buf.ready = s.buf.ready ++ [i] ∧
        t.buf.records[i].state = .ready ∧ t.buf.records[i].readyStamp = some s.tim.count ∧
        t.buf.records[i].tag = s.buf.records[i].tag ∧
        t.buf.records[i].lineCount = s.buf.records[i].lineCount ∧
        t.buf.shownTag = s.buf.shownTag ∧ t.buf.shownSince = s.buf.shownSince ∧
        t.cap = { s.cap with state := .idle, closing := false, tag := none, buffer := none
                             received := 0, timeout := 0 } ∧
        (let done : BufferRecord :=
           { s.buf.records[i] with state := .ready, readyStamp := some s.tim.count }
         let u := { s with buf := { s.buf with records := s.buf.records.set i.val done
                                               ready := s.buf.ready ++ [i] } }
         t.agr = (evaluate u).agr ∧ t.buf = (evaluate u).buf ∧ t.flt = (evaluate u).flt) ∧
        t.tx = s.tx.owe s.ros.self true ∧ t.ros = s.ros ∧ t.tim = s.tim ∧ t.scn = s.scn ∧ t.rx = s.rx ∧ t.lpt = s.lpt ∧
        t.mem = s.mem))

/-- CAPTURE_TIMEOUT (R75, R76): a frame in FILLING whose count stands at IT × FL is aborted with INPUT_BAD
and enters IDLE; a held frame whose count stands there is dropped with INPUT_BAD; with no count there
nothing has timed out (log entry 2). That the timeout is a step apart from the line start is log entry 10,
and the counts cleared at the abort are log entry 12. -/
def Obligations.CaptureTimeoutOutcomes : Prop :=
  ∀ s : State, settled s →
    let limit := s.cfg.it * s.cfg.fl
    let receives := s.cap.state = .filling ∧ s.cap.closing = false ∧ s.cap.aborting = none
    (receives → limit ≤ s.cap.timeout → s.cap.held = none → s.cap.discardAfterRelease = false →
      s.scn.writing = false → exec .captureTimeout s = .next
        { s with flt := s.flt.raise [.inputBad], buf := s.buf.abort
                 cap := { s.cap with state := .idle, tag := none, buffer := none, received := 0
                                     timeout := 0
                                     fifo := s.cap.fifo.filter (fun l => l.owner ≠ .current) }
                 scn := { s.scn with writeWaiting := none } }) ∧
    (receives → limit ≤ s.cap.timeout → s.scn.writing = true → exec .captureTimeout s = .next
      { s with flt := s.flt.raise [.inputBad]
               cap := { s.cap with fifo := s.cap.fifo.filter (fun l => l.owner ≠ .current)
                                   aborting := some .idle }
               scn := { s.scn with writeWaiting := none } }) ∧
    (∀ h, (¬ receives ∨ s.cap.timeout < limit) → s.cap.held = some h → limit ≤ h.timeout →
      exec .captureTimeout s = .next
        { s with flt := s.flt.raise [.inputBad]
                 cap := { s.cap with held := none
                                     fifo := s.cap.fifo.filter (fun l => l.owner ≠ .held) } }) ∧
    ((¬ receives ∨ s.cap.timeout < limit) → (∀ h, s.cap.held = some h → h.timeout < limit) →
      exec .captureTimeout s = .next s)

/-- CAPTURE_WRITE_COMPLETE (R56, R71, R78, R91): the line stands in its slot of frame memory and every other
slot reads as before; a write abandoned by RESTART counts nothing; the write of a frame in FILLING takes its
line from the FIFO and counts it, and the port takes a waiting read or, with more lines, the next line, and
with none goes IDLE. A slot that does not exist stops (log entry 27; the slot's number in memory is log entry
6), and with no write in progress nothing happens (log entry 2). -/
def Obligations.CaptureWriteLands : Prop :=
  ∀ s : State, settled s →
    ((∀ w, s.scn.port ≠ .write w) → exec .captureWriteComplete s = .next s) ∧
    (∀ w, s.scn.port = .write w → s.cfg.al ≤ w.addr.slot →
      exec .captureWriteComplete s = .fault (.noSuchSlot w.addr)) ∧
    (∀ w, s.scn.port = .write w → w.addr.slot < s.cfg.al → ∃ t,
      exec .captureWriteComplete s = .next t ∧
      readKey t.mem (slotKey w.addr) = some w.data ∧
      (∀ k, k ≠ slotKey w.addr → readKey t.mem k = readKey s.mem k) ∧
      t.ros = s.ros ∧ t.tim = s.tim ∧ t.rx = s.rx ∧ t.lpt = s.lpt ∧ t.line = s.line ∧
      (w.abandoned = true → s.cap.state ≠ .filling ∨ s.cap.fifo = [] ∨
          (∃ w', s.scn.writeWaiting = some w' ∧ w'.abandoned = false) →
        t = { s with mem := t.mem, scn := s.scn.transferDone }) ∧
      (∀ l i, w.abandoned = false → s.cap.state = .filling → s.cap.closing = false →
        s.cap.aborting = none → s.cap.fifo = [l] → s.buf.find .filling = some i →
        s.scn.writeWaiting = none →
        let counted : BufferRecord :=
          { s.buf.records[i] with lineCount := min s.cfg.al (s.buf.records[i].lineCount + 1) }
        t = { s with
          mem := t.mem, cap := { s.cap with fifo := [] }
          buf := { s.buf with records := s.buf.records.set i.val counted }
          scn := match s.scn.readWaiting with
            | some a => { s.scn with port := .read a, readWaiting := none }
            | none => { s.scn with port := .idle } }) ∧
      (∀ l l' rest i, w.abandoned = false → s.cap.state = .filling → s.cap.aborting = none →
        s.cap.fifo = l :: l' :: rest → l'.owner = .current → s.cap.buffer = some i →
        s.buf.find .filling = some i → s.scn.writeWaiting = none →
        t.cap = { s.cap with fifo := l' :: rest } ∧
        (let counted : BufferRecord :=
           { s.buf.records[i] with lineCount := min s.cfg.al (s.buf.records[i].lineCount + 1) }
         t.buf = { s.buf with records := s.buf.records.set i.val counted }) ∧
        (let next : LineWrite := { addr := { buffer := i, slot := l'.slot }, data := l'.data
                                   abandoned := false }
         t.scn = match s.scn.readWaiting with
          | some a => { s.scn with port := .read a, readWaiting := none, writeWaiting := some next }
          | none => { s.scn with port := .write next }) ∧
        t.agr = s.agr ∧ t.tx = s.tx ∧ t.flt = s.flt))

/-- The last write of a closing frame (R37, R50, R57, R71, R72): the frame becomes READY at the current count
and joins the own ready list at the tail, which is an occasion of evaluation and a standing trigger, and the
Capture Unit is IDLE, its counts 0 (log entry 12), or DISCARD where a held frame has been thrown away and its
end marker has not arrived (R75). -/
def Obligations.LastWriteCompletesTheFrame : Prop :=
  ∀ (s : State) (w : LineWrite) (l : FifoLine) (i : BufferId), settled s →
    s.scn.port = .write w → w.addr.slot < s.cfg.al → w.abandoned = false → s.cap.state = .filling →
    s.cap.closing = true → s.cap.aborting = none → s.cap.fifo = [l] → s.cap.held = none →
    s.buf.find .filling = some i → ∃ t,
    exec .captureWriteComplete s = .next t ∧
    t.buf.ready = s.buf.ready ++ [i] ∧ t.buf.records[i].state = .ready ∧
    t.buf.records[i].readyStamp = some s.tim.count ∧
    t.buf.records[i].tag = s.buf.records[i].tag ∧
    t.buf.records[i].lineCount = min s.cfg.al (s.buf.records[i].lineCount + 1) ∧
    t.buf.shownTag = s.buf.shownTag ∧
    t.cap = { s.cap with state := if s.cap.discardAfterRelease then .discard else .idle
                         discardAfterRelease := false, closing := false, tag := none, buffer := none
                         received := 0, timeout := 0, fifo := [] } ∧
    (let done : BufferRecord := { s.buf.records[i] with
       state := .ready, readyStamp := some s.tim.count
       lineCount := min s.cfg.al (s.buf.records[i].lineCount + 1) }
     let u := { s with buf := { s.buf with records := s.buf.records.set i.val done
                                           ready := s.buf.ready ++ [i] } }
     t.agr = (evaluate u).agr ∧ t.buf = (evaluate u).buf ∧ t.flt = (evaluate u).flt) ∧
    t.tx = s.tx.owe s.ros.self true ∧ t.ros = s.ros ∧
    t.scn = s.scn.transferDone ∧ readKey t.mem (slotKey w.addr) = some w.data

/-- What follows a capture whose frame is given up, held back or waited for (R69, R72, R74, R75). Where
capture does not run, input events change nothing. BEGIN_MARKER in FILLING aborts the frame with INPUT_BAD
and is handled as in IDLE, or is held while the abort waits for its write; while the release of a frame is
awaited it is held with counts 0, and a second one gives up the frame held before it with INPUT_BAD. The
lines of a held frame join the FIFO behind the others or overrun it; an end marker drops a held frame with
INPUT_BAD. With none held, a line is dropped, and an end marker ends a held frame thrown away and makes IDLE
of a DISCARD that the waiting abort names. A marker that is held ends a frame thrown away before it (log
entry 11), and the counts cleared at the abort are log entry 12. That an abort which a begin marker causes
names IDLE, and that one end marker both ends a held frame thrown away and makes IDLE of the abort's result,
is the model's reading (log entry 16). -/
def Obligations.HeldBeginCourse : Prop :=
  ∀ s : State, settled s →
    (s.ros.self.active = false →
      (∀ tag, exec (.beginMarker tag) s = .next s) ∧ (∀ data, exec (.inputLine data) s = .next s) ∧
      exec .endMarker s = .next s) ∧
    (s.ros.self.active = true → s.cap.state = .filling →
      let others := s.cap.fifo.filter (fun l => l.owner ≠ .held)
      let releasing := s.cap.closing = true ∨ s.cap.aborting ≠ none
      let holding := fun tag : Tag => some { tag := tag, received := 0, timeout := 0 : HeldBegin }
      (∀ tag, releasing →
        let holds := { s.cap with held := holding tag, fifo := others, discardAfterRelease := false }
        (s.cap.held = none → exec (.beginMarker tag) s = .next { s with cap := holds }) ∧
        (s.cap.held ≠ none → exec (.beginMarker tag) s = .next
          { s with cap := holds, flt := s.flt.raise [.inputBad] })) ∧
      (∀ tag, ¬ releasing → s.cap.held = none → s.scn.writing = true →
        exec (.beginMarker tag) s = .next
          { s with flt := s.flt.raise [.inputBad], scn := { s.scn with writeWaiting := none }
                   cap := { s.cap with fifo := [], aborting := some .idle, held := holding tag
                                       discardAfterRelease := false } }) ∧
      (∀ tag, ¬ releasing → s.cap.held = none → s.cap.discardAfterRelease = false →
        s.scn.writing = false →
        exec (.beginMarker tag) s = exec (.beginMarker tag)
          { s with flt := s.flt.raise [.inputBad], buf := s.buf.abort
                   cap := { s.cap with state := .idle, tag := none, buffer := none, received := 0
                                       timeout := 0
                                       fifo := s.cap.fifo.filter (fun l => l.owner ≠ .current) }
                   scn := { s.scn with writeWaiting := none } }) ∧
      (∀ h, s.cap.held = some h →
        (∀ data, s.cap.fifo.length < 4 → exec (.inputLine data) s = .next
          { s with cap := { s.cap with
              fifo := s.cap.fifo ++ [{ owner := .held, slot := h.received, data := data }]
              held := some { h with received := h.received + 1 } } }) ∧
        (∀ data, 4 ≤ s.cap.fifo.length → exec (.inputLine data) s = .next
          { s with flt := s.flt.raise [.inputOverrun]
                   cap := { s.cap with held := none, fifo := others, discardAfterRelease := true } }) ∧
        exec .endMarker s = .next
          { s with flt := s.flt.raise [.inputBad]
                   cap := { s.cap with held := none, fifo := others } }) ∧
      (s.cap.held = none → releasing →
        (∀ data, exec (.inputLine data) s = .next s) ∧
        exec .endMarker s = .next
          { s with cap := { s.cap with discardAfterRelease := false
                                       aborting := s.cap.aborting.map fun _ => .idle } }))

/-- The write that a release waits for (R72, R75): with an abort waiting, the buffer is freed and the capture
state becomes the one the abort names, DISCARD where a held frame has been thrown away, or a held begin is
taken up with its counts; a held begin is taken up too behind a completion, where its tag is checked against
the completed tag as well (R70; where R50 and R70 differ, log entry 18). A held begin taken up is stale, is
dropped for want of a buffer, or enters FILLING with its lines. Behind a completion the evaluation and the
take-up are taken in either order (R39, R61): a reclaim takes the first buffer of the ready list that is not
pinned, at the completion where it comes first and as the evaluation leaves the pins where it comes second, so
that the orders can differ in whether it finds a buffer and in which. The counts of 0 in IDLE and DISCARD are
log entry 12. -/
def Obligations.ReleaseTakesUpTheHeldBegin : Prop :=
  ∀ (s : State) (w : LineWrite), settled s → s.scn.port = .write w → w.addr.slot < s.cfg.al →
    w.abandoned = false → s.cap.state = .filling → s.scn.writeWaiting = none →
    let mem := writeKey s.mem (slotKey w.addr) w.data
    let bare := { s.cap with closing := false, tag := none, buffer := none, received := 0
                             timeout := 0, aborting := none, discardAfterRelease := false }
    (∀ r, s.cap.aborting = some r → s.cap.held = none →
      exec .captureWriteComplete s = .next
        { s with mem := mem, scn := s.scn.transferDone, buf := s.buf.abort
                 cap := { bare with
                   state := if s.cap.discardAfterRelease = true then .discard
                     else match r with
                       | .idle => .idle
                       | .discard => .discard } }) ∧
    (∀ r h, s.cap.aborting = some r → s.cap.held = some h → s.buf.ready.length < 3 →
      s.cap.discardAfterRelease = false →
      let freed := s.buf.abort
      ∃ fresh : Bool,
      stalenessAllows (freed.shownTag.toList ++ freed.readyList.map (·.tag)) h.tag fresh ∧
      (fresh = false → exec .captureWriteComplete s = .next
        { s with mem := mem, scn := s.scn.transferDone, buf := freed, flt := s.flt.raise [.inputStale]
                 cap := { bare with state := .discard, held := none
                                    fifo := s.cap.fifo.filter (fun l => l.owner ≠ .held) } }) ∧
      let granted : BufferRecord := { state := .filling, tag := some h.tag, readyStamp := none
                                      lineCount := 0, pinned := false }
      (∀ i, fresh = true → freed.find .free = some i → freed.find .filling = none → ∃ t,
        exec .captureWriteComplete s = .next t ∧
        t = { s with mem := mem, scn := t.scn
                     buf := { freed with records := freed.records.set i.val granted }
                     cap := { bare with
                       tag := some h.tag, buffer := some i, received := h.received
                       timeout := h.timeout, held := none
                       fifo := s.cap.fifo.map fun l => { l with owner := .current } } } ∧
        (s.cap.fifo = [] → t.scn = s.scn.transferDone) ∧
        (∀ l rest, s.cap.fifo = l :: rest →
          let first : LineWrite := { addr := { buffer := i, slot := l.slot }, data := l.data
                                     abandoned := false }
          t.scn = match s.scn.readWaiting with
            | some a => { s.scn with port := .read a, readWaiting := none, writeWaiting := some first }
            | none => { s.scn with port := .write first }))) ∧
    (∀ h l rest i tag, s.cap.aborting = none → s.cap.closing = true → s.cap.held = some h →
      s.cap.fifo = l :: rest → (∀ x ∈ rest, x.owner = .held) → s.buf.find .filling = some i →
      s.buf.records[i].tag = some tag → (∀ k : BufferId, k ≠ i → s.buf.records[k].state ≠ .filling) →
      ∃ t, exec .captureWriteComplete s = .next t ∧ ∃ fresh : Bool,
      stalenessAllows (s.buf.shownTag.toList ++ s.buf.readyList.map (·.tag) ++ [tag]) h.tag fresh ∧
      let ready := s.buf.ready ++ [i]
      let done : BufferRecord := { s.buf.records[i] with
        state := .ready, readyStamp := some s.tim.count
        lineCount := min s.cfg.al (s.buf.records[i].lineCount + 1) }
      let completed :=
        { s with buf := { s.buf with records := s.buf.records.set i.val done, ready := ready } }
      let reclaimable := fun u : State => ready.find? fun j => !u.buf.records[j].pinned
      let takes := t.cap.state = .filling ∧ t.cap.tag = some h.tag ∧
        t.cap.received = h.received ∧ t.cap.timeout = h.timeout ∧
        t.cap.fifo = rest.map fun x => { x with owner := .current }
      let drops := t.cap.state = .discard ∧ t.cap.tag = none ∧ t.cap.received = 0 ∧
        t.cap.timeout = 0 ∧ t.cap.fifo = [] ∧ t.buf.ready = ready
      t.mem = mem ∧ t.cap.held = none ∧ t.cap.closing = false ∧ t.cap.aborting = none ∧
      t.buf.shownTag = s.buf.shownTag ∧
      (fresh = false → drops ∧
        t.flt.faultCounters[(18 : Fin 21)] = min 255 (s.flt.faultCounters[(18 : Fin 21)] + 1)) ∧
      (∀ k, fresh = true → s.buf.ready.length < 2 → s.buf.find .free = some k →
        takes ∧ t.cap.buffer = some k ∧ t.buf.ready = ready ∧ t.buf.records[k].state = .filling ∧
        t.buf.records[k].tag = some h.tag) ∧
      (fresh = true → (2 ≤ s.buf.ready.length ∨ s.buf.find .free = none) →
        (takes ∧ s.cfg.policy = .latest ∧
          (∃ k ∈ ready, (reclaimable completed = some k ∨ reclaimable (evaluate completed) = some k) ∧
            t.cap.buffer = some k ∧ t.buf.ready = ready.filter (· ≠ k) ∧
            t.buf.records[k].tag = some h.tag) ∧
          t.flt.eventCounters[(6 : Fin 8)] = min 65535 (s.flt.eventCounters[(6 : Fin 8)] + 1)) ∨
        (drops ∧ (s.cfg.policy = .fifo ∨ reclaimable completed = none ∨
            reclaimable (evaluate completed) = none) ∧
          t.flt.faultCounters[(16 : Fin 21)] = min 255 (s.flt.faultCounters[(16 : Fin 21)] + 1))))

/-- SCAN_OUT_READ_COMPLETE (R85, R91): the line of the slot goes out on the panel line that awaits it and
the port takes the next request, a waiting read before a waiting write; nothing else changes. A slot that
does not exist stops (log entry 27), with no read in progress nothing happens (log entry 2), and a read that
completes late delivers nothing (log entry 17). -/
def Obligations.ScanOutReadDelivers : Prop :=
  ∀ s : State, settled s →
    ((∀ a, s.scn.port ≠ .read a) → exec .scanOutReadComplete s = .next s) ∧
    (∀ a, s.scn.port = .read a → s.cfg.al ≤ a.slot →
      exec .scanOutReadComplete s = .fault (.noSuchSlot a)) ∧
    (∀ a, s.scn.port = .read a → a.slot < s.cfg.al → ∃ t,
      exec .scanOutReadComplete s = .next t ∧ t = { s with scn := t.scn } ∧
      t.scn = { s.scn with port := t.scn.port, readWaiting := none, writeWaiting := t.scn.writeWaiting
                           panel := t.scn.panel } ∧
      (∀ r, s.scn.readWaiting = some r →
        t.scn.port = .read r ∧ t.scn.writeWaiting = s.scn.writeWaiting) ∧
      (∀ w, s.scn.readWaiting = none → s.scn.writeWaiting = some w →
        t.scn.port = .write w ∧ t.scn.writeWaiting = none) ∧
      (s.scn.readWaiting = none → s.scn.writeWaiting = none →
        t.scn.port = .idle ∧ t.scn.writeWaiting = none) ∧
      (∀ mark, s.scn.panel = some { number := a.slot, frameStartMark := mark, content := .awaiting } →
        ∃ data, t.scn.panel = some { number := a.slot, frameStartMark := mark
                                     content := .picture data } ∧
          ∀ d, readKey s.mem (slotKey a) = some d → data = d) ∧
      ((∀ line, s.scn.panel = some line → line.content ≠ .awaiting ∨ line.number ≠ a.slot) →
        t.scn.panel = s.scn.panel))

/-! ## The tile bus, receive side -/

/-- The state in which a burst taken in RECEIVING has ended, before its outcome: the line and the receive
machine are idle, the bytes and flags cleared. -/
def burstOver (s : State) : State :=
  { s with
    line := .idle
    rx := { s.rx with state := .idle, bytes := [], overlong := false, trailingBits := false
                      invalidSymbol := false } }

/-- A burst is being taken: RECEIVING on a busy line that the own transmit machine does not drive. -/
def takesBurst (s : State) : Prop :=
  settled s ∧ s.line = .busy ∧ s.rx.state = .receiving ∧ s.tx.state ≠ .sending ∧
    s.tx.state ≠ .jamming

/-- LINE_BUSY (R100, R116, R144): in IDLE a burst begins and its receive timing is noted; a backoff slot
in progress is spoiled; on a line that is busy already nothing begins (log entry 2). BURST_END for a burst
that fails a check from 1 to 6 (R116, R121 to R123): the first failed check's outcome is its whole effect; a
burst of another group leaves no trace. In WAIT_IDLE the machine becomes IDLE (R115). -/
def Obligations.DiscardedBurstsLeaveOnlyTheirCount : Prop :=
  (∀ s : State, settled s →
    (s.line = .busy → exec .lineBusy s = .next s) ∧
    (s.line = .idle → exec .lineBusy s = .next
      { s with
        line := .busy
        tx := if s.tx.state = .backoff then { s.tx with slotRunning := false } else s.tx
        rx := if s.rx.state = .idle then
            { state := .receiving, bytes := [], overlong := false, trailingBits := false
              invalidSymbol := false
              timing := some { count := s.tim.count, line := s.scn.currentLine
                               lineStarts := s.tim.lineStarts
                               realignNumber := s.tim.realignNumber
                               countState := s.tim.countState } }
          else s.rx })) ∧
  ∀ (s : State) (b : Burst), s.rx.bytes = [] → s.rx.overlong = false → s.rx.invalidSymbol = false →
    (settled s → s.line = .busy → s.rx.state = .waitIdle → s.tx.state ≠ .sending →
      s.tx.state ≠ .jamming →
      exec (.burstEnd b) s = .next
        { s with line := .idle, rx := { s.rx with state := .idle } }) ∧
    (takesBurst s →
      let bytes := b.bytes.take 69
      let headed := !b.invalidSymbol && headerPasses bytes
      let known := headed && decide (headerKind bytes ∈ [1, 2, 3, 4])
      let grouped := known && decide (headerGroup bytes = s.cfg.group.val)
      (b.invalidSymbol = true → exec (.burstEnd b) s = .next
        { burstOver s with flt := s.flt.count .collisions 1 }) ∧
      (b.invalidSymbol = false → headerPasses bytes = false → exec (.burstEnd b) s = .next
        { burstOver s with flt := s.flt.raise [.hdrBad] }) ∧
      (headed = true → headerKind bytes ∉ [1, 2, 3, 4] → exec (.burstEnd b) s = .next
        { burstOver s with flt := s.flt.raise [.kindBad] }) ∧
      (known = true → headerGroup bytes ≠ s.cfg.group.val →
        exec (.burstEnd b) s = .next (burstOver s)) ∧
      (grouped = true → headerStation bytes = s.cfg.station → exec (.burstEnd b) s = .next
        { burstOver s with flt := s.flt.raise [.numberClash] }) ∧
      (grouped = true → headerStation bytes ≠ s.cfg.station →
        hasStation s.cfg.members (headerStation bytes) = false → exec (.burstEnd b) s = .next
        { burstOver s with flt := s.flt.raise [.alien] }))

/-- Checks 1 to 6 of a burst pass: its sender is another member of the own group (R121 to R123). -/
def senderKnown (s : State) (b : Burst) : Prop :=
  let bytes := b.bytes.take 69
  takesBurst s ∧ s.rx.bytes = [] ∧ s.rx.overlong = false ∧ s.rx.invalidSymbol = false ∧
    b.invalidSymbol = false ∧ headerPasses bytes = true ∧ headerKind bytes ∈ [1, 2, 3, 4] ∧
    headerGroup bytes = s.cfg.group.val ∧ headerStation bytes ≠ s.cfg.station ∧
    hasStation s.cfg.members (headerStation bytes) = true

/-- The body of a burst is whole (R125). -/
def wholeBody (b : Burst) : Prop :=
  b.bytes.length = headerLength b.bytes + 6 ∧ b.trailingBits = false ∧
    (bodyCheck ((b.bytes.drop 4).take (headerLength b.bytes))).toNat =
      field b.bytes (4 + headerLength b.bytes) 2

/-- BURST_END for a burst of a known sender X that fails a check from 7 to 9. One whose length or body is
wrong (R121, R124, R125, R129) raises the fault, and where the station may ask, a REPEAT entry for X joins the
tail of the queue, unless one for X is queued or 7 are queued, when one repeat lost is counted. The sequence
check (R126): the table of the acceptance window, and a duplicate discarded with one duplicate counted and
nothing else changed. -/
def Obligations.DamagedAndDuplicateBursts : Prop :=
  (∀ (s : State) (b : Burst), senderKnown s b →
    let bytes := b.bytes.take 69
    let x := headerStation bytes
    let lengthBad := lengthPasses bytes = false
    let repeats := s.tx.queue.filter (!·.isStanding)
    let bad := fun (k : FaultKind) (reason : RepeatReason) =>
      let raised := { burstOver s with flt := s.flt.raise [k] }
      (s.ros.self.active = false ∨ s.tx.queue.any (·.isRepeatFor x) = true →
        exec (.burstEnd b) s = .next raised) ∧
      (s.ros.self.active = true → s.tx.queue.any (·.isRepeatFor x) = false → 7 ≤ repeats.length →
        exec (.burstEnd b) s = .next
          { raised with flt := (s.flt.raise [k]).count .repeatsLost 1 }) ∧
      (s.ros.self.active = true → s.tx.queue.any (·.isRepeatFor x) = false → repeats.length < 7 →
        exec (.burstEnd b) s = .next
          { raised with tx := { s.tx with
              queue := s.tx.queue ++ [.fresh (.repeatTo x reason)]
              state := if s.tx.state = .txIdle then .waitGap else s.tx.state } })
    (lengthBad → bad .lenBad .lenBad) ∧
    (¬ lengthBad → (69 < b.bytes.length ∨ ¬ wholeBody b) → bad .bodyBad .bodyBad)) ∧
  (∀ (e : RosterEntry) (seq : Byte),
    (e.lastSeq = none → judgeSequence e seq = .new) ∧
    (∀ last, e.lastSeq = some last →
      (e.state = .expected ∨ e.state = .absent → judgeSequence e seq = .new) ∧
      (e.state ≠ .expected → e.state ≠ .absent →
        let k := (seq - last).toNat
        (k = 1 → judgeSequence e seq = .new) ∧
        (2 ≤ k → k ≤ 127 → judgeSequence e seq = .gap) ∧
        (k = 0 ∨ 128 ≤ k → judgeSequence e seq = .duplicate)))) ∧
  (∀ (s : State) (b : Burst), senderKnown s b → b.bytes.length ≤ 69 →
    lengthPasses b.bytes = true → wholeBody b →
    judgeSequence (s.ros.entry (headerStation b.bytes)) (b.bytes.getD 2 0#8) = .duplicate →
    exec (.burstEnd b) s = .next { burstOver s with flt := s.flt.count .duplicates 1 })

/-- The state in which BIU receive has recorded a message that passes the checks, before it is handed on
(R127): the burst is over, the sender's last message sequence is the message's, one message accepted is
counted, and a gap has raised SEQ_GAP. -/
def burstRecorded (s : State) (m : Message) (gap : Bool) : State :=
  let counted := s.flt.count .accepted 1
  { burstOver s with
    ros := s.ros.setEntry m.sender { s.ros.entry m.sender with lastSeq := some m.seq }
    flt := if gap then counted.raise [.seqGap] else counted }

/-- The message that a burst brings, at the Timing Unit with its receive timing. -/
def timedBy (s : State) (m : Message) : Option ReceiveTiming → State
  | none => s
  | some rt => timingMessage s m rt

/-- BURST_END for a burst that passes all ten checks (R14, R37, R45, R127), in every order of its hand-offs.
The sender's last message sequence is recorded and one message accepted is counted; capture, frame memory, the
port and the line timer's position are untouched. Where the own transmit start, a frame start or RESTART may
be taken first, hand-offs of the message are still on their way when the step ends (log entries 26, 30 and
34), and v is the state with all of them taken. There the message has been at the Roster Unit and at the
Timing Unit, which may take it in either order (the two differ only in the count that the Roster Unit compares
with); it has raised what these raise; a recorded STATE has met the swap split check; a JOIN, STATE or LEAVE
has been followed by an evaluation; and the transmit side has taken its claims (R130 to R132): the own waiting
requests for the sender and for a station that an accepted REPEAT names are removed, also the one for the
sender of a REPEAT that names no station (log entry 32), and a REPEAT naming the own station leaves a STANDING
entry queued. -/
def Obligations.AcceptedBurstIsRecorded : Prop :=
  ∀ (s : State) (b : Burst), senderKnown s b → b.bytes.length ≤ 69 → lengthPasses b.bytes = true →
    wholeBody b →
    let found := judgeSequence (s.ros.entry (headerStation b.bytes)) (b.bytes.getD 2 0#8)
    found ≠ .duplicate → ∃ t,
    exec (.burstEnd b) s = .next t ∧
    let m := readMessage b.bytes
    let u := burstRecorded s m (found == .gap)
    let timed := timedBy u m s.rx.timing
    let v := arrive Config.handoffChoice t
    m.sender = headerStation b.bytes ∧ m.seq = b.bytes.getD 2 0#8 ∧
    m.stamp = BitVec.ofNat 32 (field b.bytes 4 4) ∧
    -- at the end of the step
    (t.ros.entry m.sender).lastSeq = some m.seq ∧ t.flt.eventCounters = u.flt.eventCounters ∧
    t.rx = u.rx ∧ t.line = .idle ∧ t.cap = s.cap ∧ t.mem = s.mem ∧ t.lpt = s.lpt ∧
    t.scn = { s.scn with realign := t.scn.realign } ∧ t.pending = s.pending ∧
    (t.arriving.roster = none ∨ t.arriving.roster = some m) ∧
    (∀ x, t.arriving.timing = some x → x.1 = m ∧ s.rx.timing = some x.2) ∧
    (t.arriving.claims = [] ∨ t.arriving.claims = transmitClaims s.cfg m) ∧
    (s.tx.queue = [] → s.scn.currentLine + 1 ≠ s.scn.endLine → s.scn.elapsed < s.cfg.fl / 2 →
      s.lpt.phase ≠ .command → t.arriving = { Arrivals.nothing with request := t.arriving.request }) ∧
    (t.arriving = .nothing → v = t) ∧
    -- with all hand-offs taken
    v.arriving = .nothing ∧ v.tim = timed.tim ∧ v.scn = (placeRequest timed).scn ∧
    (v.ros = (rosterMessage timed m).ros ∨ v.ros = (timedBy (rosterMessage u m) m s.rx.timing).ros) ∧
    v.flt.eventCounters = u.flt.eventCounters ∧
    (∀ k : FaultKind, k ≠ .countJump → k ≠ .swapSplit → k ≠ .lateSwap →
      v.flt.faultCounters[k.number] = (rosterMessage u m).flt.faultCounters[k.number]) ∧
    v.flt.faultCounters[FaultKind.countJump.number] =
      timed.flt.faultCounters[FaultKind.countJump.number] ∧
    v.flt.faultCounters[FaultKind.swapSplit.number] =
      (match m.body, stateRecorded u m with
        | .state f, true => swapSplitCheck (rosterMessage u m) m.sender m.stamp f.shownTag
        | _, _ => u).flt.faultCounters[FaultKind.swapSplit.number] ∧
    (m.isOccasion = true → timed.tim = s.tim →
      v.agr = (evaluate (rosterMessage u m)).agr ∧ v.buf = (evaluate (rosterMessage u m)).buf) ∧
    (m.isOccasion = true → ∃ w : State, w.ros = v.ros ∧ w.tim = v.tim ∧ w.lpt = s.lpt ∧
      v.agr = (evaluate w).agr ∧ v.buf = (evaluate w).buf) ∧
    (m.isOccasion = false → timed.tim = s.tim → v.agr = s.agr ∧ v.buf = s.buf) ∧
    v.tx.queue.any (·.isRepeatFor m.sender) = false ∧
    ∀ target reason, m.body = .repeatRequest target reason →
      (∀ x : Station, target.toNat = x.val → x ≠ s.cfg.station →
        v.tx.queue.any (·.isRepeatFor x) = false) ∧
      (target.toNat = s.cfg.station.val → v.ros.self.active = true →
        v.tx.queue.any QueueEntry.isStanding = true)

/-! ## The Roster Unit -/

/-- The voter set (R20): station n is in V(g) exactly when its joined-at is set, g is not before it, and
its absent-from is none or g is before it, own joined-at and own absent-from for the own number; nothing
else of the state enters it. -/
def Obligations.VoterSetMembership : Prop :=
  (∀ (s : State) (g : Count) (n : Station), hasStation (voterSet s g) n = true ↔
    ∃ j : Count,
      (if n = s.cfg.station then s.ros.ownJoined else (s.ros.entry n).joinedAt) = some j ∧
      (g = j ∨ (1 ≤ (g - j).toNat ∧ (g - j).toNat < 2147483648)) ∧
      ∀ a : Count,
        (if n = s.cfg.station then s.ros.ownAbsent else (s.ros.entry n).absentFrom) = some a →
        1 ≤ (a - g).toNat ∧ (a - g).toNat < 2147483648) ∧
  (∀ (s t : State) (g : Count), s.cfg.station = t.cfg.station →
    s.ros.ownJoined = t.ros.ownJoined → s.ros.ownAbsent = t.ros.ownAbsent →
    (∀ n, (s.ros.entry n).joinedAt = (t.ros.entry n).joinedAt ∧
      (s.ros.entry n).absentFrom = (t.ros.entry n).absentFrom) →
    voterSet s g = voterSet t g)

/-- An accepted JOIN at the Roster Unit outside LISTEN (R14, R15, R16): a clash raises CONFIG_CLASH, sets
the clash field and does nothing else; otherwise the station of an EXPECTED or ABSENT entry is admitted
with joined-at the stamp plus LEAD, as JOINING until the next frame start in every case (log entry 19), and
for any other entry the JOIN is liveness only. -/
def Obligations.JoinAdmitsOrClashes : Prop :=
  ∀ (s : State) (m : Message) (j : JoinFields), s.ros.self ≠ .listen → m.body = .join j →
    let e := s.ros.entry m.sender
    let differs := decide ¬ (j.fl = s.cfg.fl ∧ j.al = s.cfg.al ∧ j.lead = s.cfg.lead ∧
      j.hb = s.cfg.hb ∧ j.af = s.cfg.af ∧ j.members = s.cfg.members ∧
      j.policy = Policy.code s.cfg.policy)
    let heard := { e with lastStamp := some m.stamp, lastFrame := some s.ros.frameStarts, clash := false }
    let t := rosterMessage s m
    (∀ k, k ≠ m.sender → t.ros.entry k = s.ros.entry k) ∧
    t = { s with ros := t.ros, flt := t.flt } ∧ t.ros.self = s.ros.self ∧
    t.ros.ownJoined = s.ros.ownJoined ∧ t.ros.ownAbsent = s.ros.ownAbsent ∧
    (differs = true → t.ros.entry m.sender = { e with clash := true } ∧
      t.flt = s.flt.raise [.configClash]) ∧
    (differs = false → t.flt = s.flt ∧
      (e.state = .expected ∨ e.state = .absent → t.ros.entry m.sender =
        { heard with state := .joining, joinedAt := some (m.stamp + BitVec.ofNat 32 s.cfg.lead)
                     absentFrom := none, cause := .none }) ∧
      (e.state = .joining ∨ e.state = .voter → t.ros.entry m.sender = heard) ∧
      (e.state = .quiet → t.ros.entry m.sender = { heard with state := .voter }))

/-- An accepted STATE, an accepted LEAVE and an accepted REPEAT at the Roster Unit (R3, R14, R17, R18, R22).
In LISTEN a message of any kind first makes the station JOINING, with the standing JOIN owed. The STATE admits
an EXPECTED or ABSENT station that does not clash and whose absence lies before its member-since, and its
content is recorded; a recorded STATE goes to the view comparison, whose effect
`Obligations.ViewSplitEvictsAMember` says. The holdings recorded are its ready entries, the first of each tag,
in ascending order of the tags; of tags that have no ascending order the order is left open (log entry 8). The
LEAVE decides absent-from once, as its stamp plus LEAD. The REPEAT is liveness alone: the sender's last stamp
and last frame are written, a QUIET entry becomes VOTER, and nothing else changes. -/
def Obligations.StateAndLeaveAtTheRoster : Prop :=
  (∀ (s : State) (m : Message), s.ros.self = .listen →
    rosterMessage s m = rosterMessage
      { s with ros := { s.ros with self := .joining }
               tx := ({ s.tx with heartbeat := 0 }).owe .joining true } m) ∧
  (∀ (s : State) (m : Message) (f : StateFields), s.ros.self ≠ .listen → m.body = .state f →
    let e := s.ros.entry m.sender
    let heard := { e with lastStamp := some m.stamp, lastFrame := some s.ros.frameStarts
                          state := if e.state = .quiet then .voter else e.state }
    let told := { heard with holdings := holdingsOf f.ready, shownTag := f.shownTag
                             shownSince := f.shownSince, view := f.view }
    let admitted := e.state ∈ [EntryState.expected, .absent] ∧ e.clash = false ∧
      ∀ a, e.absentFrom = some a → isBefore a f.memberSince = true
    let recorded := e.state ∈ [EntryState.joining, .voter, .quiet] ∨ admitted
    ∃ u : State, u = { s with ros := { s.ros with roster := u.ros.roster } } ∧
      (∀ k, k ≠ m.sender → u.ros.entry k = s.ros.entry k) ∧
      (e.state ∈ [EntryState.joining, .voter, .quiet] → u.ros.entry m.sender = told) ∧
      (admitted →
        u.ros.entry m.sender =
          { told with state := (u.ros.entry m.sender).state, joinedAt := some f.memberSince
                      absentFrom := none, cause := .none } ∧
        (u.ros.entry m.sender).state ∈ [EntryState.voter, .joining] ∧
        (notAfter f.memberSince s.tim.count = true → (u.ros.entry m.sender).state = .voter) ∧
        (isAfter f.memberSince s.tim.count = true → (u.ros.entry m.sender).state = .joining)) ∧
      (recorded → rosterMessage s m = viewComparison u m.sender m.stamp f.view) ∧
      (¬ recorded → u.ros.entry m.sender = heard ∧ rosterMessage s m = u)) ∧
  (∀ ready : List ReadyPair,
    ((holdingsOf ready).map (·.tag)).Nodup ∧
    (∀ p ∈ ready, ∃ q ∈ holdingsOf ready, q.tag = p.tag) ∧
    (∀ q ∈ holdingsOf ready, ready.find? (fun p => decide (p.tag = q.tag)) = some q) ∧
    ∀ ascending : List ReadyPair, ascending.Perm (holdingsOf ready) →
      ascending.Pairwise (fun a b => isNewer b.tag a.tag = true) → holdingsOf ready = ascending) ∧
  (∀ (s : State) (m : Message), s.ros.self ≠ .listen → m.body = .leave →
    let e := s.ros.entry m.sender
    let heard := { e with lastStamp := some m.stamp, lastFrame := some s.ros.frameStarts
                          state := if e.state = .quiet then .voter else e.state }
    let t := rosterMessage s m
    (∀ k, k ≠ m.sender → t.ros.entry k = s.ros.entry k) ∧ t = { s with ros := t.ros } ∧
    (e.state ∈ [EntryState.joining, .voter, .quiet] → e.absentFrom = none →
      t.ros.entry m.sender =
        { heard with absentFrom := some (m.stamp + BitVec.ofNat 32 s.cfg.lead), cause := .left }) ∧
    (e.state ∈ [EntryState.expected, .absent] ∨ e.absentFrom ≠ none →
      t.ros.entry m.sender = heard)) ∧
  (∀ (s : State) (m : Message) (target reason : Byte), s.ros.self ≠ .listen →
    m.body = .repeatRequest target reason →
    let e := s.ros.entry m.sender
    let t := rosterMessage s m
    t = { s with ros := { s.ros with roster := t.ros.roster } } ∧
    (∀ k, k ≠ m.sender → t.ros.entry k = s.ros.entry k) ∧
    t.ros.entry m.sender =
      { e with lastStamp := some m.stamp, lastFrame := some s.ros.frameStarts
               state := if e.state = .quiet then .voter else e.state })

/-- The view comparison (R22): a voter's recorded STATE whose view lacks the own voting station evicts in
MEMBER, with VIEW_SPLIT and EVICTED in one raise, own joined-at none and the standing JOIN owed by a change
trigger (R141, `Obligations.StandingTriggerEffects`): a STANDING entry is added, one that waits stays as it
is, also behind a REPEAT in flight, and a STATE in flight has its renew field set (R150); in LEAVING it raises
VIEW_SPLIT alone; in any other state, or where a condition fails, nothing happens. -/
def Obligations.ViewSplitEvictsAMember : Prop :=
  ∀ (s : State) (sender : Station) (stamp : Count) (view : StationSet),
    let own := s.cfg.station
    let split := isVoter s stamp sender && isVoter s stamp own && !hasStation view own
    let t := viewComparison s sender stamp view
    (split = true → s.ros.self = .member →
      t = { s with ros := { s.ros with self := .evicted, ownJoined := none }, tx := s.tx.owe .evicted true
                   flt := s.flt.raise [.viewSplit, .evicted] } ∧
      t.tx.queue.any QueueEntry.isStanding = true ∧
      (s.tx.queue.any QueueEntry.isStanding = false →
        t.tx.queue = s.tx.queue ++ [.fresh .standing]) ∧
      (∀ e rest, s.tx.queue = e :: rest → s.tx.queue.any QueueEntry.isStanding = true →
        (s.tx.state ≠ .sending ∨ e.isStanding = false → t.tx = s.tx) ∧
        (s.tx.state = .sending → e.isStanding = true → rest.any QueueEntry.isStanding = false →
          t.tx = { s.tx with queue := { e with renew := true } :: rest }))) ∧
    (split = true → s.ros.self = .leaving → t = { s with flt := s.flt.raise [.viewSplit] }) ∧
    (split = false ∨ s.ros.self ∉ [SelfState.member, .leaving] → t = s)

/-- The checks of a roster entry at a frame start (R11, R18, R19): JOINING to VOTER at joined-at, VOTER to
QUIET after HB+2 frame starts of silence, and the absence checks, by silence at the provisional absent-from or
at an absent-from a LEAVE decided. A JOINING entry that is lost by silence before its joined-at raises nothing
(R19). A frame start, in whatever order its hand-offs are taken, makes these checks of every entry at the
count of the new frame and raises MEMBER_LOST once for each entry lost by silence; only the phase offset and
its age change beside. -/
def Obligations.AbsenceAtAFrameStart : Prop :=
  (∀ s t : State, dueFrameStart s → exec .frameStart s = .next t →
    let frames := s.ros.frameStarts + 1
    let lost := stations.filter fun n => (s.ros.entry n).becomesLost s.cfg t.tim.count frames
    (∀ n : Station, t.ros.entry n =
      { (s.ros.entry n).frameStart s.cfg t.tim.count frames with
        offset := (t.ros.entry n).offset, age := (t.ros.entry n).age }) ∧
    t.flt.faultCounters[FaultKind.memberLost.number] =
      (if lost = [] then s.flt.faultCounters[FaultKind.memberLost.number]
       else min 255 (s.flt.faultCounters[FaultKind.memberLost.number] + lost.length)) ∧
    t.flt.summary.getLsbD FaultKind.memberLost.number.val =
      (s.flt.summary.getLsbD FaultKind.memberLost.number.val || !lost.isEmpty)) ∧
  ∀ (e : RosterEntry) (c : StationConfig) (count frames : Count),
    let t := e.frameStart c count frames
    (e.state ∈ [EntryState.vacant, .expected, .absent] → t = e) ∧
    (∀ stamp, e.state ∈ [EntryState.joining, .voter, .quiet] → e.absentFrom = none →
      e.lastStamp = some stamp →
      (notBefore count (stamp + BitVec.ofNat 32 c.af) = true →
        t = { e with state := .absent, absentFrom := some (stamp + BitVec.ofNat 32 c.af)
                     cause := .silence } ∧
        (e.state = .voter ∨ e.state = .quiet → e.becomesLost c count frames = true) ∧
        (e.state = .joining → e.becomesLost c count frames =
          e.joinedAt.any (fun j => notAfter j count))) ∧
      (notBefore count (stamp + BitVec.ofNat 32 c.af) = false →
        t = { e with state := t.state } ∧ e.becomesLost c count frames = false ∧
        (e.state = .quiet → t.state = .quiet) ∧
        (∀ j last, e.state = .joining → e.joinedAt = some j → e.lastFrame = some last →
          (notAfter j count = false → t.state = .joining) ∧
          (notAfter j count = true → (frames - last).toNat < c.hb + 2 → t.state = .voter) ∧
          (notAfter j count = true → c.hb + 2 ≤ (frames - last).toNat → t.state = .quiet)) ∧
        (∀ last, e.state = .voter → e.lastFrame = some last →
          ((frames - last).toNat < c.hb + 2 → t.state = .voter) ∧
          (c.hb + 2 ≤ (frames - last).toNat → t.state = .quiet)))) ∧
    (∀ a, e.state ∈ [EntryState.joining, .voter, .quiet] → e.absentFrom = some a →
      e.becomesLost c count frames = false ∧
      (notBefore count a = true → t = { e with state := .absent }) ∧
      (notBefore count a = false → t = { e with state := t.state } ∧ t.state ≠ .absent))

/-! ## The Agreement Unit -/

/-- The ready stamp that station n lists for a tag: in its recorded holdings, or for the own number in the own
ready list (R25, R26). -/
def listedStamp (s : State) (tag : Tag) (n : Station) : Option Count :=
  ((if n = s.cfg.station then s.buf.readyList else (s.ros.entry n).holdings).find?
    (fun p => decide (p.tag = tag))).map (·.stamp)

/-- Station n, another one than self, shows a tag or a newer one since count c (R25). -/
def showsSince (s : State) (tag : Tag) (n : Station) (c : Count) : Prop :=
  n ≠ s.cfg.station ∧ (s.ros.entry n).shownSince = some c ∧
    ∃ shown, (s.ros.entry n).shownTag = some shown ∧ (shown = tag ∨ isNewer shown tag = true)

/-- The completion stamp (R25 to R28). A station's holding stamp is the ready stamp it lists, or a peer's
shown-since where its shown tag is the tag or newer; of both it is the one that is not after the other, and of
two exactly 2^31 apart either (log entry 9). The candidates are these stamps and every joined-at and
absent-from, own ones among them, that are not after the current count. The completion stamp is a candidate
that passes, over a voter set that is not empty and of which every station holds the tag, and no candidate
earlier than it passes; a tag with no completion stamp has no candidate that passes. -/
def Obligations.CompletionStampIsTheEarliest : Prop :=
  (∀ (s : State) (tag : Tag) (n : Station), let h := holdingStamp s tag n
    (listedStamp s tag n = none → (∀ c, ¬ showsSince s tag n c) → h = none) ∧
    (∀ a, listedStamp s tag n = some a → (∀ c, ¬ showsSince s tag n c) → h = some a) ∧
    (∀ c, listedStamp s tag n = none → showsSince s tag n c → h = some c) ∧
    (∀ a c, listedStamp s tag n = some a → showsSince s tag n c →
      (h = some a ∨ h = some c) ∧ (notAfter a c = true → h = some a) ∧
      (notAfter c a = true → h = some c))) ∧
  (∀ (s : State) (tag : Tag) (c : Count), c ∈ candidates s tag ↔
    (s.tim.count - c).toNat < 2147483648 ∧ ∃ n : Station,
      listedStamp s tag n = some c ∨ showsSince s tag n c ∨
      (if n = s.cfg.station then s.ros.ownJoined else (s.ros.entry n).joinedAt) = some c ∨
      (if n = s.cfg.station then s.ros.ownAbsent else (s.ros.entry n).absentFrom) = some c) ∧
  (∀ (s : State) (tag : Tag) (c : Count), passes s tag c = true ↔
    voterSet s c ≠ 0#16 ∧ ∀ n : Station, isVoter s c n = true →
      ∃ h, holdingStamp s tag n = some h ∧ notAfter h c = true) ∧
  ∀ (s : State) (tag : Tag),
    (∀ c, completionStamp s tag = some c →
      c ∈ candidates s tag ∧ passes s tag c = true ∧
      (∀ d ∈ candidates s tag, (s.tim.count - c).toNat < (s.tim.count - d).toNat →
        passes s tag d = false)) ∧
    (completionStamp s tag = none → ∀ d ∈ candidates s tag, passes s tag d = false)

/-- What an evaluation makes of an unscheduled tag with the completion stamp given (R30, R36): a complete tag
is placed with the base swap time C(F) + LEAD, against the schedule as it stands, and one that is not complete
is left. -/
def placedAt (s : State) (tag : Tag) : Option Count → State
  | none => s
  | some c =>
    match place s.cfg.policy s.tim.count s.agr.schedule tag (c + BitVec.ofNat 32 s.cfg.lead) with
    | none => s
    | some p => carryOut s tag p

/-- Placement (R30 to R33, R36, R39), for a tag to which every entry of the schedule is older or newer, the
older ones standing before the newer. FIFO puts it behind the older entries, one frame after the newest of
them at least, with the late fix-up, and pushes each newer entry whose T is not after the one before it to
that entry's T + 1. LATEST passes it over where a newer entry's T is not after its own; otherwise it removes
the older entries whose T is not before its own and raises LATE_SWAP where the fix-up applied. A scheduled tag
is not placed again, a refused pin claim leaves everything as it was, and a granted one pins the buffer, puts
the whole schedule in place and unpins the tags removed. An evaluation is one pass over the own ready list:
each of its tags that is not in the schedule is taken, oldest first, and placed with its completion stamp plus
LEAD as base, or left where it is not complete. In CONFIG and DETACHED no evaluation is made (R24). -/
def Obligations.PlacementFollowsThePolicy : Prop :=
  (∀ (now : Count) (schedule : List ScheduleEntry) (tag : Tag) (base : Count),
    let older := schedule.filter fun e => isOlder e.tag tag
    let newer := schedule.filter fun e => isNewer e.tag tag
    schedule = older ++ newer →
    (let p := placeFifo now schedule tag base
     let reached := match older.getLast? with
       | none => base
       | some e => if isAfter (e.time + 1) base then e.time + 1 else base
     let time := if notAfter reached now then now + 1 else reached
     ∃ pushed, p.schedule = older ++ ({ tag := tag, time := time } :: pushed) ∧
       p.removed = [] ∧ p.late = notAfter reached now ∧ pushed.map (·.tag) = newer.map (·.tag) ∧
       ∀ (i : Nat) (e f before : ScheduleEntry), newer[i]? = some e → pushed[i]? = some f →
         ({ tag := tag, time := time } :: pushed)[i]? = some before →
         f.time = if notAfter e.time before.time then before.time + 1 else e.time) ∧
    (let time := if notAfter base now then now + 1 else base
     ((∃ e ∈ newer, notAfter e.time time = true) → placeLatest now schedule tag base = none) ∧
     ((∀ e ∈ newer, notAfter e.time time = false) → placeLatest now schedule tag base = some
       { schedule := older.filter (fun e => !notBefore e.time time) ++
           ({ tag := tag, time := time } :: newer)
         removed := (older.filter fun e => notBefore e.time time).map (·.tag)
         late := notAfter base now }))) ∧
  (∀ (s : State) (tag : Tag) (p : Placement),
    (s.buf.findReady tag = none → carryOut s tag p = s) ∧
    (∀ i, s.buf.findReady tag = some i → tag ∉ p.removed →
      let t := carryOut s tag p
      t = { s with buf := t.buf, agr := { s.agr with schedule := p.schedule }
                   flt := if p.late then s.flt.raise [.lateSwap] else s.flt } ∧
      t.buf = { s.buf with records := t.buf.records } ∧
      t.buf.records[i] = { s.buf.records[i] with pinned := true } ∧
      (∀ k : BufferId, k ≠ i →
        t.buf.records[k] = { s.buf.records[k] with pinned := t.buf.records[k].pinned } ∧
        (t.buf.records[k].pinned = s.buf.records[k].pinned ∨ t.buf.records[k].pinned = false)) ∧
      (∀ r ∈ p.removed, ∀ k, s.buf.findReady r = some k → t.buf.records[k].pinned = false))) ∧
  (∀ s : State, s.ros.self ∉ [SelfState.config, .detached] → tagsAscend s.buf.readyList = true →
    let unscheduled := s.buf.readyList.filter fun p => s.agr.schedule.all fun e => decide (e.tag ≠ p.tag)
    evaluate s = unscheduled.foldl (fun u p => placedAt u p.tag (completionStamp s p.tag)) s) ∧
  (∀ s : State, s.ros.self ∈ [SelfState.config, .detached] → evaluate s = s)

/-- The retiming of a forward jump to N (R40, R41): under both policies no entry is left with a T not
after N; FIFO keeps every tag, the entries due take N + 1, N + 2 and so on in their order, and behind them
each entry whose T is not after that of the entry before it takes that T + 1 and any other keeps its T;
LATEST keeps the newest entry due, the last of them, at N + 1 and removes the others, or removes it too where
an entry for a newer tag stands at N + 1; no entry due leaves the schedule as it was. The Agreement Unit told
of the jump puts the retimed schedule in place, unpins the buffers of the tags removed and no others, and raises
LATE_SWAP once; with no entry due it does nothing. An accepted burst whose message the Timing Unit takes for a
forward jump is followed by the retiming to the count that the jump set and then an evaluation, and one that it
takes for adoption by an evaluation (R40, R104, R105): behind a REPEAT these are all, and any other message is
an occasion of evaluation too, before them or after (R37, R127). -/
def Obligations.RetimingLeavesNothingDue : Prop :=
  (∀ (policy : Policy) (n : Count) (schedule : List ScheduleEntry), schedule.length ≤ 3 →
    (∀ e ∈ schedule, (e.time - n).toNat < 1073741824 ∨ notAfter e.time n = true) →
    ((∀ e ∈ schedule, notAfter e.time n = false) → retimed policy n schedule = none) ∧
    ((∃ e ∈ schedule, notAfter e.time n = true) → ∃ p, retimed policy n schedule = some p ∧
      p.late = true ∧ (∀ e ∈ p.schedule, notAfter e.time n = false) ∧
      (policy = .fifo → p.removed = [] ∧
        (p.schedule.map (·.tag)).Perm (schedule.map (·.tag)) ∧
        ∀ (i : Nat) (e : ScheduleEntry), (schedule.filter fun e => notAfter e.time n)[i]? = some e →
          p.schedule[i]? = some { e with time := n + BitVec.ofNat 32 (i + 1) }) ∧
      (policy = .fifo →
        let due := schedule.filter fun e => notAfter e.time n
        let later := schedule.filter fun e => !notAfter e.time n
        p.schedule.length = schedule.length ∧
        ∀ (i : Nat) (e f before : ScheduleEntry), later[i]? = some e →
          p.schedule[due.length + i]? = some f → p.schedule[due.length + i - 1]? = some before →
          f = { e with time := if notAfter e.time before.time then before.time + 1 else e.time }) ∧
      (policy = .latest → ∃ dropped last,
        schedule.filter (fun e => notAfter e.time n) = dropped ++ [last] ∧
        (let rest := schedule.filter fun e => !notAfter e.time n
         ((∃ e ∈ rest, isNewer e.tag last.tag = true ∧ e.time = n + 1) →
           p.schedule = rest ∧ p.removed = (dropped ++ [last]).map (·.tag)) ∧
         ((∀ e ∈ rest, isNewer e.tag last.tag = true → e.time ≠ n + 1) →
           p.schedule = { last with time := n + 1 } :: rest ∧ p.removed = dropped.map (·.tag)))))) ∧
  (∀ (s : State) (n : Count), let t := retime s n
    (retimed s.cfg.policy n s.agr.schedule = none → t = s) ∧
    (∀ p, retimed s.cfg.policy n s.agr.schedule = some p →
      t = { s with agr := { s.agr with schedule := p.schedule }, flt := s.flt.raise [.lateSwap]
                   buf := { s.buf with records := t.buf.records } } ∧
      ∀ k : BufferId, t.buf.records[k] =
        if ∃ tag ∈ p.removed, s.buf.findReady tag = some k then
          { s.buf.records[k] with pinned := false }
        else s.buf.records[k])) ∧
  (∀ (s : State) (b : Burst), senderKnown s b → b.bytes.length ≤ 69 → lengthPasses b.bytes = true →
    wholeBody b →
    let found := judgeSequence (s.ros.entry (headerStation b.bytes)) (b.bytes.getD 2 0#8)
    let m := readMessage b.bytes
    let u := burstRecorded s m (found == .gap)
    let timed := timedBy u m s.rx.timing
    let told := fun w : State =>
      evaluate (if s.tim.countState = .set then retime w timed.tim.count else w)
    let heard := rosterMessage timed m
    found ≠ .duplicate → timed.tim ≠ s.tim → ∃ t,
    exec (.burstEnd b) s = .next t ∧
    let v := arrive Config.handoffChoice t
    let leaves := fun w : State => v.agr = w.agr ∧ v.buf = w.buf ∧
      v.flt.faultCounters[FaultKind.lateSwap.number] = w.flt.faultCounters[FaultKind.lateSwap.number]
    (m.isOccasion = false → leaves (told timed)) ∧
    (m.isOccasion = true →
      leaves (told { evaluate (rosterMessage u m) with tim := timed.tim }) ∨
      leaves (told (evaluate heard)) ∨ leaves (evaluate (told heard)) ∨
      leaves (evaluate { told timed with ros := heard.ros })))

/-- What the stall check of a frame start leaves of a state s (R46): with a swap in this frame count 0 and
raised no; with nothing ready no change; otherwise the count rises to STALLF at most, and reaching it raises
STALL once. -/
def stallTaken (s t : State) : Prop :=
  let counted := s.agr.stallCount + 1
  let reached := s.cfg.stallf ≤ counted ∧ s.agr.stallRaised = false
  let before := s.flt.faultCounters[FaultKind.stall.number]
  (t.scn.swapThisFrame = true → t.agr.stallCount = 0 ∧ t.agr.stallRaised = false ∧
    t.flt.faultCounters[FaultKind.stall.number] = before) ∧
  (t.scn.swapThisFrame = false → s.buf.readyList = [] →
    t.agr.stallCount = s.agr.stallCount ∧ t.agr.stallRaised = s.agr.stallRaised ∧
    t.flt.faultCounters[FaultKind.stall.number] = before) ∧
  (t.scn.swapThisFrame = false → s.buf.readyList ≠ [] →
    t.agr.stallCount = min s.cfg.stallf counted ∧
    t.agr.stallRaised = (s.agr.stallRaised || decide (s.cfg.stallf ≤ counted)) ∧
    t.flt.faultCounters[FaultKind.stall.number] = if reached then min 255 (before + 1) else before)

/-- The stall check is not made (R46). -/
def stallLeft (s t : State) : Prop :=
  t.agr.stallCount = s.agr.stallCount ∧ t.agr.stallRaised = s.agr.stallRaised ∧
    t.flt.faultCounters[FaultKind.stall.number] = s.flt.faultCounters[FaultKind.stall.number]

/-- The stall check (R46) and the swap split check (R45): outside JOINING, MEMBER, EVICTED and LEAVING
neither is made, and with own shown tag none no SWAP_SPLIT is raised. A frame start, in whatever order its
hand-offs are taken, makes the stall check; where it changes the self state into one that makes it, or out of
one, the check is made or not. And it is followed by an evaluation, against the count of the new frame and the
roster as the frame start leaves it (R37, R38): with no lone start and no absence decided, that evaluation alone
gives schedule, buffers and LATE_SWAP, or it and the swap's own where a swap was carried out. In CONFIG and
DETACHED there is none (R24). -/
def Obligations.StallAndSwapSplitChecks : Prop :=
  (∀ s : State, let t := stallCheck s
    (s.ros.self.active = false → t = s) ∧
    (s.ros.self.active = true → s.scn.swapThisFrame = true →
      t = { s with agr := { s.agr with stallCount := 0, stallRaised := false } }) ∧
    (s.ros.self.active = true → s.scn.swapThisFrame = false → s.buf.readyList = [] → t = s) ∧
    (s.ros.self.active = true → s.scn.swapThisFrame = false → s.buf.readyList ≠ [] →
      (s.agr.stallCount + 1 < s.cfg.stallf →
        t = { s with agr := { s.agr with stallCount := s.agr.stallCount + 1 } }) ∧
      (s.cfg.stallf ≤ s.agr.stallCount + 1 → s.agr.stallRaised = false →
        t = { s with agr := { s.agr with stallCount := s.cfg.stallf, stallRaised := true }
                     flt := s.flt.raise [.stall] }) ∧
      (s.cfg.stallf ≤ s.agr.stallCount + 1 → s.agr.stallRaised = true →
        t = { s with agr := { s.agr with stallCount := s.cfg.stallf } }))) ∧
  (∀ (s : State) (sender : Station) (stamp : Count) (shown : Option Tag),
    swapSplitCheck s sender stamp shown = s ∨
      swapSplitCheck s sender stamp shown = { s with flt := s.flt.raise [.swapSplit] }) ∧
  (∀ (s : State) (sender : Station) (stamp : Count) (shown : Option Tag),
    s.ros.self.active = false ∨ s.buf.shownTag = none → swapSplitCheck s sender stamp shown = s) ∧
  (∀ (s : State) (sender : Station) (stamp : Count) (shown : Option Tag) (own : Tag) (since : Count),
    s.ros.self.active = true → s.buf.shownTag = some own → s.buf.shownSince = some since →
    swapSplitCheck s sender stamp shown =
      if isVoter s stamp sender = true ∧ isAfter stamp since = true ∧
        (∀ tag, shown = some tag → isOlder tag own = true)
      then { s with flt := s.flt.raise [.swapSplit] } else s) ∧
  (∀ s t : State, dueFrameStart s → exec .frameStart s = .next t →
    let atLimit := s.ros.frameStarts = BitVec.ofNat 32 s.cfg.lf
    (s.ros.self.active = true → t.ros.self ≠ .detached → stallTaken s t) ∧
    (s.ros.self.active = false → ¬ (s.ros.self = .listen ∧ atLimit) → stallLeft s t) ∧
    (stallTaken s t ∨ stallLeft s t) ∧
    (s.ros.self ∈ [SelfState.config, .detached] → t.scn.swapThisFrame = false → t.agr = s.agr) ∧
    (s.ros.self ∉ [SelfState.config, .detached] → t.ros.self ≠ .detached →
      let alone := ¬ (s.tim.countState = .unset ∧ atLimit) ∧
        ∀ n, (s.ros.entry n).becomesAbsent s.cfg t.tim.count (s.ros.frameStarts + 1) = false
      let leaves := fun w : State => t.agr.schedule = w.agr.schedule ∧ t.buf = w.buf ∧
        t.flt.faultCounters[FaultKind.lateSwap.number] = w.flt.faultCounters[FaultKind.lateSwap.number]
      (alone → t.scn.swapThisFrame = false → leaves (evaluate { s with tim := t.tim })) ∧
      (∀ e rest, alone → t.scn.swapThisFrame = true → s.agr.schedule = e :: rest →
        ∃ b passed, s.buf.swapTo e.tag t.tim.count = some (b, passed) ∧
        leaves (evaluate (evaluate
          { s with tim := t.tim, buf := b, agr := { s.agr with schedule := rest } }))) ∧
      ∃ w : State, w.ros = t.ros ∧ w.tim = t.tim ∧ w.lpt = s.lpt ∧
        t.agr.schedule = (evaluate w).agr.schedule ∧ t.buf = (evaluate w).buf))

/-! ## The tile bus, transmit side -/

/-- The state after a transmit start of entry e at the head, as a message kind (R115, R145): the entry
takes its sequence, renew becomes no, and the message is built and driven. -/
def transmitting (s : State) (e : QueueEntry) (rest : List QueueEntry) (kind : MessageKind) : State :=
  { s with
    tx := { s.tx with
      queue := { e with seq := some (e.seq.getD s.tx.seq), renew := false } :: rest
      seq := if e.seq.isNone then s.tx.seq + 1 else s.tx.seq
      state := .sending
      backoffCount := 0
      slotRunning := false
      inFlight := some (buildMessage s e.cls kind (e.seq.getD s.tx.seq)) }
    rx := { s.rx with state := .waitIdle }
    line := .busy }

/-- The kind an entry goes out as (R140): a STANDING entry by the self state at the transmit start. -/
def goesOutAs (self : SelfState) (e : QueueEntry) (kind : MessageKind) : Prop :=
  match e.cls with
  | .repeatTo _ _ => kind = .repeatRequest
  | .standing =>
    (self ∈ [SelfState.joining, .evicted] ∧ kind = .join) ∨ (self = .member ∧ kind = .state) ∨
      (self = .leaving ∧ kind = .leave)

/-- GAP_REACHED (R140, R144, R145): in WAIT_GAP with a backoff count of 0 the head is transmitted, with
another count a slot begins in BACKOFF; in BACKOFF after a busy line a fresh slot begins; in TX_IDLE, SENDING
and JAMMING nothing waits for the gap, and while a burst is received there is none (log entry 2). A gap
reached finds the line idle, and the receive machine with it (log entry 15). BACKOFF_SLOT_END (R144, R145): a
slot that ended idle lowers the backoff count; the next slot runs, or at 0 the head is transmitted; outside a
running slot nothing happens (log entry 2). What is on its way from a message accepted before stays so behind
the transmit start, which it then finds in flight (R130, R131, R150; log entry 26); elsewhere it is taken. -/
def Obligations.GapAndSlotStartTransmission : Prop :=
  ∀ s : State, s.resetHeld = false →
    let quiet := { s with line := .idle
                          rx := if s.rx.state = .waitIdle then { s.rx with state := .idle } else s.rx }
    let answers := fun (c : Instr) (t : State) => exec c s = .next (arrive Config.handoffChoice t)
    let running := s.tx.state = .backoff ∧ s.tx.slotRunning = true
    (s.tx.state = .sending → exec .gapReached s = .next s ∧ exec .backoffSlotEnd s = .next s) ∧
    (s.rx.state = .receiving → s.tx.state ≠ .sending → answers .gapReached s) ∧
    (∀ e rest kind, s.rx.state ≠ .receiving → s.tx.state = .waitGap → s.tx.backoffCount = 0 →
      s.tx.queue = e :: rest → goesOutAs s.ros.self e kind →
      exec .gapReached s = .next (transmitting quiet e rest kind)) ∧
    (s.rx.state ≠ .receiving → s.tx.state = .waitGap → s.tx.backoffCount ≠ 0 →
      answers .gapReached { quiet with tx := { s.tx with state := .backoff, slotRunning := true } }) ∧
    (s.rx.state ≠ .receiving → s.tx.state = .backoff → s.tx.slotRunning = false →
      answers .gapReached { quiet with tx := { s.tx with slotRunning := true } }) ∧
    (s.rx.state ≠ .receiving → s.tx.state ∈ [TransmitState.txIdle, .jamming] ∨ running →
      answers .gapReached s) ∧
    (¬ running → s.tx.state ≠ .sending → answers .backoffSlotEnd s) ∧
    (running → 2 ≤ s.tx.backoffCount →
      answers .backoffSlotEnd { quiet with tx := { s.tx with backoffCount := s.tx.backoffCount - 1 } }) ∧
    (∀ e rest kind, running → s.tx.backoffCount = 1 → s.tx.queue = e :: rest →
      goesOutAs s.ros.self e kind → exec .backoffSlotEnd s = .next (transmitting quiet e rest kind))

/-- What is on its way between blocks when a step ends (R94, R104, R112, R127, R130, R131, R145, R147, R150;
log entries 26, 30 and 34). Only BURST_END puts anything on its way, and only a transmit start leaves it so.
Every command takes it first, but for a transmit start, which it may find in flight, its collision, which it
comes before or behind, a frame start, and RESTART, which each block takes before or behind it
(`Obligations.RestartTakenOrRefused`). A STATE that evicts and meets the own STATE in flight makes the station
EVICTED and leaves the message on the wire, with renew set, so that the JOIN follows it. The frame start of LF
frames of LISTEN and an accepted message: whether the Timing Unit has taken the message before it (SET), takes
it behind it (`late`) or has none, and whether the Roster Unit takes it there (`heard`) or does not, the
station ends in JOINING, with the adopted count advanced, the lone start's count 0, or the group's count by a
forward jump from 0. -/
def Obligations.ArrivalsAreTakenFirst : Prop :=
  (∀ (c : Instr) (s : State), s.resetHeld = false →
    (match c with
      | .hardReset | .resetReleased | .gapReached | .backoffSlotEnd | .restart => True
      | .collision => let u := s.withChoices (s.choices + 1)
          s.arriving = .nothing ∨ exec c s = exec c (arrive Config.handoffChoice u) ∨
            exec c s = .next (arrive Config.handoffChoice (collisionSeen u))
      | .lineStart | .frameStart => let u := placeRequest s
          (u.scn.timer = .running ∧ frameStartDue u = true) ∨
            exec c s = exec c (arrive Config.handoffChoice s)
      | .byteClocked b => s.lpt.phase = .command ∧ b = 0x13#8 ∨
          exec c s = exec c (arrive Config.handoffChoice s)
      | _ => exec c s = exec c (arrive Config.handoffChoice s)) ∧
    (s.lpt.phase = .command → c = .restart ∨ c = .byteClocked 0x13#8 →
      exec c s = .next (aroundRestart Config.handoffChoice takeRestart s))) ∧
  (∀ s : State, (s.resetHeld = false → settled (arrive Config.handoffChoice s)) ∧
    (takeMessages Config.handoffChoice s).arriving =
      { Arrivals.nothing with request := (takeMessages Config.handoffChoice s).arriving.request }) ∧
  (∀ (c : Instr) (s t : State), s.resetHeld = false → exec c s = .next t →
    (∀ b, c ≠ .burstEnd b) → c ≠ .resetReleased →
    t.arriving = .nothing ∨
      (c ∈ [.gapReached, .backoffSlotEnd] ∧ t.tx.state = .sending ∧ t.arriving = s.arriving)) ∧
  (∀ (s : State) (m : Message) (f : StateFields) (e : QueueEntry) (rest : List QueueEntry),
    s.resetHeld = false → s.arriving = { Arrivals.nothing with roster := some m } →
    m.body = .state f → m.sender ≠ s.cfg.station → s.ros.self = .member →
    (s.ros.entry m.sender).state ∈ [EntryState.voter, .quiet] → isVoter s m.stamp m.sender = true →
    isVoter s m.stamp s.cfg.station = true → hasStation f.view s.cfg.station = false →
    s.rx.state ≠ .receiving → s.tx.state = .waitGap → s.tx.backoffCount = 0 →
    s.tx.queue = e :: rest → e.cls = .standing → rest.any QueueEntry.isStanding = false → ∃ t,
    exec .gapReached s = .next t ∧
    let u := arrive Config.handoffChoice t
    u.ros.self = .evicted ∧ u.ros.ownJoined = none ∧
    u.tx.state = .sending ∧ u.tx.inFlight = some (buildMessage s .standing .state (e.seq.getD s.tx.seq)) ∧
    u.tx.queue = { e with seq := some (e.seq.getD s.tx.seq), renew := true } :: rest) ∧
  ∀ (s : State) (m : Message) (rt : ReceiveTiming) (heard late : Bool), s.resetHeld = false →
    s.arriving = { Arrivals.nothing with
      roster := if heard then some m else none, timing := if late then some (m, rt) else none } →
    s.scn.timer = .running → s.scn.currentLine + 1 = s.scn.endLine → 16 ≤ s.cfg.fl →
    s.ros.frameStarts = BitVec.ofNat 32 s.cfg.lf → s.ros.ownJoined = none →
    s.ros.self ∈ [SelfState.listen, .joining] → ∃ t,
    exec .frameStart s = .next t ∧ exec .lineStart s = .next t ∧
    t.ros.self = .joining ∧ t.ros.frameStarts = s.ros.frameStarts + 1 ∧ t.tim.countState = .set ∧
    (s.tim.countState = .set → late = false → t.tim.count = s.tim.count + 1 ∧ t.flt.summary.getLsbD
      FaultKind.countJump.number.val = s.flt.summary.getLsbD FaultKind.countJump.number.val) ∧
    (s.tim.countState = .unset → late = false → t.tim.count = 0#32) ∧
    (s.tim.countState = .unset → late = true → rt.countState = .unset → rt.count = 0#32 →
      s.tim.realignPending = false → rt.realignNumber = s.tim.realignNumber →
      (m.stamp.toInt < 2 → t.tim.count = 0#32 ∧ t.tim.realignPending = false) ∧
      (2 ≤ m.stamp.toInt →
        let lines := m.phase + (s.tim.lineStarts + 2 - rt.lineStarts).toNat
        t.tim.count = m.stamp + BitVec.ofNat 32 (lines / s.cfg.fl) ∧ t.tim.realignPending = true ∧
        t.scn.realign = some (lines % s.cfg.fl) ∧
        t.flt.faultCounters[FaultKind.countJump.number] =
          min 255 (s.flt.faultCounters[FaultKind.countJump.number] + 1)))

/-- TRANSMISSION_COMPLETE (R4, R6, R146): the message sent is counted, the entry leaves the queue, a
STANDING entry's completion restarts the heartbeat count and is followed by a new STANDING entry where renew
was set; a completed JOIN sets own joined-at, which is an occasion of evaluation, and a completed LEAVE sets
own absent-from, where they are none. A REPEAT entry's completion leaves a STANDING entry that waits behind it to
be sent next (R151). -/
def Obligations.TransmissionCompletes : Prop :=
  ∀ (s : State) (e : QueueEntry) (rest : List QueueEntry) (m : OutMessage), settled s →
    s.tx.state = .sending → s.tx.queue = e :: rest → s.tx.inFlight = some m →
    s.ros.self.active = true → (e.isStanding = true → rest.any QueueEntry.isStanding = false) → ∃ t,
    exec .transmissionComplete s = .next t ∧
    t.flt.eventCounters[(0 : Fin 8)] = min 65535 (s.flt.eventCounters[(0 : Fin 8)] + 1) ∧
    (let again := e.isStanding && e.renew
     let owed := if !again then rest
       else if t.ros.self = .leaving then .fresh .standing :: rest else rest ++ [.fresh .standing]
     t.tx = { s.tx with
       queue := owed, state := if owed = [] then .txIdle else .waitGap, inFlight := none
       heartbeat := if e.isStanding then 0 else s.tx.heartbeat }) ∧
    (e.isStanding = true → m.kind = .join → s.ros.ownJoined = none →
      s.ros.self ∈ [SelfState.joining, .evicted, .leaving] →
      t.ros = { s.ros with
        ownJoined := some (m.stamp + BitVec.ofNat 32 s.cfg.lead)
        self := if s.ros.self = .evicted then .joining else s.ros.self } ∧
      t.agr = (evaluate { s with ros := t.ros }).agr ∧ t.buf = (evaluate { s with ros := t.ros }).buf) ∧
    (e.isStanding = true → m.kind = .leave → s.ros.ownAbsent = none → s.ros.self = .leaving →
      t.ros = { s.ros with ownAbsent := some (m.stamp + BitVec.ofNat 32 s.cfg.lead) }) ∧
    (e.isStanding = false ∨ m.kind = .state ∨ (m.kind = .join ∧ s.ros.ownJoined ≠ none) ∨
      (m.kind = .leave ∧ s.ros.ownAbsent ≠ none) → t.ros = s.ros ∧ t.agr = s.agr ∧ t.buf = s.buf) ∧
    t.cap = s.cap ∧ t.scn = s.scn ∧ t.tim = s.tim ∧ t.rx = s.rx ∧ t.lpt = s.lpt ∧ t.mem = s.mem ∧
    t.line = s.line

/-- COLLISION and JAM_END (R147, R149): the collision is counted and the entry waits again behind the jam;
at the jam's end an entry that has met 12 collisions is given up with TX_GIVEUP, any other is followed by a
draw, and where the entry was withdrawn there is neither. A message from a station X, or a REPEAT naming it,
that is on its way while the own REPEAT entry for X is sent is taken before the collision, and the entry stays,
or behind it, and the entry that waits for the end of the jam is removed (R128, R130, R131; log entry 26).
COLLISION outside SENDING and JAM_END outside JAMMING leave the state as it is (log entry 2). -/
def Obligations.CollisionJamsThenBacksOff : Prop :=
  (∀ (s : State) (e : QueueEntry) (rest : List QueueEntry), settled s →
    s.tx.state = .sending → s.tx.queue = e :: rest →
    exec .collision s = .next
      { s with
        flt := s.flt.count .collisions 1
        tx := { s.tx with queue := { e with collisions := e.collisions + 1 } :: rest
                          state := .jamming, inFlight := none, jamEntry := some e.cls } }) ∧
  (∀ (s : State) (e : QueueEntry) (rest : List QueueEntry) (x : Station), s.resetHeld = false →
    s.arriving = { Arrivals.nothing with claims := [.withdraw x] } → s.tx.state = .sending →
    s.tx.queue = e :: rest → e.isRepeatFor x = true → rest.any (·.isRepeatFor x) = false →
    exec .collision s = .next (eitherSide Config.handoffChoice collisionSeen s) ∧
    ∀ choose : Nat → Nat,
      let t := eitherSide choose collisionSeen s
      let jammed := { s.tx with queue := { e with collisions := e.collisions + 1 } :: rest
                                state := .jamming, inFlight := none, jamEntry := some e.cls }
      t = { s with arriving := .nothing, choices := s.choices + 1
                   flt := s.flt.count .collisions 1, tx := t.tx } ∧
      (choose s.choices % 2 = 0 → t.tx = jammed) ∧
      (choose s.choices % 2 ≠ 0 → t.tx = { jammed with queue := rest, jamEntry := none })) ∧
  (∀ s : State, settled s → s.tx.state ≠ .sending → exec .collision s = .next s) ∧
  (∀ s : State, settled s → s.tx.state ≠ .jamming → exec .jamEnd s = .next s) ∧
  (∀ s : State, settled s → s.tx.state = .jamming →
    let jammed := s.tx.queue.find? fun e => decide (s.tx.jamEntry = some e.cls)
    let ended := { s.tx with slotRunning := false, jamEntry := none }
    (jammed = none → exec .jamEnd s = .next
      { s with tx := { ended with backoffCount := 0
                                  state := if s.tx.queue = [] then .txIdle else .waitGap } }) ∧
    (∀ e, jammed = some e → e.collisions < 12 → exec .jamEnd s = .next
      { s with tx := { ended with
          generator := advanceGenerator s.tx.generator
          backoffCount := (advanceGenerator s.tx.generator).toNat % 2 ^ min e.collisions 6
          state := .waitGap } }) ∧
    (∀ e, jammed = some e → 12 ≤ e.collisions →
      let rest := s.tx.queue.filter (fun q => q.cls ≠ e.cls)
      exec .jamEnd s = .next
        { s with
          flt := s.flt.raise [.txGiveup]
          tx := { ended with queue := rest, state := if rest = [] then .txIdle else .waitGap
                             backoffCount := 0
                             heartbeat := if e.isStanding then 0 else s.tx.heartbeat } }))

/-- The backoff generator (R148): one advance moves it one place down with the exclusive-or of bits 0, 2, 3
and 5 entering at bit 15; the seeds lie in 499..7984, no two the same; it never reaches 0 from another
value; and no command but a draw, START, RESTART and the hard reset changes it. -/
def Obligations.GeneratorAdvancesOnlyAtADraw : Prop :=
  (∀ g : BitVec 16,
    (∀ i, i < 15 → (advanceGenerator g).getLsbD i = g.getLsbD (i + 1)) ∧
    (advanceGenerator g).getLsbD 15 =
      ((g.getLsbD 0 ^^ g.getLsbD 2) ^^ (g.getLsbD 3 ^^ g.getLsbD 5)) ∧
    (g ≠ 0#16 → advanceGenerator g ≠ 0#16)) ∧
  (∀ n : Station, 499 ≤ (backoffSeed n).toNat ∧ (backoffSeed n).toNat ≤ 7984) ∧
  (∀ n m : Station, backoffSeed n = backoffSeed m → n = m) ∧
  (∀ (c : Instr) (s t : State), exec c s = .next t → t.tx.generator ≠ s.tx.generator →
    c ∈ [.hardReset, .start, .restart, .jamEnd, .byteClocked 0x11#8, .byteClocked 0x13#8])

/-- The backoff generator repeats after 65535 advances from every value but 0, and not before (R148). -/
def Obligations.GeneratorHasFullPeriod : Prop :=
  ∀ g : BitVec 16, g ≠ 0#16 →
    advanceGenerator^[65535] g = g ∧ ∀ n, 0 < n → n < 65535 → advanceGenerator^[n] g ≠ g

/-- What reaches the outbound queue. A standing trigger (R140, R141, R150): ignored outside JOINING, MEMBER,
EVICTED and LEAVING; with no STANDING entry one is added, at the tail, or in LEAVING ahead of every waiting
entry; a waiting one is left; one in flight has renew set by a change trigger alone. A withdrawal for a
station (R130, R131): its waiting REPEAT entry is removed, and a queue left empty in WAIT_GAP or BACKOFF
returns the machine to TX_IDLE with a backoff count of 0; an entry in flight stays. An answer (R132) is a
trigger that changes no renew. -/
def Obligations.StandingTriggerEffects : Prop :=
  (∀ (t : BusTransmitter) (self : SelfState) (change : Bool),
    let u := t.owe self change
    (self.active = false → u = t) ∧
    (self.active = true → t.queue.any QueueEntry.isStanding = false →
      u = { t with queue := u.queue, state := if t.state = .txIdle then .waitGap else t.state } ∧
      (self ≠ .leaving → u.queue = t.queue ++ [.fresh .standing]) ∧
      (self = .leaving → t.state ≠ .sending → u.queue = .fresh .standing :: t.queue) ∧
      (∀ e rest, self = .leaving → t.state = .sending → t.queue = e :: rest →
        u.queue = e :: .fresh .standing :: rest)) ∧
    (∀ e rest, self.active = true → t.queue = e :: rest → t.queue.any QueueEntry.isStanding = true →
      (t.state ≠ .sending ∨ e.isStanding = false ∨ change = false → u = t) ∧
      (t.state = .sending → e.isStanding = true → change = true →
        rest.any QueueEntry.isStanding = false →
        u = { t with queue := { e with renew := true } :: rest }))) ∧
  (∀ (t : BusTransmitter) (self : SelfState) (x : Station), let u := t.takeClaim self (.withdraw x)
    (t.queue.any (·.isRepeatFor x) = false → u = t) ∧
    (∀ e rest, t.state = .sending → t.queue = e :: rest → e.isRepeatFor x = true → u = t) ∧
    (∀ e rest, t.queue = e :: rest → t.queue.any (·.isRepeatFor x) = true →
      t.state ≠ .sending ∨ e.isRepeatFor x = false →
      u.queue = t.queue.filter (fun e => !e.isRepeatFor x) ∧
      u = { t with
        queue := u.queue, state := u.state, backoffCount := u.backoffCount
        slotRunning := u.slotRunning, jamEntry := u.jamEntry } ∧
      (u.queue = [] → t.state ∈ [TransmitState.waitGap, .backoff] →
        u.state = .txIdle ∧ u.backoffCount = 0 ∧ u.slotRunning = false) ∧
      (u.queue ≠ [] ∨ t.state ∉ [TransmitState.waitGap, .backoff] →
        u.state = t.state ∧ u.backoffCount = t.backoffCount ∧ u.slotRunning = t.slotRunning) ∧
      (∀ reason, t.jamEntry = some (.repeatTo x reason) → u.jamEntry = none) ∧
      ((∀ reason, t.jamEntry ≠ some (.repeatTo x reason)) → u.jamEntry = t.jamEntry))) ∧
  (∀ (t : BusTransmitter) (self : SelfState), t.takeClaim self .answer = t.owe self false)
end

