-- ==== Sys2Proof/Laws/Operands.lean ====
section
/-! SUPPORT. What the modular orders, the sets of stations, the byte layouts, the bounds and the sort of
Machine/Operands.lean give, one lemma each. -/

namespace Sys2Proof.Machine

/-! ## Orders (Conventions) -/

theorem isAfter_irrefl (g : Count) : isAfter g g = false := by simp [isAfter]

theorem notAfter_refl (g : Count) : notAfter g g = true := by simp [notAfter]

theorem notBefore_refl (g : Count) : notBefore g g = true := by simp [notBefore]

/-- A count is not both after and not after another. -/
theorem notAfter_eq_false_of_isAfter {h g : Count} (a : isAfter h g = true) : notAfter h g = false := by
  simp [notAfter, isBefore, isAfter] at a ⊢
  bv_omega

/-- "Not after" with the distance as a number: 0..2^31−1 back. -/
theorem notAfter_iff (h g : Count) : notAfter h g = true ↔ (g - h).toNat < 2147483648 := by
  simp [notAfter, isBefore, isAfter]
  bv_omega

theorem isNewer_irrefl (t : Tag) : isNewer t t = false := by simp [isNewer]

theorem isOlder_asymm {a b : Tag} (h : isOlder a b = true) : isOlder b a = false := by
  simp [isOlder, isNewer] at h ⊢
  bv_omega

/-! ## Sets of stations -/

theorem mem_stations (n : Station) : n ∈ stations := by revert n; decide

/-- The bit of one station in a mask of another. -/
theorem stationBit (m n : Station) : (1#16 <<< m.val).getLsbD n.val = decide (n = m) := by
  revert m n; decide

/-- A set gathered station by station holds those that were in it and those that pass. -/
theorem hasStation_gather (test : Station → Bool) (ns : List Station) (set : StationSet) (n : Station) :
    hasStation (ns.foldl (fun acc m => if test m then acc ||| (1#16 <<< m.val) else acc) set) n =
      (hasStation set n || (ns.contains n && test n)) := by
  induction ns generalizing set with
  | nil => simp
  | cons m ms ih =>
    rw [List.foldl_cons, ih]
    have hbit : hasStation (if test m then set ||| (1#16 <<< m.val) else set) n =
        (hasStation set n || (decide (n = m) && test n)) := by
      by_cases hm : n = m
      · subst hm
        cases test n <;> simp [hasStation]
      · cases test m
        · simp [hm]
        · simp only [hasStation, BitVec.getLsbD_or, stationBit, hm, if_true]
          simp
    rw [hbit, List.contains_cons, Bool.or_assoc, ← Bool.and_or_distrib_right]
    rfl

/-- A station is in the set of those that pass a test exactly when it passes. -/
theorem hasStation_stationSetOf (test : Station → Bool) (n : Station) :
    hasStation (stationSetOf test) n = test n := by
  have : stations.contains n = true := by simpa using mem_stations n
  rw [stationSetOf, hasStation_gather, this]
  simp [hasStation]

/-! ## Bounds -/

theorem boundLength_le (fl : Nat) (x : Int) : boundLength fl x ≤ fl + fl / 2 := by
  simp only [boundLength]; omega

theorem le_boundLength (fl : Nat) (x : Int) : fl / 2 ≤ boundLength fl x := by
  simp only [boundLength]; omega

theorem boundLength_of_within {fl n : Nat} (lo : fl / 2 ≤ n) (hi : n ≤ fl + fl / 2) :
    boundLength fl (n : Int) = n := by
  simp only [boundLength]; omega

theorem boundLines_bounds (limit : Nat) (x : Int) :
    -(limit : Int) ≤ boundLines limit x ∧ boundLines limit x ≤ (limit : Int) := by
  simp only [boundLines]; omega

/-! ## The sort of the trim decision -/

theorem insertAscending_perm (x : Int) (xs : List Int) : (insertAscending x xs).Perm (x :: xs) := by
  induction xs with
  | nil => exact .refl _
  | cons y ys ih =>
    simp only [insertAscending]
    split
    · exact .refl _
    · exact (ih.cons y).trans (.swap x y ys)

theorem sortAscending_perm (xs : List Int) : (sortAscending xs).Perm xs := by
  induction xs with
  | nil => exact .refl _
  | cons x xs ih => exact (insertAscending_perm x _).trans (ih.cons x)

theorem insertAscending_pairwise (x : Int) {xs : List Int} (h : xs.Pairwise (· ≤ ·)) :
    (insertAscending x xs).Pairwise (· ≤ ·) := by
  induction xs with
  | nil => simp [insertAscending]
  | cons y ys ih =>
    simp only [insertAscending]
    have hy := List.pairwise_cons.1 h
    split
    · refine List.pairwise_cons.2 ⟨fun z hz => ?_, h⟩
      rcases List.mem_cons.1 hz with rfl | hz
      · assumption
      · exact le_trans (by assumption) (hy.1 z hz)
    · refine List.pairwise_cons.2 ⟨fun z hz => ?_, ih hy.2⟩
      rcases List.mem_cons.1 ((insertAscending_perm x ys).mem_iff.1 hz) with rfl | hz
      · omega
      · exact hy.1 z hz

theorem sortAscending_pairwise (xs : List Int) : (sortAscending xs).Pairwise (· ≤ ·) := by
  induction xs with
  | nil => exact List.Pairwise.nil
  | cons x xs ih => exact insertAscending_pairwise x ih

/-! ## Byte layouts -/

@[simp] theorem bytesOf_length (n v : Nat) : (bytesOf n v).length = n := by
  induction n generalizing v with
  | zero => rfl
  | succ n ih => simp [bytesOf, ih]

/-- Bytes spell back the number they were made from, modulo their size. -/
theorem ofBytes_bytesOf (n v : Nat) : ofBytes (bytesOf n v) = v % 256 ^ n := by
  induction n generalizing v with
  | zero => simp [bytesOf, ofBytes, Nat.mod_one]
  | succ n ih =>
    rw [bytesOf, ofBytes, ih, BitVec.toNat_ofNat, pow_succ' 256 n, Nat.mod_mul]

theorem ofBytes_lt (bs : List Byte) : ofBytes bs < 256 ^ bs.length := by
  induction bs with
  | nil => simp [ofBytes]
  | cons b bs ih =>
    have := b.isLt
    simp only [ofBytes, List.length_cons, pow_succ']
    omega

/-- A field that stands behind a prefix of its offset's length. -/
theorem field_append (pre bs post : List Byte) :
    field (pre ++ bs ++ post) pre.length bs.length = ofBytes bs := by
  simp [field, List.append_assoc]

@[simp] theorem countBytes_length (c : Option Count) : (countBytes c).length = 4 := bytesOf_length 4 _

@[simp] theorem tagBytes_length (t : Option Tag) : (tagBytes t).length = 2 := bytesOf_length 2 _

@[simp] theorem signedBytes_length (x : Int) : (signedBytes x).length = 2 := bytesOf_length 2 _

@[simp] theorem pairBytes_length (ps : List ReadyPair) : (pairBytes ps).length = 6 * ps.length := by
  induction ps with
  | nil => rfl
  | cons p ps ih =>
    simp only [pairBytes, List.flatMap_cons, List.length_append, bytesOf_length, List.length_cons] at ih ⊢
    omega

theorem flagBits_lt (bs : List Bool) : flagBits bs < 2 ^ bs.length := by
  induction bs with
  | nil => simp [flagBits]
  | cons b bs ih =>
    simp only [flagBits, List.length_cons, pow_succ']
    cases b <;> simp <;> omega

/-- Bit i of the flags is the i-th flag. -/
theorem flagBits_testBit (bs : List Bool) (i : Nat) : (flagBits bs).testBit i = bs.getD i false := by
  induction bs generalizing i with
  | nil => simp [flagBits]
  | cons b bs ih =>
    cases i with
    | zero => cases b <;> simp [flagBits, Nat.testBit_zero]
    | succ i =>
      simp only [flagBits, Nat.testBit_succ, List.getD_cons_succ, ← ih]
      congr 1
      cases b <;> simp
      omega

end Sys2Proof.Machine
end

