-- ==== Sys2Proof/Laws/Buffers.lean ====
section
/-! SUPPORT. What each claim on the buffer pool does to the records, the own ready list and the shown tag
(chapter 3). -/

namespace Sys2Proof.Machine

theorem mem_bufferIds (i : BufferId) : i ∈ bufferIds := by revert i; decide

/-- A record found in a state is in that state. -/
theorem BufferManager.find_state {b : BufferManager} {st : BufferState} {i : BufferId}
    (h : b.find st = some i) : b.records[i].state = st := by
  have := List.find?_some h
  simpa using this

/-- No record is in a state that is not found. -/
theorem BufferManager.find_none {b : BufferManager} {st : BufferState} (h : b.find st = none)
    (i : BufferId) : b.records[i].state ≠ st := by
  have := List.find?_eq_none.1 h i (mem_bufferIds i)
  simpa using this

/-- A READY buffer found for a tag is READY and holds the tag. -/
theorem BufferManager.findReady_record {b : BufferManager} {tag : Tag} {i : BufferId}
    (h : b.findReady tag = some i) : b.records[i].state = .ready ∧ b.records[i].tag = some tag := by
  have := List.find?_some h
  simpa using this

@[simp] theorem BufferManager.setRecord_self (b : BufferManager) (i : BufferId) (r : BufferRecord) :
    (b.setRecord i r).records[i.val] = r := by simp [setRecord]

theorem BufferManager.setRecord_other (b : BufferManager) {i k : BufferId} (r : BufferRecord)
    (h : k ≠ i) : (b.setRecord i r).records[k] = b.records[k] := by
  have : i.val ≠ k.val := fun e => h (Fin.ext e.symm)
  simp [setRecord, Vector.getElem_set_ne _ _ this]

@[simp] theorem BufferManager.setRecord_ready (b : BufferManager) (i : BufferId) (r : BufferRecord) :
    (b.setRecord i r).ready = b.ready := rfl
@[simp] theorem BufferManager.setRecord_shownTag (b : BufferManager) (i : BufferId)
    (r : BufferRecord) : (b.setRecord i r).shownTag = b.shownTag := rfl
@[simp] theorem BufferManager.setRecord_shownSince (b : BufferManager) (i : BufferId)
    (r : BufferRecord) : (b.setRecord i r).shownSince = b.shownSince := rfl

/-- An abort frees the FILLING buffer or changes nothing (R58). -/
theorem BufferManager.abort_cases (b : BufferManager) :
    (b.find .filling = none ∧ b.abort = b) ∨
      ∃ i, b.find .filling = some i ∧ b.abort = b.setRecord i .free := by
  cases h : b.find .filling <;> simp [abort, h]

/-- A pool that differs from another in the pinned flags of READY records alone. -/
def BufferManager.SameButPins (b c : BufferManager) : Prop :=
  c.ready = b.ready ∧ c.shownTag = b.shownTag ∧ c.shownSince = b.shownSince ∧
    ∀ i : BufferId, c.records[i] = b.records[i] ∨
      (b.records[i].state = .ready ∧
        c.records[i] = { b.records[i] with pinned := c.records[i].pinned })

theorem BufferManager.SameButPins.refl (b : BufferManager) : b.SameButPins b :=
  ⟨rfl, rfl, rfl, fun _ => .inl rfl⟩

theorem BufferManager.SameButPins.trans {a b c : BufferManager} (h : a.SameButPins b)
    (k : b.SameButPins c) : a.SameButPins c := by
  obtain ⟨h1, h2, h3, h4⟩ := h
  obtain ⟨k1, k2, k3, k4⟩ := k
  refine ⟨k1.trans h1, k2.trans h2, k3.trans h3, fun i => ?_⟩
  rcases h4 i with e | ⟨r, e⟩ <;> rcases k4 i with e' | ⟨r', e'⟩
  · exact .inl (e'.trans e)
  · exact .inr ⟨e ▸ r', by rw [e', e]⟩
  · exact .inr ⟨r, by rw [e']; exact e⟩
  · exact .inr ⟨r, by rw [e', e]⟩

/-- A change of one READY record's pinned flag. -/
theorem BufferManager.setPinned_sameButPins (b : BufferManager) (i : BufferId) (x : Bool)
    (h : b.records[i].state = .ready) :
    b.SameButPins (b.setRecord i { b.records[i] with pinned := x }) := by
  refine ⟨rfl, rfl, rfl, fun k => ?_⟩
  by_cases hk : k = i
  · subst hk
    exact .inr ⟨h, by simp⟩
  · exact .inl (b.setRecord_other _ hk)

/-- A pin claim granted changes a pinned flag alone (R59). -/
theorem BufferManager.pin_sameButPins {b c : BufferManager} {tag : Tag} (h : b.pin tag = some c) :
    b.SameButPins c := by
  unfold pin at h
  split at h
  · rename_i i hi
    cases h
    exact b.setPinned_sameButPins i true (findReady_record hi).1
  · cases h

/-- Unpin requests change pinned flags alone (R60). -/
theorem BufferManager.unpinAll_sameButPins (b : BufferManager) (tags : List Tag) :
    b.SameButPins (b.unpinAll tags) := by
  induction tags generalizing b with
  | nil => exact .refl b
  | cons t ts ih =>
    refine .trans ?_ (ih (b.unpin t))
    unfold unpin
    split
    · rename_i i hi
      exact b.setPinned_sameButPins i false (findReady_record hi).1
    · exact .refl b

/-- A completed line write changes the line count of the FILLING record alone (R56). -/
theorem BufferManager.countLine_cases (b : BufferManager) (al : Nat) :
    (b.find .filling = none ∧ b.countLine al = b) ∨
      ∃ i, b.find .filling = some i ∧ b.countLine al =
        b.setRecord i { b.records[i] with lineCount := min al (b.records[i].lineCount + 1) } := by
  cases h : b.find .filling <;> simp [countLine, h]

/-- A completion makes the FILLING record READY and puts it at the tail of the own ready list, or
changes nothing (R57). -/
theorem BufferManager.complete_cases (b : BufferManager) (count : Count) :
    (b.find .filling = none ∧ b.complete count = none) ∨
      ∃ i c, b.find .filling = some i ∧ b.complete count = some c ∧ c.ready = b.ready ++ [i] ∧
        c.records[i] = { b.records[i] with state := .ready, readyStamp := some count } ∧
        (∀ k : BufferId, k ≠ i → c.records[k] = b.records[k]) ∧ c.shownTag = b.shownTag ∧
        c.shownSince = b.shownSince := by
  cases h : b.find .filling with
  | none => exact .inl ⟨rfl, by simp [complete, h]⟩
  | some i =>
    refine .inr ⟨i, { b.setRecord i { b.records[i] with state := .ready, readyStamp := some count } with
      ready := b.ready ++ [i] }, rfl, by simp only [complete, h], rfl, ?_, fun k hk => ?_, rfl, rfl⟩
    · exact b.setRecord_self i _
    · exact b.setRecord_other _ hk

/-- An allocation grants a FREE record, reclaims an unpinned one of the own ready list under LATEST, or
refuses; the shown tag stays (R52 to R55). -/
theorem BufferManager.allocate_cases (b : BufferManager) (policy : Policy) (tag : Tag) :
    let a := b.abort
    (∃ i, a.find .free = some i ∧ a.ready.length < 3 ∧ b.allocate policy tag =
      { grant := some i, reclaimed := false, pool := a.setRecord i (.filling tag) }) ∨
    (∃ i, policy = .latest ∧ a.available = none ∧ a.reclaimable = some i ∧ b.allocate policy tag =
      { grant := some i, reclaimed := true
        pool := { a.setRecord i (.filling tag) with ready := a.ready.filter (· != i) } }) ∨
    (a.available = none ∧ (policy = .fifo ∨ a.reclaimable = none) ∧
      b.allocate policy tag = { grant := none, reclaimed := false, pool := a }) := by
  intro a
  cases h : a.available with
  | some i =>
    refine .inl ⟨i, ?_, ?_, by simp only [allocate, allocateFrom]; rw [show b.abort.available = some i from h]⟩
    all_goals
      unfold available at h
      split at h
      · first | exact h | assumption
      · cases h
  | none =>
    right
    cases policy with
    | fifo =>
      refine .inr ⟨rfl, .inl rfl, ?_⟩
      simp only [allocate, allocateFrom]
      rw [show b.abort.available = none from h]
    | latest =>
      cases hr : a.reclaimable with
      | some i =>
        refine .inl ⟨i, rfl, rfl, rfl, ?_⟩
        simp only [allocate, allocateFrom]
        rw [show b.abort.available = none from h, show b.abort.reclaimable = some i from hr]
      | none =>
        refine .inr ⟨rfl, .inr rfl, ?_⟩
        simp only [allocate, allocateFrom]
        rw [show b.abort.available = none from h, show b.abort.reclaimable = none from hr]

/-- A swap carried out (R62): each record by `swappedRecord`, the swapped and the older tags leave the
own ready list, and the shown tag and shown-since are set. -/
theorem BufferManager.swapTo_some {b c : BufferManager} {tag : Tag} {g : Count} {n : Nat}
    (h : b.swapTo tag g = some (c, n)) :
    ∃ i, b.findReady tag = some i ∧ n = b.passedOverCount tag i ∧
      (∀ k : BufferId, c.records[k] = swappedRecord tag i k b.records[k]) ∧
      c.ready = (b.ready.filter fun k => k != i && !(b.records[k].passedOver tag)) ∧
      c.shownTag = some tag ∧ c.shownSince = some g := by
  unfold swapTo at h
  split at h
  · rename_i i hi
    cases h
    exact ⟨i, hi, rfl, fun k => by simp, rfl, rfl, rfl⟩
  · cases h

/-- The tags held are the own shown tag and the own ready tags. -/
theorem BufferManager.mem_heldTags (b : BufferManager) (tag : Tag) :
    tag ∈ b.heldTags ↔ b.shownTag = some tag ∨ ∃ p ∈ b.readyList, p.tag = tag := by
  simp [heldTags]

/-- A tag is newer than every tag held: than the own shown tag and than every own ready tag (R50). -/
theorem BufferManager.newerThanHeld_iff (b : BufferManager) (tag : Tag) : b.newerThanHeld tag = true ↔
    (∀ shown, b.shownTag = some shown → isNewer tag shown = true) ∧
      ∀ p ∈ b.readyList, isNewer tag p.tag = true := by
  cases h : b.shownTag <;> simp [newerThanHeld, heldTags, h]

/-- Where the newest tag held is there, it is held and newer than every other one (R70). -/
theorem BufferManager.newestHeld_some {b : BufferManager} {m : Tag} (h : b.newestHeld = some m) :
    m ∈ b.heldTags ∧ ∀ x ∈ b.heldTags, x = m ∨ isNewer m x = true := by
  have := List.find?_some h
  exact ⟨List.mem_of_find?_eq_some h, fun x hx => by simpa using List.all_eq_true.1 this x hx⟩

/-- A tag newer than every tag held passes the staleness check, and every tag that passes it is newer than
the newest held, where there is one (R50, R70). -/
theorem BufferManager.passesStaleness_of_newerThanHeld {b : BufferManager} {tag : Tag}
    (h : b.newerThanHeld tag = true) : b.passesStaleness tag = true := by
  simp [passesStaleness, h]

theorem BufferManager.newer_of_passesStaleness {b : BufferManager} {tag m : Tag}
    (h : b.passesStaleness tag = true) (hm : b.newestHeld = some m) : isNewer tag m = true := by
  simp only [passesStaleness, newerThanNewest, hm, Bool.or_eq_true, Bool.and_eq_true] at h
  rcases h with h | h
  · exact List.all_eq_true.1 h m (newestHeld_some hm).1
  · exact h.1

end Sys2Proof.Machine
end

