-- ==== Sys2Proof/Laws/State.lean ====
section
/-! SUPPORT. One lemma per field per named update of State, each true by rfl, so that no proof
unfolds a record update; and that State is its own fields. -/

namespace Sys2Proof.Machine.State

@[simp] theorem withPending_pending (s : State) (x : List Instr) : (s.withPending x).pending = x := rfl
@[simp] theorem withPending_resetHeld (s : State) (x : List Instr) : (s.withPending x).resetHeld = s.resetHeld := rfl
@[simp] theorem withPending_choices (s : State) (x : List Instr) : (s.withPending x).choices = s.choices := rfl
@[simp] theorem withPending_line (s : State) (x : List Instr) : (s.withPending x).line = s.line := rfl
@[simp] theorem withPending_ros (s : State) (x : List Instr) : (s.withPending x).ros = s.ros := rfl
@[simp] theorem withPending_agr (s : State) (x : List Instr) : (s.withPending x).agr = s.agr := rfl
@[simp] theorem withPending_buf (s : State) (x : List Instr) : (s.withPending x).buf = s.buf := rfl
@[simp] theorem withPending_cap (s : State) (x : List Instr) : (s.withPending x).cap = s.cap := rfl
@[simp] theorem withPending_scn (s : State) (x : List Instr) : (s.withPending x).scn = s.scn := rfl
@[simp] theorem withPending_tim (s : State) (x : List Instr) : (s.withPending x).tim = s.tim := rfl
@[simp] theorem withPending_rx (s : State) (x : List Instr) : (s.withPending x).rx = s.rx := rfl
@[simp] theorem withPending_tx (s : State) (x : List Instr) : (s.withPending x).tx = s.tx := rfl
@[simp] theorem withPending_flt (s : State) (x : List Instr) : (s.withPending x).flt = s.flt := rfl
@[simp] theorem withPending_lpt (s : State) (x : List Instr) : (s.withPending x).lpt = s.lpt := rfl
@[simp] theorem withPending_arriving (s : State) (x : List Instr) : (s.withPending x).arriving = s.arriving := rfl
@[simp] theorem withPending_mem (s : State) (x : List Instr) : (s.withPending x).mem = s.mem := rfl
@[simp] theorem withPending_withPending (s : State) (x y : List Instr) :
    (s.withPending x).withPending y = s.withPending y := rfl
@[simp] theorem withPending_self (s : State) : s.withPending s.pending = s := rfl

@[simp] theorem withResetHeld_pending (s : State) (x : Bool) : (s.withResetHeld x).pending = s.pending := rfl
@[simp] theorem withResetHeld_resetHeld (s : State) (x : Bool) : (s.withResetHeld x).resetHeld = x := rfl
@[simp] theorem withResetHeld_choices (s : State) (x : Bool) : (s.withResetHeld x).choices = s.choices := rfl
@[simp] theorem withResetHeld_line (s : State) (x : Bool) : (s.withResetHeld x).line = s.line := rfl
@[simp] theorem withResetHeld_ros (s : State) (x : Bool) : (s.withResetHeld x).ros = s.ros := rfl
@[simp] theorem withResetHeld_agr (s : State) (x : Bool) : (s.withResetHeld x).agr = s.agr := rfl
@[simp] theorem withResetHeld_buf (s : State) (x : Bool) : (s.withResetHeld x).buf = s.buf := rfl
@[simp] theorem withResetHeld_cap (s : State) (x : Bool) : (s.withResetHeld x).cap = s.cap := rfl
@[simp] theorem withResetHeld_scn (s : State) (x : Bool) : (s.withResetHeld x).scn = s.scn := rfl
@[simp] theorem withResetHeld_tim (s : State) (x : Bool) : (s.withResetHeld x).tim = s.tim := rfl
@[simp] theorem withResetHeld_rx (s : State) (x : Bool) : (s.withResetHeld x).rx = s.rx := rfl
@[simp] theorem withResetHeld_tx (s : State) (x : Bool) : (s.withResetHeld x).tx = s.tx := rfl
@[simp] theorem withResetHeld_flt (s : State) (x : Bool) : (s.withResetHeld x).flt = s.flt := rfl
@[simp] theorem withResetHeld_lpt (s : State) (x : Bool) : (s.withResetHeld x).lpt = s.lpt := rfl
@[simp] theorem withResetHeld_arriving (s : State) (x : Bool) : (s.withResetHeld x).arriving = s.arriving := rfl
@[simp] theorem withResetHeld_mem (s : State) (x : Bool) : (s.withResetHeld x).mem = s.mem := rfl
@[simp] theorem withResetHeld_withResetHeld (s : State) (x y : Bool) :
    (s.withResetHeld x).withResetHeld y = s.withResetHeld y := rfl
@[simp] theorem withResetHeld_self (s : State) : s.withResetHeld s.resetHeld = s := rfl

@[simp] theorem withChoices_pending (s : State) (x : Nat) : (s.withChoices x).pending = s.pending := rfl
@[simp] theorem withChoices_resetHeld (s : State) (x : Nat) : (s.withChoices x).resetHeld = s.resetHeld := rfl
@[simp] theorem withChoices_choices (s : State) (x : Nat) : (s.withChoices x).choices = x := rfl
@[simp] theorem withChoices_line (s : State) (x : Nat) : (s.withChoices x).line = s.line := rfl
@[simp] theorem withChoices_ros (s : State) (x : Nat) : (s.withChoices x).ros = s.ros := rfl
@[simp] theorem withChoices_agr (s : State) (x : Nat) : (s.withChoices x).agr = s.agr := rfl
@[simp] theorem withChoices_buf (s : State) (x : Nat) : (s.withChoices x).buf = s.buf := rfl
@[simp] theorem withChoices_cap (s : State) (x : Nat) : (s.withChoices x).cap = s.cap := rfl
@[simp] theorem withChoices_scn (s : State) (x : Nat) : (s.withChoices x).scn = s.scn := rfl
@[simp] theorem withChoices_tim (s : State) (x : Nat) : (s.withChoices x).tim = s.tim := rfl
@[simp] theorem withChoices_rx (s : State) (x : Nat) : (s.withChoices x).rx = s.rx := rfl
@[simp] theorem withChoices_tx (s : State) (x : Nat) : (s.withChoices x).tx = s.tx := rfl
@[simp] theorem withChoices_flt (s : State) (x : Nat) : (s.withChoices x).flt = s.flt := rfl
@[simp] theorem withChoices_lpt (s : State) (x : Nat) : (s.withChoices x).lpt = s.lpt := rfl
@[simp] theorem withChoices_arriving (s : State) (x : Nat) : (s.withChoices x).arriving = s.arriving := rfl
@[simp] theorem withChoices_mem (s : State) (x : Nat) : (s.withChoices x).mem = s.mem := rfl
@[simp] theorem withChoices_withChoices (s : State) (x y : Nat) :
    (s.withChoices x).withChoices y = s.withChoices y := rfl
@[simp] theorem withChoices_self (s : State) : s.withChoices s.choices = s := rfl

@[simp] theorem withLine_pending (s : State) (x : BusLine) : (s.withLine x).pending = s.pending := rfl
@[simp] theorem withLine_resetHeld (s : State) (x : BusLine) : (s.withLine x).resetHeld = s.resetHeld := rfl
@[simp] theorem withLine_choices (s : State) (x : BusLine) : (s.withLine x).choices = s.choices := rfl
@[simp] theorem withLine_line (s : State) (x : BusLine) : (s.withLine x).line = x := rfl
@[simp] theorem withLine_ros (s : State) (x : BusLine) : (s.withLine x).ros = s.ros := rfl
@[simp] theorem withLine_agr (s : State) (x : BusLine) : (s.withLine x).agr = s.agr := rfl
@[simp] theorem withLine_buf (s : State) (x : BusLine) : (s.withLine x).buf = s.buf := rfl
@[simp] theorem withLine_cap (s : State) (x : BusLine) : (s.withLine x).cap = s.cap := rfl
@[simp] theorem withLine_scn (s : State) (x : BusLine) : (s.withLine x).scn = s.scn := rfl
@[simp] theorem withLine_tim (s : State) (x : BusLine) : (s.withLine x).tim = s.tim := rfl
@[simp] theorem withLine_rx (s : State) (x : BusLine) : (s.withLine x).rx = s.rx := rfl
@[simp] theorem withLine_tx (s : State) (x : BusLine) : (s.withLine x).tx = s.tx := rfl
@[simp] theorem withLine_flt (s : State) (x : BusLine) : (s.withLine x).flt = s.flt := rfl
@[simp] theorem withLine_lpt (s : State) (x : BusLine) : (s.withLine x).lpt = s.lpt := rfl
@[simp] theorem withLine_arriving (s : State) (x : BusLine) : (s.withLine x).arriving = s.arriving := rfl
@[simp] theorem withLine_mem (s : State) (x : BusLine) : (s.withLine x).mem = s.mem := rfl
@[simp] theorem withLine_withLine (s : State) (x y : BusLine) :
    (s.withLine x).withLine y = s.withLine y := rfl
@[simp] theorem withLine_self (s : State) : s.withLine s.line = s := rfl

@[simp] theorem withRos_pending (s : State) (x : RosterUnit) : (s.withRos x).pending = s.pending := rfl
@[simp] theorem withRos_resetHeld (s : State) (x : RosterUnit) : (s.withRos x).resetHeld = s.resetHeld := rfl
@[simp] theorem withRos_choices (s : State) (x : RosterUnit) : (s.withRos x).choices = s.choices := rfl
@[simp] theorem withRos_line (s : State) (x : RosterUnit) : (s.withRos x).line = s.line := rfl
@[simp] theorem withRos_ros (s : State) (x : RosterUnit) : (s.withRos x).ros = x := rfl
@[simp] theorem withRos_agr (s : State) (x : RosterUnit) : (s.withRos x).agr = s.agr := rfl
@[simp] theorem withRos_buf (s : State) (x : RosterUnit) : (s.withRos x).buf = s.buf := rfl
@[simp] theorem withRos_cap (s : State) (x : RosterUnit) : (s.withRos x).cap = s.cap := rfl
@[simp] theorem withRos_scn (s : State) (x : RosterUnit) : (s.withRos x).scn = s.scn := rfl
@[simp] theorem withRos_tim (s : State) (x : RosterUnit) : (s.withRos x).tim = s.tim := rfl
@[simp] theorem withRos_rx (s : State) (x : RosterUnit) : (s.withRos x).rx = s.rx := rfl
@[simp] theorem withRos_tx (s : State) (x : RosterUnit) : (s.withRos x).tx = s.tx := rfl
@[simp] theorem withRos_flt (s : State) (x : RosterUnit) : (s.withRos x).flt = s.flt := rfl
@[simp] theorem withRos_lpt (s : State) (x : RosterUnit) : (s.withRos x).lpt = s.lpt := rfl
@[simp] theorem withRos_arriving (s : State) (x : RosterUnit) : (s.withRos x).arriving = s.arriving := rfl
@[simp] theorem withRos_mem (s : State) (x : RosterUnit) : (s.withRos x).mem = s.mem := rfl
@[simp] theorem withRos_withRos (s : State) (x y : RosterUnit) :
    (s.withRos x).withRos y = s.withRos y := rfl
@[simp] theorem withRos_self (s : State) : s.withRos s.ros = s := rfl

@[simp] theorem withAgr_pending (s : State) (x : AgreementUnit) : (s.withAgr x).pending = s.pending := rfl
@[simp] theorem withAgr_resetHeld (s : State) (x : AgreementUnit) : (s.withAgr x).resetHeld = s.resetHeld := rfl
@[simp] theorem withAgr_choices (s : State) (x : AgreementUnit) : (s.withAgr x).choices = s.choices := rfl
@[simp] theorem withAgr_line (s : State) (x : AgreementUnit) : (s.withAgr x).line = s.line := rfl
@[simp] theorem withAgr_ros (s : State) (x : AgreementUnit) : (s.withAgr x).ros = s.ros := rfl
@[simp] theorem withAgr_agr (s : State) (x : AgreementUnit) : (s.withAgr x).agr = x := rfl
@[simp] theorem withAgr_buf (s : State) (x : AgreementUnit) : (s.withAgr x).buf = s.buf := rfl
@[simp] theorem withAgr_cap (s : State) (x : AgreementUnit) : (s.withAgr x).cap = s.cap := rfl
@[simp] theorem withAgr_scn (s : State) (x : AgreementUnit) : (s.withAgr x).scn = s.scn := rfl
@[simp] theorem withAgr_tim (s : State) (x : AgreementUnit) : (s.withAgr x).tim = s.tim := rfl
@[simp] theorem withAgr_rx (s : State) (x : AgreementUnit) : (s.withAgr x).rx = s.rx := rfl
@[simp] theorem withAgr_tx (s : State) (x : AgreementUnit) : (s.withAgr x).tx = s.tx := rfl
@[simp] theorem withAgr_flt (s : State) (x : AgreementUnit) : (s.withAgr x).flt = s.flt := rfl
@[simp] theorem withAgr_lpt (s : State) (x : AgreementUnit) : (s.withAgr x).lpt = s.lpt := rfl
@[simp] theorem withAgr_arriving (s : State) (x : AgreementUnit) : (s.withAgr x).arriving = s.arriving := rfl
@[simp] theorem withAgr_mem (s : State) (x : AgreementUnit) : (s.withAgr x).mem = s.mem := rfl
@[simp] theorem withAgr_withAgr (s : State) (x y : AgreementUnit) :
    (s.withAgr x).withAgr y = s.withAgr y := rfl
@[simp] theorem withAgr_self (s : State) : s.withAgr s.agr = s := rfl

@[simp] theorem withBuf_pending (s : State) (x : BufferManager) : (s.withBuf x).pending = s.pending := rfl
@[simp] theorem withBuf_resetHeld (s : State) (x : BufferManager) : (s.withBuf x).resetHeld = s.resetHeld := rfl
@[simp] theorem withBuf_choices (s : State) (x : BufferManager) : (s.withBuf x).choices = s.choices := rfl
@[simp] theorem withBuf_line (s : State) (x : BufferManager) : (s.withBuf x).line = s.line := rfl
@[simp] theorem withBuf_ros (s : State) (x : BufferManager) : (s.withBuf x).ros = s.ros := rfl
@[simp] theorem withBuf_agr (s : State) (x : BufferManager) : (s.withBuf x).agr = s.agr := rfl
@[simp] theorem withBuf_buf (s : State) (x : BufferManager) : (s.withBuf x).buf = x := rfl
@[simp] theorem withBuf_cap (s : State) (x : BufferManager) : (s.withBuf x).cap = s.cap := rfl
@[simp] theorem withBuf_scn (s : State) (x : BufferManager) : (s.withBuf x).scn = s.scn := rfl
@[simp] theorem withBuf_tim (s : State) (x : BufferManager) : (s.withBuf x).tim = s.tim := rfl
@[simp] theorem withBuf_rx (s : State) (x : BufferManager) : (s.withBuf x).rx = s.rx := rfl
@[simp] theorem withBuf_tx (s : State) (x : BufferManager) : (s.withBuf x).tx = s.tx := rfl
@[simp] theorem withBuf_flt (s : State) (x : BufferManager) : (s.withBuf x).flt = s.flt := rfl
@[simp] theorem withBuf_lpt (s : State) (x : BufferManager) : (s.withBuf x).lpt = s.lpt := rfl
@[simp] theorem withBuf_arriving (s : State) (x : BufferManager) : (s.withBuf x).arriving = s.arriving := rfl
@[simp] theorem withBuf_mem (s : State) (x : BufferManager) : (s.withBuf x).mem = s.mem := rfl
@[simp] theorem withBuf_withBuf (s : State) (x y : BufferManager) :
    (s.withBuf x).withBuf y = s.withBuf y := rfl
@[simp] theorem withBuf_self (s : State) : s.withBuf s.buf = s := rfl

@[simp] theorem withCap_pending (s : State) (x : CaptureUnit) : (s.withCap x).pending = s.pending := rfl
@[simp] theorem withCap_resetHeld (s : State) (x : CaptureUnit) : (s.withCap x).resetHeld = s.resetHeld := rfl
@[simp] theorem withCap_choices (s : State) (x : CaptureUnit) : (s.withCap x).choices = s.choices := rfl
@[simp] theorem withCap_line (s : State) (x : CaptureUnit) : (s.withCap x).line = s.line := rfl
@[simp] theorem withCap_ros (s : State) (x : CaptureUnit) : (s.withCap x).ros = s.ros := rfl
@[simp] theorem withCap_agr (s : State) (x : CaptureUnit) : (s.withCap x).agr = s.agr := rfl
@[simp] theorem withCap_buf (s : State) (x : CaptureUnit) : (s.withCap x).buf = s.buf := rfl
@[simp] theorem withCap_cap (s : State) (x : CaptureUnit) : (s.withCap x).cap = x := rfl
@[simp] theorem withCap_scn (s : State) (x : CaptureUnit) : (s.withCap x).scn = s.scn := rfl
@[simp] theorem withCap_tim (s : State) (x : CaptureUnit) : (s.withCap x).tim = s.tim := rfl
@[simp] theorem withCap_rx (s : State) (x : CaptureUnit) : (s.withCap x).rx = s.rx := rfl
@[simp] theorem withCap_tx (s : State) (x : CaptureUnit) : (s.withCap x).tx = s.tx := rfl
@[simp] theorem withCap_flt (s : State) (x : CaptureUnit) : (s.withCap x).flt = s.flt := rfl
@[simp] theorem withCap_lpt (s : State) (x : CaptureUnit) : (s.withCap x).lpt = s.lpt := rfl
@[simp] theorem withCap_arriving (s : State) (x : CaptureUnit) : (s.withCap x).arriving = s.arriving := rfl
@[simp] theorem withCap_mem (s : State) (x : CaptureUnit) : (s.withCap x).mem = s.mem := rfl
@[simp] theorem withCap_withCap (s : State) (x y : CaptureUnit) :
    (s.withCap x).withCap y = s.withCap y := rfl
@[simp] theorem withCap_self (s : State) : s.withCap s.cap = s := rfl

@[simp] theorem withScn_pending (s : State) (x : ScanOutUnit) : (s.withScn x).pending = s.pending := rfl
@[simp] theorem withScn_resetHeld (s : State) (x : ScanOutUnit) : (s.withScn x).resetHeld = s.resetHeld := rfl
@[simp] theorem withScn_choices (s : State) (x : ScanOutUnit) : (s.withScn x).choices = s.choices := rfl
@[simp] theorem withScn_line (s : State) (x : ScanOutUnit) : (s.withScn x).line = s.line := rfl
@[simp] theorem withScn_ros (s : State) (x : ScanOutUnit) : (s.withScn x).ros = s.ros := rfl
@[simp] theorem withScn_agr (s : State) (x : ScanOutUnit) : (s.withScn x).agr = s.agr := rfl
@[simp] theorem withScn_buf (s : State) (x : ScanOutUnit) : (s.withScn x).buf = s.buf := rfl
@[simp] theorem withScn_cap (s : State) (x : ScanOutUnit) : (s.withScn x).cap = s.cap := rfl
@[simp] theorem withScn_scn (s : State) (x : ScanOutUnit) : (s.withScn x).scn = x := rfl
@[simp] theorem withScn_tim (s : State) (x : ScanOutUnit) : (s.withScn x).tim = s.tim := rfl
@[simp] theorem withScn_rx (s : State) (x : ScanOutUnit) : (s.withScn x).rx = s.rx := rfl
@[simp] theorem withScn_tx (s : State) (x : ScanOutUnit) : (s.withScn x).tx = s.tx := rfl
@[simp] theorem withScn_flt (s : State) (x : ScanOutUnit) : (s.withScn x).flt = s.flt := rfl
@[simp] theorem withScn_lpt (s : State) (x : ScanOutUnit) : (s.withScn x).lpt = s.lpt := rfl
@[simp] theorem withScn_arriving (s : State) (x : ScanOutUnit) : (s.withScn x).arriving = s.arriving := rfl
@[simp] theorem withScn_mem (s : State) (x : ScanOutUnit) : (s.withScn x).mem = s.mem := rfl
@[simp] theorem withScn_withScn (s : State) (x y : ScanOutUnit) :
    (s.withScn x).withScn y = s.withScn y := rfl
@[simp] theorem withScn_self (s : State) : s.withScn s.scn = s := rfl

@[simp] theorem withTim_pending (s : State) (x : TimingUnit) : (s.withTim x).pending = s.pending := rfl
@[simp] theorem withTim_resetHeld (s : State) (x : TimingUnit) : (s.withTim x).resetHeld = s.resetHeld := rfl
@[simp] theorem withTim_choices (s : State) (x : TimingUnit) : (s.withTim x).choices = s.choices := rfl
@[simp] theorem withTim_line (s : State) (x : TimingUnit) : (s.withTim x).line = s.line := rfl
@[simp] theorem withTim_ros (s : State) (x : TimingUnit) : (s.withTim x).ros = s.ros := rfl
@[simp] theorem withTim_agr (s : State) (x : TimingUnit) : (s.withTim x).agr = s.agr := rfl
@[simp] theorem withTim_buf (s : State) (x : TimingUnit) : (s.withTim x).buf = s.buf := rfl
@[simp] theorem withTim_cap (s : State) (x : TimingUnit) : (s.withTim x).cap = s.cap := rfl
@[simp] theorem withTim_scn (s : State) (x : TimingUnit) : (s.withTim x).scn = s.scn := rfl
@[simp] theorem withTim_tim (s : State) (x : TimingUnit) : (s.withTim x).tim = x := rfl
@[simp] theorem withTim_rx (s : State) (x : TimingUnit) : (s.withTim x).rx = s.rx := rfl
@[simp] theorem withTim_tx (s : State) (x : TimingUnit) : (s.withTim x).tx = s.tx := rfl
@[simp] theorem withTim_flt (s : State) (x : TimingUnit) : (s.withTim x).flt = s.flt := rfl
@[simp] theorem withTim_lpt (s : State) (x : TimingUnit) : (s.withTim x).lpt = s.lpt := rfl
@[simp] theorem withTim_arriving (s : State) (x : TimingUnit) : (s.withTim x).arriving = s.arriving := rfl
@[simp] theorem withTim_mem (s : State) (x : TimingUnit) : (s.withTim x).mem = s.mem := rfl
@[simp] theorem withTim_withTim (s : State) (x y : TimingUnit) :
    (s.withTim x).withTim y = s.withTim y := rfl
@[simp] theorem withTim_self (s : State) : s.withTim s.tim = s := rfl

@[simp] theorem withRx_pending (s : State) (x : BusReceiver) : (s.withRx x).pending = s.pending := rfl
@[simp] theorem withRx_resetHeld (s : State) (x : BusReceiver) : (s.withRx x).resetHeld = s.resetHeld := rfl
@[simp] theorem withRx_choices (s : State) (x : BusReceiver) : (s.withRx x).choices = s.choices := rfl
@[simp] theorem withRx_line (s : State) (x : BusReceiver) : (s.withRx x).line = s.line := rfl
@[simp] theorem withRx_ros (s : State) (x : BusReceiver) : (s.withRx x).ros = s.ros := rfl
@[simp] theorem withRx_agr (s : State) (x : BusReceiver) : (s.withRx x).agr = s.agr := rfl
@[simp] theorem withRx_buf (s : State) (x : BusReceiver) : (s.withRx x).buf = s.buf := rfl
@[simp] theorem withRx_cap (s : State) (x : BusReceiver) : (s.withRx x).cap = s.cap := rfl
@[simp] theorem withRx_scn (s : State) (x : BusReceiver) : (s.withRx x).scn = s.scn := rfl
@[simp] theorem withRx_tim (s : State) (x : BusReceiver) : (s.withRx x).tim = s.tim := rfl
@[simp] theorem withRx_rx (s : State) (x : BusReceiver) : (s.withRx x).rx = x := rfl
@[simp] theorem withRx_tx (s : State) (x : BusReceiver) : (s.withRx x).tx = s.tx := rfl
@[simp] theorem withRx_flt (s : State) (x : BusReceiver) : (s.withRx x).flt = s.flt := rfl
@[simp] theorem withRx_lpt (s : State) (x : BusReceiver) : (s.withRx x).lpt = s.lpt := rfl
@[simp] theorem withRx_arriving (s : State) (x : BusReceiver) : (s.withRx x).arriving = s.arriving := rfl
@[simp] theorem withRx_mem (s : State) (x : BusReceiver) : (s.withRx x).mem = s.mem := rfl
@[simp] theorem withRx_withRx (s : State) (x y : BusReceiver) :
    (s.withRx x).withRx y = s.withRx y := rfl
@[simp] theorem withRx_self (s : State) : s.withRx s.rx = s := rfl

@[simp] theorem withTx_pending (s : State) (x : BusTransmitter) : (s.withTx x).pending = s.pending := rfl
@[simp] theorem withTx_resetHeld (s : State) (x : BusTransmitter) : (s.withTx x).resetHeld = s.resetHeld := rfl
@[simp] theorem withTx_choices (s : State) (x : BusTransmitter) : (s.withTx x).choices = s.choices := rfl
@[simp] theorem withTx_line (s : State) (x : BusTransmitter) : (s.withTx x).line = s.line := rfl
@[simp] theorem withTx_ros (s : State) (x : BusTransmitter) : (s.withTx x).ros = s.ros := rfl
@[simp] theorem withTx_agr (s : State) (x : BusTransmitter) : (s.withTx x).agr = s.agr := rfl
@[simp] theorem withTx_buf (s : State) (x : BusTransmitter) : (s.withTx x).buf = s.buf := rfl
@[simp] theorem withTx_cap (s : State) (x : BusTransmitter) : (s.withTx x).cap = s.cap := rfl
@[simp] theorem withTx_scn (s : State) (x : BusTransmitter) : (s.withTx x).scn = s.scn := rfl
@[simp] theorem withTx_tim (s : State) (x : BusTransmitter) : (s.withTx x).tim = s.tim := rfl
@[simp] theorem withTx_rx (s : State) (x : BusTransmitter) : (s.withTx x).rx = s.rx := rfl
@[simp] theorem withTx_tx (s : State) (x : BusTransmitter) : (s.withTx x).tx = x := rfl
@[simp] theorem withTx_flt (s : State) (x : BusTransmitter) : (s.withTx x).flt = s.flt := rfl
@[simp] theorem withTx_lpt (s : State) (x : BusTransmitter) : (s.withTx x).lpt = s.lpt := rfl
@[simp] theorem withTx_arriving (s : State) (x : BusTransmitter) : (s.withTx x).arriving = s.arriving := rfl
@[simp] theorem withTx_mem (s : State) (x : BusTransmitter) : (s.withTx x).mem = s.mem := rfl
@[simp] theorem withTx_withTx (s : State) (x y : BusTransmitter) :
    (s.withTx x).withTx y = s.withTx y := rfl
@[simp] theorem withTx_self (s : State) : s.withTx s.tx = s := rfl

@[simp] theorem withFlt_pending (s : State) (x : FaultUnit) : (s.withFlt x).pending = s.pending := rfl
@[simp] theorem withFlt_resetHeld (s : State) (x : FaultUnit) : (s.withFlt x).resetHeld = s.resetHeld := rfl
@[simp] theorem withFlt_choices (s : State) (x : FaultUnit) : (s.withFlt x).choices = s.choices := rfl
@[simp] theorem withFlt_line (s : State) (x : FaultUnit) : (s.withFlt x).line = s.line := rfl
@[simp] theorem withFlt_ros (s : State) (x : FaultUnit) : (s.withFlt x).ros = s.ros := rfl
@[simp] theorem withFlt_agr (s : State) (x : FaultUnit) : (s.withFlt x).agr = s.agr := rfl
@[simp] theorem withFlt_buf (s : State) (x : FaultUnit) : (s.withFlt x).buf = s.buf := rfl
@[simp] theorem withFlt_cap (s : State) (x : FaultUnit) : (s.withFlt x).cap = s.cap := rfl
@[simp] theorem withFlt_scn (s : State) (x : FaultUnit) : (s.withFlt x).scn = s.scn := rfl
@[simp] theorem withFlt_tim (s : State) (x : FaultUnit) : (s.withFlt x).tim = s.tim := rfl
@[simp] theorem withFlt_rx (s : State) (x : FaultUnit) : (s.withFlt x).rx = s.rx := rfl
@[simp] theorem withFlt_tx (s : State) (x : FaultUnit) : (s.withFlt x).tx = s.tx := rfl
@[simp] theorem withFlt_flt (s : State) (x : FaultUnit) : (s.withFlt x).flt = x := rfl
@[simp] theorem withFlt_lpt (s : State) (x : FaultUnit) : (s.withFlt x).lpt = s.lpt := rfl
@[simp] theorem withFlt_arriving (s : State) (x : FaultUnit) : (s.withFlt x).arriving = s.arriving := rfl
@[simp] theorem withFlt_mem (s : State) (x : FaultUnit) : (s.withFlt x).mem = s.mem := rfl
@[simp] theorem withFlt_withFlt (s : State) (x y : FaultUnit) :
    (s.withFlt x).withFlt y = s.withFlt y := rfl
@[simp] theorem withFlt_self (s : State) : s.withFlt s.flt = s := rfl

@[simp] theorem withLpt_pending (s : State) (x : LocalPort) : (s.withLpt x).pending = s.pending := rfl
@[simp] theorem withLpt_resetHeld (s : State) (x : LocalPort) : (s.withLpt x).resetHeld = s.resetHeld := rfl
@[simp] theorem withLpt_choices (s : State) (x : LocalPort) : (s.withLpt x).choices = s.choices := rfl
@[simp] theorem withLpt_line (s : State) (x : LocalPort) : (s.withLpt x).line = s.line := rfl
@[simp] theorem withLpt_ros (s : State) (x : LocalPort) : (s.withLpt x).ros = s.ros := rfl
@[simp] theorem withLpt_agr (s : State) (x : LocalPort) : (s.withLpt x).agr = s.agr := rfl
@[simp] theorem withLpt_buf (s : State) (x : LocalPort) : (s.withLpt x).buf = s.buf := rfl
@[simp] theorem withLpt_cap (s : State) (x : LocalPort) : (s.withLpt x).cap = s.cap := rfl
@[simp] theorem withLpt_scn (s : State) (x : LocalPort) : (s.withLpt x).scn = s.scn := rfl
@[simp] theorem withLpt_tim (s : State) (x : LocalPort) : (s.withLpt x).tim = s.tim := rfl
@[simp] theorem withLpt_rx (s : State) (x : LocalPort) : (s.withLpt x).rx = s.rx := rfl
@[simp] theorem withLpt_tx (s : State) (x : LocalPort) : (s.withLpt x).tx = s.tx := rfl
@[simp] theorem withLpt_flt (s : State) (x : LocalPort) : (s.withLpt x).flt = s.flt := rfl
@[simp] theorem withLpt_lpt (s : State) (x : LocalPort) : (s.withLpt x).lpt = x := rfl
@[simp] theorem withLpt_arriving (s : State) (x : LocalPort) : (s.withLpt x).arriving = s.arriving := rfl
@[simp] theorem withLpt_mem (s : State) (x : LocalPort) : (s.withLpt x).mem = s.mem := rfl
@[simp] theorem withLpt_withLpt (s : State) (x y : LocalPort) :
    (s.withLpt x).withLpt y = s.withLpt y := rfl
@[simp] theorem withLpt_self (s : State) : s.withLpt s.lpt = s := rfl

@[simp] theorem withArriving_pending (s : State) (x : Arrivals) : (s.withArriving x).pending = s.pending := rfl
@[simp] theorem withArriving_resetHeld (s : State) (x : Arrivals) : (s.withArriving x).resetHeld = s.resetHeld := rfl
@[simp] theorem withArriving_choices (s : State) (x : Arrivals) : (s.withArriving x).choices = s.choices := rfl
@[simp] theorem withArriving_line (s : State) (x : Arrivals) : (s.withArriving x).line = s.line := rfl
@[simp] theorem withArriving_ros (s : State) (x : Arrivals) : (s.withArriving x).ros = s.ros := rfl
@[simp] theorem withArriving_agr (s : State) (x : Arrivals) : (s.withArriving x).agr = s.agr := rfl
@[simp] theorem withArriving_buf (s : State) (x : Arrivals) : (s.withArriving x).buf = s.buf := rfl
@[simp] theorem withArriving_cap (s : State) (x : Arrivals) : (s.withArriving x).cap = s.cap := rfl
@[simp] theorem withArriving_scn (s : State) (x : Arrivals) : (s.withArriving x).scn = s.scn := rfl
@[simp] theorem withArriving_tim (s : State) (x : Arrivals) : (s.withArriving x).tim = s.tim := rfl
@[simp] theorem withArriving_rx (s : State) (x : Arrivals) : (s.withArriving x).rx = s.rx := rfl
@[simp] theorem withArriving_tx (s : State) (x : Arrivals) : (s.withArriving x).tx = s.tx := rfl
@[simp] theorem withArriving_flt (s : State) (x : Arrivals) : (s.withArriving x).flt = s.flt := rfl
@[simp] theorem withArriving_lpt (s : State) (x : Arrivals) : (s.withArriving x).lpt = s.lpt := rfl
@[simp] theorem withArriving_arriving (s : State) (x : Arrivals) : (s.withArriving x).arriving = x := rfl
@[simp] theorem withArriving_mem (s : State) (x : Arrivals) : (s.withArriving x).mem = s.mem := rfl
@[simp] theorem withArriving_withArriving (s : State) (x y : Arrivals) :
    (s.withArriving x).withArriving y = s.withArriving y := rfl
@[simp] theorem withArriving_self (s : State) : s.withArriving s.arriving = s := rfl

@[simp] theorem withMem_pending (s : State) (x : FrameMemory) : (s.withMem x).pending = s.pending := rfl
@[simp] theorem withMem_resetHeld (s : State) (x : FrameMemory) : (s.withMem x).resetHeld = s.resetHeld := rfl
@[simp] theorem withMem_choices (s : State) (x : FrameMemory) : (s.withMem x).choices = s.choices := rfl
@[simp] theorem withMem_line (s : State) (x : FrameMemory) : (s.withMem x).line = s.line := rfl
@[simp] theorem withMem_ros (s : State) (x : FrameMemory) : (s.withMem x).ros = s.ros := rfl
@[simp] theorem withMem_agr (s : State) (x : FrameMemory) : (s.withMem x).agr = s.agr := rfl
@[simp] theorem withMem_buf (s : State) (x : FrameMemory) : (s.withMem x).buf = s.buf := rfl
@[simp] theorem withMem_cap (s : State) (x : FrameMemory) : (s.withMem x).cap = s.cap := rfl
@[simp] theorem withMem_scn (s : State) (x : FrameMemory) : (s.withMem x).scn = s.scn := rfl
@[simp] theorem withMem_tim (s : State) (x : FrameMemory) : (s.withMem x).tim = s.tim := rfl
@[simp] theorem withMem_rx (s : State) (x : FrameMemory) : (s.withMem x).rx = s.rx := rfl
@[simp] theorem withMem_tx (s : State) (x : FrameMemory) : (s.withMem x).tx = s.tx := rfl
@[simp] theorem withMem_flt (s : State) (x : FrameMemory) : (s.withMem x).flt = s.flt := rfl
@[simp] theorem withMem_lpt (s : State) (x : FrameMemory) : (s.withMem x).lpt = s.lpt := rfl
@[simp] theorem withMem_arriving (s : State) (x : FrameMemory) : (s.withMem x).arriving = s.arriving := rfl
@[simp] theorem withMem_mem (s : State) (x : FrameMemory) : (s.withMem x).mem = x := rfl
@[simp] theorem withMem_withMem (s : State) (x y : FrameMemory) :
    (s.withMem x).withMem y = s.withMem y := rfl
@[simp] theorem withMem_self (s : State) : s.withMem s.mem = s := rfl

end Sys2Proof.Machine.State
end

