-- ==== Sys2Proof/Laws/Flags.lean ====
section
/-! SUPPORT. What a raise and a count signal do to the Fault Unit, and that they touch nothing else. -/

namespace Sys2Proof.Machine

theorem bump_self {n : Nat} (counters : Vector Nat n) (i : Fin n) (amount limit : Nat) :
    (bump counters i amount limit)[i] = min limit (counters[i] + amount) := by
  simp [bump]

theorem bump_other {n : Nat} (counters : Vector Nat n) {i j : Fin n} (amount limit : Nat) (h : j ≠ i) :
    (bump counters i amount limit)[j] = counters[j] := by
  have : i.val ≠ j.val := fun e => h (Fin.ext e.symm)
  simp [bump, Vector.getElem_set_ne _ _ this]

@[simp] theorem FaultUnit.raise_nil (f : FaultUnit) : f.raise [] = f := rfl

@[simp] theorem FaultUnit.raise_cons (f : FaultUnit) (k : FaultKind) (ks : List FaultKind) :
    f.raise (k :: ks) = (f.raiseKind k).raise ks := rfl

@[simp] theorem FaultUnit.raise_mask (f : FaultUnit) (ks : List FaultKind) :
    (f.raise ks).mask = f.mask := by
  induction ks generalizing f with
  | nil => rfl
  | cons k ks ih => rw [raise_cons, ih]; rfl

@[simp] theorem FaultUnit.raise_eventCounters (f : FaultUnit) (ks : List FaultKind) :
    (f.raise ks).eventCounters = f.eventCounters := by
  induction ks generalizing f with
  | nil => rfl
  | cons k ks ih => rw [raise_cons, ih]; rfl

/-- After a raise the FAULT line is at the level of R159, whatever it was. -/
theorem FaultUnit.raiseKind_faultLine (f : FaultUnit) (k : FaultKind) :
    (f.raiseKind k).faultLine = faultLevel (f.raiseKind k).summary (f.raiseKind k).mask := rfl

/-- A raise keeps the FAULT line at the level of R159. -/
theorem FaultUnit.raise_faultLine (f : FaultUnit) (ks : List FaultKind)
    (h : f.faultLine = faultLevel f.summary f.mask) :
    (f.raise ks).faultLine = faultLevel (f.raise ks).summary (f.raise ks).mask := by
  induction ks generalizing f with
  | nil => exact h
  | cons k ks ih => rw [raise_cons]; exact ih _ rfl

/-- Kind k alone is in the set of kind k. -/
theorem FaultKind.bit_getLsbD (k j : FaultKind) : k.bit.getLsbD j.number.val = decide (j = k) := by
  cases k <;> cases j <;> decide

/-- A kind is in the summary of a raised record exactly when it was there or is raised. -/
theorem FaultUnit.raise_summary (f : FaultUnit) (ks : List FaultKind) (j : FaultKind) :
    (f.raise ks).summary.getLsbD j.number.val = (f.summary.getLsbD j.number.val || ks.contains j) := by
  induction ks generalizing f with
  | nil => simp
  | cons k ks ih =>
    rw [raise_cons, ih]
    simp only [raiseKind, BitVec.getLsbD_or, FaultKind.bit_getLsbD, List.contains_cons, Bool.or_assoc]
    rfl

@[simp] theorem FaultUnit.count_summary (f : FaultUnit) (k : EventKind) (n : Nat) :
    (f.count k n).summary = f.summary := rfl
@[simp] theorem FaultUnit.count_faultCounters (f : FaultUnit) (k : EventKind) (n : Nat) :
    (f.count k n).faultCounters = f.faultCounters := rfl
@[simp] theorem FaultUnit.count_mask (f : FaultUnit) (k : EventKind) (n : Nat) :
    (f.count k n).mask = f.mask := rfl
@[simp] theorem FaultUnit.count_faultLine (f : FaultUnit) (k : EventKind) (n : Nat) :
    (f.count k n).faultLine = f.faultLine := rfl

/-- A raise touches the Fault Unit alone. -/
@[simp] theorem raise_only (s : State) (k : FaultKind) : raise s k = s.withFlt (s.flt.raise [k]) := rfl

/-- A raise of several kinds touches the Fault Unit alone. -/
@[simp] theorem raiseAll_only (s : State) (ks : List FaultKind) :
    raiseAll s ks = s.withFlt (s.flt.raise ks) := rfl

/-- A count signal touches the Fault Unit alone. -/
@[simp] theorem countEvents_only (s : State) (k : EventKind) (n : Nat) :
    countEvents s k n = s.withFlt (s.flt.count k n) := rfl

end Sys2Proof.Machine
end

