-- ==== Sys2Proof/Laws/Agreement.lean ====
section
/-! SUPPORT. What an evaluation, a retiming and the agreement checks can do (chapter 2): they write the
swap schedule, pinned flags, and the Fault Unit, and nothing else. -/

namespace Sys2Proof.Machine

/-- The states an agreement operation can leave: the schedule, pinned flags and raises apart, the state
it found. -/
def AgreementOnly (s t : State) : Prop :=
  ∃ b a ks, s.buf.SameButPins b ∧ t = ((s.withBuf b).withAgr a).withFlt (s.flt.raise ks)

theorem AgreementOnly.refl (s : State) : AgreementOnly s s :=
  ⟨s.buf, s.agr, [], .refl _, rfl⟩

theorem FaultUnit.raise_append (f : FaultUnit) (ks ls : List FaultKind) :
    (f.raise ks).raise ls = f.raise (ks ++ ls) := (List.foldl_append ..).symm

theorem AgreementOnly.trans {r s t : State} (h : AgreementOnly r s) (k : AgreementOnly s t) :
    AgreementOnly r t := by
  obtain ⟨b, a, ks, h1, rfl⟩ := h
  obtain ⟨b', a', ks', k1, rfl⟩ := k
  exact ⟨b', a', ks ++ ks', h1.trans k1, by simp [← FaultUnit.raise_append, State.withBuf, State.withAgr, State.withFlt]⟩

theorem AgreementOnly.ofBuf (s : State) {b : BufferManager} (h : s.buf.SameButPins b) :
    AgreementOnly s (s.withBuf b) := ⟨b, s.agr, [], h, rfl⟩

theorem AgreementOnly.ofAgr (s : State) (a : AgreementUnit) : AgreementOnly s (s.withAgr a) :=
  ⟨s.buf, a, [], .refl _, rfl⟩

theorem AgreementOnly.ofRaise (s : State) (k : FaultKind) : AgreementOnly s (raise s k) :=
  ⟨s.buf, s.agr, [k], .refl _, rfl⟩

/-- A placement carried out, granted or refused (R33, R39). -/
theorem carryOut_only (s : State) (tag : Tag) (p : Placement) : AgreementOnly s (carryOut s tag p) := by
  unfold carryOut
  split
  · exact .refl s
  · rename_i b hb
    have hp := (BufferManager.pin_sameButPins hb).trans (b.unpinAll_sameButPins p.removed)
    have ha := (AgreementOnly.ofBuf s hp).trans (.ofAgr _ { s.agr with schedule := p.schedule })
    simp only
    split
    · exact ha.trans (.ofRaise _ _)
    · exact ha

/-- What every placement carried out keeps, an evaluation keeps (R36). -/
theorem evaluate_keeps (P : State → Prop) (hp : ∀ s tag p, P s → P (carryOut s tag p)) (s : State)
    (h : P s) : P (evaluate s) := by
  have hpass : P (evaluationPass s) := by
    unfold evaluationPass
    generalize s.buf.readyList.map (·.tag) = tags
    induction tags generalizing s with
    | nil => exact h
    | cons t ts ih =>
      refine ih _ ?_
      unfold evaluateTag
      split
      · exact h
      · split
        · exact h
        · split
          · exact h
          · exact hp _ _ _ h
  unfold evaluate
  split <;> assumption

/-- An evaluation writes the schedule, pinned flags and raises, and nothing else (R36). -/
theorem evaluate_only (s : State) : AgreementOnly s (evaluate s) :=
  evaluate_keeps (AgreementOnly s) (fun _ tag p h => h.trans (carryOut_only _ tag p)) s (.refl s)

/-- CONFIG and DETACHED evaluate nothing (R24). -/
theorem evaluate_of_inactive {s : State} (h : s.ros.self = .config ∨ s.ros.self = .detached) :
    evaluate s = s := by
  rcases h with h | h <;> simp [evaluate, h]

/-- With an empty own ready list an evaluation changes nothing (R36). -/
theorem evaluate_of_none_ready {s : State} (h : s.buf.readyList = []) : evaluate s = s := by
  unfold evaluate
  split <;> simp [evaluationPass, h]

/-- A retiming writes the schedule, pinned flags and one LATE_SWAP, or nothing (R40, R41). -/
theorem retime_only (s : State) (n : Count) : AgreementOnly s (retime s n) := by
  unfold retime
  split
  · exact .refl s
  · rename_i p _
    exact ((AgreementOnly.ofBuf s (s.buf.unpinAll_sameButPins p.removed)).trans
      (.ofAgr _ _)).trans (.ofRaise _ _)

/-- The schedule is emptied and its buffers are unpinned (R23, R24). -/
theorem emptySchedule_only (s : State) : AgreementOnly s (emptySchedule s) :=
  (AgreementOnly.ofBuf s (s.buf.unpinAll_sameButPins _)).trans (.ofAgr _ _)

/-- The swap split check raises SWAP_SPLIT or does nothing (R45). -/
theorem swapSplitCheck_cases (s : State) (sender : Station) (stamp : Count) (shown : Option Tag) :
    swapSplitCheck s sender stamp shown = s ∨
      swapSplitCheck s sender stamp shown = s.withFlt (s.flt.raise [.swapSplit]) := by
  simp only [swapSplitCheck, ← raise_only]
  exact (ite_eq_or_eq _ _ _).symm

/-- The stall check writes the stall count and flag, and raises STALL or nothing (R46). -/
theorem stallCheck_only (s : State) : AgreementOnly s (stallCheck s) := by
  unfold stallCheck
  split
  · exact .refl s
  · split
    · exact .ofAgr s _
    · split
      · exact .refl s
      · simp only
        split
        · exact (AgreementOnly.ofAgr s _).trans (.ofRaise _ _)
        · exact .ofAgr s _

/-- The frame start at the Agreement Unit (R38, R46). -/
theorem agreementFrameStart_only (s : State) : AgreementOnly s (agreementFrameStart s) :=
  (evaluate_only s).trans (stallCheck_only _)

/-- The fields that an agreement operation leaves. -/
theorem AgreementOnly.frame {s t : State} (h : AgreementOnly s t) :
    t.pending = s.pending ∧ t.resetHeld = s.resetHeld ∧ t.choices = s.choices ∧ t.line = s.line ∧
      t.ros = s.ros ∧ t.cap = s.cap ∧ t.scn = s.scn ∧ t.tim = s.tim ∧ t.rx = s.rx ∧ t.tx = s.tx ∧
      t.lpt = s.lpt ∧ t.mem = s.mem ∧ t.buf.ready = s.buf.ready ∧ t.buf.shownTag = s.buf.shownTag ∧
      t.buf.shownSince = s.buf.shownSince ∧ t.flt.eventCounters = s.flt.eventCounters ∧
      t.flt.mask = s.flt.mask := by
  obtain ⟨b, a, ks, ⟨h1, h2, h3, _⟩, rfl⟩ := h
  simp [h1, h2, h3]

/-! ## The tags of a schedule that placement and retiming leave (R31, R32, R40) -/

/-- Pushing entries back moves their T and leaves their tags (R31, step 3). -/
@[simp] theorem pushLater_tags (previous : Count) (es : List ScheduleEntry) :
    (pushLater previous es).map (·.tag) = es.map (·.tag) := by
  induction es generalizing previous with
  | nil => rfl
  | cons e es ih => simp [pushLater, ih]

/-- Consecutive swap times leave the tags (R40). -/
@[simp] theorem consecutive_tags (t : Count) (es : List ScheduleEntry) :
    (consecutive t es).map (·.tag) = es.map (·.tag) := by
  induction es generalizing t with
  | nil => rfl
  | cons e es ih => simp [consecutive, ih]

/-- An insertion puts the new entry among those that stand (R31, R32). -/
theorem insertInTagOrder_perm (x : ScheduleEntry) (es : List ScheduleEntry) :
    (insertInTagOrder x es).Perm (x :: es) := by
  induction es with
  | nil => exact .refl _
  | cons e es ih =>
    simp only [insertInTagOrder]
    split
    · exact .refl _
    · exact (ih.cons e).trans (.swap x e es)

/-- FIFO's insertion puts the tag at the place that tag order gives it (R31). -/
theorem insertAndPush_tags (x : ScheduleEntry) (es : List ScheduleEntry) :
    (insertAndPush x es).map (·.tag) = (insertInTagOrder x es).map (·.tag) := by
  induction es with
  | nil => rfl
  | cons e es ih =>
    simp only [insertAndPush, insertInTagOrder]
    split
    · simp
    · simp [ih]

end Sys2Proof.Machine
end

