-- ==== Sys2Proof/Laws/BusTransmit.lean ====
section
/-! SUPPORT. What the triggers and the transmit machine can do (chapter 8). -/

namespace Sys2Proof.Machine

/-- A standing trigger writes the queue and, for a machine at rest, its state (R141, R143). -/
theorem BusTransmitter.owe_only (t : BusTransmitter) (self : SelfState) (change : Bool) :
    ∃ q, t.owe self change = { t with queue := q, state := (t.owe self change).state } ∧
      ((t.owe self change).state = t.state ∨ (t.owe self change).state = t.state.woken) := by
  unfold owe
  split
  · exact ⟨t.queue, rfl, .inl rfl⟩
  · split
    · exact ⟨_, rfl, .inr rfl⟩
    · split
      · exact ⟨_, rfl, .inl rfl⟩
      · exact ⟨t.queue, rfl, .inl rfl⟩

/-- A standing trigger outside JOINING, MEMBER, EVICTED and LEAVING does nothing (R141). -/
theorem BusTransmitter.owe_inactive (t : BusTransmitter) {self : SelfState} (change : Bool)
    (h : self.active = false) : t.owe self change = t := by simp [owe, h]

/-- After a standing trigger that counts, a STANDING entry is queued (R141). -/
theorem BusTransmitter.owe_standing (t : BusTransmitter) {self : SelfState} (change : Bool)
    (h : self.active = true) : (t.owe self change).queue.any QueueEntry.isStanding = true := by
  have mapped (q : List QueueEntry) :
      (renewStanding q).any QueueEntry.isStanding = q.any QueueEntry.isStanding := by
    simp only [renewStanding, List.any_map]
    congr 1
    funext e
    simp only [Function.comp]
    split <;> rfl
  unfold owe
  simp only [h, Bool.not_true, Bool.false_eq_true, if_false]
  split
  · simp only [addStanding, putFirst]
    split <;> [split; skip] <;> simp [QueueEntry.isStanding, QueueEntry.fresh]
  · rename_i hq
    simp only [Bool.not_eq_true, Bool.not_eq_false', ] at hq
    split
    · simpa [mapped] using hq
    · simpa using hq

/-- A withdrawal leaves every entry that is not a waiting request for the station, and the entries it
leaves keep their order (R130, R131). -/
theorem BusTransmitter.withdrawRepeat_queue (t : BusTransmitter) (x : Station) :
    (t.withdrawRepeat x).queue = t.queue ∨
      (t.flying.any (·.isRepeatFor x) = false ∧
        (t.withdrawRepeat x).queue = t.queue.filter fun e => !e.isRepeatFor x) := by
  unfold withdrawRepeat
  split
  · exact .inl rfl
  · rename_i h
    refine .inr ⟨(Bool.or_eq_false_iff.1 (Bool.not_eq_true _ ▸ h)).1, ?_⟩
    unfold settleEmpty
    split <;> rfl

/-- A change trigger writes the transmit side alone. -/
theorem changeTrigger_only (s : State) : changeTrigger s = s.withTx (s.tx.owe s.ros.self true) := rfl

/-- The frame start at BIU writes the transmit side alone (R142). -/
theorem heartbeatFrameStart_only (s : State) : ∃ t, heartbeatFrameStart s = s.withTx t := by
  unfold heartbeatFrameStart
  split
  · exact ⟨s.tx, rfl⟩
  · exact ⟨_, rfl⟩

/-- A change of the own holdings: an evaluation and a standing trigger (R50, R51). -/
theorem ownHoldingsChanged_only (s : State) :
    ∃ t t', AgreementOnly s t ∧ ownHoldingsChanged s = t.withTx t' :=
  ⟨_, _, evaluate_only s, rfl⟩

/-- A transmit start writes the transmit side, the receive state and the line (R145). -/
theorem transmitStart_only (s : State) :
    ∃ t r l, transmitStart s = ((s.withTx t).withRx r).withLine l := by
  unfold transmitStart
  split
  · exact ⟨s.tx, s.rx, s.line, rfl⟩
  · split
    · exact ⟨s.tx, s.rx, s.line, rfl⟩
    · exact ⟨_, _, _, rfl⟩

/-- An idle line writes the receive state and the line (R115). -/
theorem lineIdle_only (s : State) : ∃ r, lineIdle s = (s.withLine .idle).withRx r := by
  unfold lineIdle
  simp only
  split
  · exact ⟨_, rfl⟩
  · exact ⟨s.rx, rfl⟩

/-- The gap reached writes the transmit side, the receive state and the line (R144). -/
theorem gapReached_only (s : State) :
    ∃ t r l, gapReached s = ((s.withTx t).withRx r).withLine l := by
  unfold gapReached
  obtain ⟨r, hr⟩ := lineIdle_only s
  split
  · exact ⟨s.tx, s.rx, s.line, rfl⟩
  · split
    · split
      · obtain ⟨t, r', l, h⟩ := transmitStart_only (lineIdle s)
        exact ⟨t, r', l, by rw [h, hr]; rfl⟩
      · exact ⟨_, r, _, by rw [hr]; rfl⟩
    · split
      · exact ⟨s.tx, s.rx, s.line, rfl⟩
      · exact ⟨_, r, _, by rw [hr]; rfl⟩
    all_goals exact ⟨s.tx, s.rx, s.line, rfl⟩

/-- A slot that ends idle writes the transmit side, the receive state and the line (R144). -/
theorem slotEnd_only (s : State) : ∃ t r l, slotEnd s = ((s.withTx t).withRx r).withLine l := by
  unfold slotEnd
  obtain ⟨r, hr⟩ := lineIdle_only s
  simp only
  split
  · split
    · obtain ⟨t, r', l, h⟩ := transmitStart_only
        ((lineIdle s).withTx { s.tx with backoffCount := s.tx.backoffCount - 1 })
      exact ⟨t, r', l, by rw [h, hr]; rfl⟩
    · exact ⟨_, r, _, by rw [hr]; rfl⟩
  · exact ⟨s.tx, s.rx, s.line, rfl⟩

/-- A completed JOIN sets own joined-at and is an occasion, a completed LEAVE sets own absent-from, and
either leaves the other blocks to the Agreement Unit (R4, R6). -/
theorem reportCompletion_only (s : State) (m : OutMessage) :
    ∃ r, AgreementOnly (s.withRos r) (reportCompletion s m) ∧ r.roster = s.ros.roster ∧
      r.frameStarts = s.ros.frameStarts ∧ (r.self = s.ros.self ∨ (s.ros.self = .evicted ∧ r.self = .joining)) := by
  have none : ∃ r, AgreementOnly (s.withRos r) s ∧ r.roster = s.ros.roster ∧
      r.frameStarts = s.ros.frameStarts ∧ (r.self = s.ros.self ∨ (s.ros.self = .evicted ∧ r.self = .joining)) :=
    ⟨s.ros, .refl s, rfl, rfl, .inl rfl⟩
  unfold reportCompletion
  split
  · unfold joinCompleted
    split
    · exact ⟨_, evaluate_only _, rfl, rfl, .inl rfl⟩
    · exact ⟨_, evaluate_only _, rfl, rfl, .inl rfl⟩
    · rename_i h
      exact ⟨_, evaluate_only _, rfl, rfl, .inr ⟨h, rfl⟩⟩
    · exact none
  · unfold leaveCompleted
    split
    · exact ⟨_, .refl _, rfl, rfl, .inl rfl⟩
    · exact none
  · exact none
  · exact none

/-- A collision, the end of a jam, and an entry given up write the transmit side and the Fault Unit
(R147, R149). -/
theorem collisionSeen_only (s : State) : ∃ t f, collisionSeen s = (s.withTx t).withFlt f := by
  unfold collisionSeen
  split
  · exact ⟨_, _, rfl⟩
  · exact ⟨s.tx, s.flt, rfl⟩

theorem jamEnded_only (s : State) : ∃ t f, jamEnded s = (s.withTx t).withFlt f := by
  have tx (t : BusTransmitter) : ∃ t' f, s.withTx t = (s.withTx t').withFlt f := ⟨t, s.flt, rfl⟩
  unfold jamEnded
  split
  · split
    · exact tx _
    · split
      · exact ⟨_, _, rfl⟩
      · exact tx _
  · exact ⟨s.tx, s.flt, rfl⟩

/-- The generator's top bit takes the sum of bits 0, 2, 3 and 5, the others move down one place
(R148). -/
theorem advanceGenerator_getLsbD (g : BitVec 16) (i : Nat) (h : i < 15) :
    (advanceGenerator g).getLsbD i = g.getLsbD (i + 1) := by
  simp only [advanceGenerator]
  split <;> simp [BitVec.getLsbD_ushiftRight, Nat.add_comm]
  interval_cases i <;> simp

end Sys2Proof.Machine
end

