-- ==== Sys2Proof/Laws/Capture.lean ====
section
/-! SUPPORT. What the frame memory port and the Capture Unit can do (5.5 and chapter 4): they write the
capture, the buffer pool, the port, the Agreement Unit, the queue and the Fault Unit; the roster, the
count, the receive side, the local port and the line are left. -/

namespace Sys2Proof.Machine

/-- The states an input event can leave: the roster, the count, the receive side, the local port, the bus
line, frame memory and the line timer stay. -/
structure CaptureOnly (s t : State) : Prop where
  pending : t.pending = s.pending
  resetHeld : t.resetHeld = s.resetHeld
  choices : t.choices = s.choices
  line : t.line = s.line
  ros : t.ros = s.ros
  scn : t.scn = { s.scn with port := t.scn.port, writeWaiting := t.scn.writeWaiting }
  tim : t.tim = s.tim
  rx : t.rx = s.rx
  lpt : t.lpt = s.lpt
  mem : t.mem = s.mem
  arriving : t.arriving = s.arriving

theorem CaptureOnly.refl (s : State) : CaptureOnly s s :=
  ⟨rfl, rfl, rfl, rfl, rfl, rfl, rfl, rfl, rfl, rfl, rfl⟩

theorem CaptureOnly.trans {r s t : State} (h : CaptureOnly r s) (k : CaptureOnly s t) :
    CaptureOnly r t where
  pending := k.pending.trans h.pending
  resetHeld := k.resetHeld.trans h.resetHeld
  choices := k.choices.trans h.choices
  line := k.line.trans h.line
  ros := k.ros.trans h.ros
  scn := by rw [k.scn, h.scn]
  tim := k.tim.trans h.tim
  rx := k.rx.trans h.rx
  lpt := k.lpt.trans h.lpt
  mem := k.mem.trans h.mem
  arriving := k.arriving.trans h.arriving

theorem CaptureOnly.ofCap (s : State) (c : CaptureUnit) : CaptureOnly s (s.withCap c) :=
  ⟨rfl, rfl, rfl, rfl, rfl, rfl, rfl, rfl, rfl, rfl, rfl⟩

theorem CaptureOnly.ofBuf (s : State) (b : BufferManager) : CaptureOnly s (s.withBuf b) :=
  ⟨rfl, rfl, rfl, rfl, rfl, rfl, rfl, rfl, rfl, rfl, rfl⟩

theorem CaptureOnly.ofFlt (s : State) (f : FaultUnit) : CaptureOnly s (s.withFlt f) :=
  ⟨rfl, rfl, rfl, rfl, rfl, rfl, rfl, rfl, rfl, rfl, rfl⟩

theorem CaptureOnly.ofTx (s : State) (t : BusTransmitter) : CaptureOnly s (s.withTx t) :=
  ⟨rfl, rfl, rfl, rfl, rfl, rfl, rfl, rfl, rfl, rfl, rfl⟩

theorem CaptureOnly.ofAgreement {s t : State} (h : AgreementOnly s t) : CaptureOnly s t := by
  obtain ⟨b, a, ks, _, rfl⟩ := h
  exact ⟨rfl, rfl, rfl, rfl, rfl, rfl, rfl, rfl, rfl, rfl, rfl⟩

theorem CaptureOnly.ofHoldings (s : State) : CaptureOnly s (ownHoldingsChanged s) :=
  (CaptureOnly.ofAgreement (evaluate_only s)).trans (.ofTx _ _)

/-- A write request goes to the port or waits (R91). -/
theorem ScanOutUnit.requestWrite_cases (u : ScanOutUnit) (w : LineWrite) :
    (u.port = .idle ∧ u.requestWrite w = { u with port := .write w }) ∨
      (u.port ≠ .idle ∧ u.requestWrite w = { u with writeWaiting := some w }) := by
  by_cases h : u.port = .idle <;> simp [requestWrite, h]

/-- A read request goes to the port or waits (R91). -/
theorem ScanOutUnit.requestRead_cases (u : ScanOutUnit) (a : SlotAddress) :
    (u.port = .idle ∧ u.requestRead a = { u with port := .read a }) ∨
      (u.port ≠ .idle ∧ u.requestRead a = { u with readWaiting := some a }) := by
  by_cases h : u.port = .idle <;> simp [requestRead, h]

/-- The request of the next write touches the port alone (R71). -/
theorem requestNextWrite_only (s : State) :
    CaptureOnly s (requestNextWrite s) ∧ (requestNextWrite s).cap = s.cap ∧
      (requestNextWrite s).buf = s.buf ∧ (requestNextWrite s).flt = s.flt ∧
      (requestNextWrite s).tx = s.tx ∧ (requestNextWrite s).agr = s.agr := by
  unfold requestNextWrite
  split
  · split
    · refine ⟨⟨rfl, rfl, rfl, rfl, rfl, ?_, rfl, rfl, rfl, rfl, rfl⟩, rfl, rfl, rfl, rfl, rfl⟩
      simp only [State.withScn_scn, ScanOutUnit.requestWrite]
      split <;> rfl
    · exact ⟨.refl s, rfl, rfl, rfl, rfl, rfl⟩
  · exact ⟨.refl s, rfl, rfl, rfl, rfl, rfl⟩

/-- A begin marker handled (R70). -/
theorem beginFrame_only (s : State) (h : HeldBegin) : CaptureOnly s (beginFrame s h) := by
  unfold beginFrame
  simp only [raise_only, countEvents_only]
  split
  · split
    · exact ((CaptureOnly.ofCap s _).trans (.ofBuf _ _)).trans (.ofFlt _ _)
    · have hb (b : BufferManager) (c : CaptureUnit) :=
        ((CaptureOnly.ofBuf s b).trans (.ofCap _ c)).trans (requestNextWrite_only _).1
      split
      · exact ((hb _ _).trans (.ofFlt _ _)).trans (.ofHoldings _)
      · exact hb _ _
  · exact (CaptureOnly.ofCap s _).trans (.ofFlt _ _)

/-- A release (R72, R75). -/
theorem afterRelease_only (s : State) (result : CaptureState) : CaptureOnly s (afterRelease s result) := by
  unfold afterRelease
  split
  · exact (CaptureOnly.ofCap s _).trans (beginFrame_only _ _)
  · split <;> exact .ofCap s _

/-- An abort reported, and an abort (R72). -/
theorem reportAbort_only (s : State) (result : AbortResult) : CaptureOnly s (reportAbort s result) :=
  (CaptureOnly.ofBuf s _).trans (afterRelease_only _ _)

theorem abortFrame_only (s : State) (result : AbortResult) : CaptureOnly s (abortFrame s result) := by
  have hs : CaptureOnly s ((s.withCap { s.cap with fifo := withoutLines s.cap.fifo .current }).withScn
      { s.scn with writeWaiting := none }) :=
    ⟨rfl, rfl, rfl, rfl, rfl, rfl, rfl, rfl, rfl, rfl, rfl⟩
  unfold abortFrame
  simp only
  split
  · exact hs.trans (.ofCap _ _)
  · exact hs.trans (reportAbort_only _ _)

/-- A completion reported (R57). -/
theorem reportCompleteFrame_only (s : State) : CaptureOnly s (reportCompleteFrame s) := by
  unfold reportCompleteFrame
  split
  · exact .refl s
  · exact (CaptureOnly.ofBuf s _).trans (.ofTx _ _)

/-- The input events (R70 to R75). -/
theorem holdBegin_only (s : State) (tag : Tag) : CaptureOnly s (holdBegin s tag) := by
  unfold holdBegin
  simp only [raise_only]
  split
  · exact (CaptureOnly.ofCap s _).trans (.ofFlt _ _)
  · exact .ofCap s _

theorem takeBegin_only (s : State) (tag : Tag) : CaptureOnly s (takeBegin s tag) := by
  unfold takeBegin
  simp only [raise_only]
  split
  · exact beginFrame_only _ _
  · exact beginFrame_only _ _
  · split
    · exact holdBegin_only _ _
    · have aborted := (CaptureOnly.ofFlt s (s.flt.raise [.inputBad])).trans (abortFrame_only _ .idle)
      by_cases hw : s.scn.writing = true
      · simp only [State.withFlt_scn, hw, if_true]
        exact aborted.trans (holdBegin_only _ _)
      · simp only [State.withFlt_scn, hw]
        exact aborted.trans (beginFrame_only _ _)

theorem takeLine_only (s : State) (data : LineData) : CaptureOnly s (takeLine s data) := by
  unfold takeLine takeHeldLine
  simp only [raise_only]
  split
  · exact .refl s
  · exact .refl s
  · split
    · exact (CaptureOnly.ofCap s _).trans (.ofFlt _ _)
    · exact .ofCap s _
  · split
    · exact .refl s
    · split
      · exact (CaptureOnly.ofFlt s _).trans (abortFrame_only _ _)
      · split
        · exact (CaptureOnly.ofFlt s _).trans (abortFrame_only _ _)
        · exact (CaptureOnly.ofCap s _).trans (requestNextWrite_only _).1

theorem takeEnd_only (s : State) : CaptureOnly s (takeEnd s) := by
  unfold takeEnd
  simp only [raise_only]
  split
  · exact .refl s
  · exact .ofCap s _
  · exact (CaptureOnly.ofCap s _).trans (.ofFlt _ _)
  · split
    · exact .ofCap s _
    · split
      · split
        · exact (((CaptureOnly.ofCap s _).trans (reportCompleteFrame_only _)).trans
            (.ofAgreement (evaluate_only _))).trans (afterRelease_only _ _)
        · exact .ofCap s _
      · exact (CaptureOnly.ofFlt s _).trans (abortFrame_only _ _)

theorem takeTimeout_only (s : State) : CaptureOnly s (takeTimeout s) := by
  unfold takeTimeout
  simp only [raise_only]
  split
  · exact (CaptureOnly.ofFlt s _).trans (abortFrame_only _ _)
  · split
    · exact (CaptureOnly.ofCap s _).trans (.ofFlt _ _)
    · exact .refl s

/-- Entry to DETACHED at the Capture Unit (R77). -/
theorem captureDetached_only (s : State) : CaptureOnly s (captureDetached s) := by
  unfold captureDetached
  simp only
  split
  · exact .ofCap s _
  · exact (CaptureOnly.ofCap s _).trans (.ofCap _ _)
  · exact (CaptureOnly.ofCap s _).trans (.ofCap _ _)
  · exact (CaptureOnly.ofCap s _).trans (abortFrame_only _ _)

end Sys2Proof.Machine
end

