-- ==== Sys2Proof/Laws/Handoffs.lean ====
section
/-! SUPPORT. The hand-offs of one command: none is left undone, and what every hand-off keeps, all of them
keep in every order. -/

namespace Sys2Proof.Machine

/-- A hand-off picked from a list and the others are the list. -/
theorem pickAt_perm (k : Nat) (h : Handoff) (rest : List Handoff) :
    ((pickAt k h rest).1 :: (pickAt k h rest).2).Perm (h :: rest) := by
  induction k generalizing h rest with
  | zero => exact .refl _
  | succ k ih =>
    cases rest with
    | nil => exact .refl _
    | cons h' rest => exact (List.Perm.swap _ _ _).trans ((ih h' rest).cons h)

theorem totalTurns_perm {a b : List Handoff} (h : a.Perm b) : totalTurns a = totalTurns b :=
  (h.map Handoff.turns).sum_eq

@[simp] theorem totalTurns_cons (h : Handoff) (rest : List Handoff) :
    totalTurns (h :: rest) = h.turns + totalTurns rest := by simp [totalTurns]

@[simp] theorem totalTurns_append (a b : List Handoff) :
    totalTurns (a ++ b) = totalTurns a + totalTurns b := by simp [totalTurns]

@[simp] theorem totalTurns_occasions (n : Nat) :
    totalTurns (List.replicate n .occasion) = n := by simp [totalTurns, Handoff.turns]

/-- A frame start decides at most 16 absences. -/
theorem absencesDecided_le (s : State) : absencesDecided s ≤ 16 :=
  (List.length_filter_le _ _).trans (by decide)

/-- A hand-off needs one turn more than the signals it makes. -/
theorem turns_takeHandoff (s : State) (h : Handoff) :
    totalTurns (takeHandoff s h).2 + 1 ≤ h.turns := by
  cases h with
  | rosterFrameStart =>
    simp only [takeHandoff, totalTurns_occasions, Handoff.turns]
    have := absencesDecided_le s
    omega
  | timingTakes m rt =>
    cases rt with
    | none => simp [takeHandoff, totalTurns, Handoff.turns]
    | some rt => simp only [takeHandoff, timingSignals]; split <;> simp [totalTurns, Handoff.turns]
  | _ => simp [takeHandoff, totalTurns, Handoff.turns]

/-- What `chooseNext` picks and leaves is the list, and it moves the free-choice counter alone. -/
theorem chooseNext_only (choose : Nat → Nat) (s : State) (h : Handoff) (rest : List Handoff) :
    (∃ n, (chooseNext choose s h rest).1 = s.withChoices n) ∧
      ((chooseNext choose s h rest).2.1 :: (chooseNext choose s h rest).2.2).Perm (h :: rest) := by
  cases rest with
  | nil => exact ⟨⟨s.choices, rfl⟩, .refl _⟩
  | cons h' rest => exact ⟨⟨_, rfl⟩, pickAt_perm _ _ _⟩

/-- With `totalTurns` turns no hand-off is left. -/
theorem drain_complete (choose : Nat → Nat) (n : Nat) (due : List Handoff) (s : State)
    (h : totalTurns due ≤ n) : (drain choose n due s).2 = [] := by
  induction n generalizing due s with
  | zero =>
    cases due with
    | nil => rfl
    | cons x rest =>
      have := turns_takeHandoff s x
      simp at h
      omega
  | succ n ih =>
    cases due with
    | nil => rfl
    | cons x rest =>
      have hp := totalTurns_perm (chooseNext_only choose s x rest).2
      rcases hc : chooseNext choose s x rest with ⟨s', y, others⟩
      have ht := turns_takeHandoff s' y
      rcases hy : takeHandoff s' y with ⟨t, more⟩
      simp only [hc, hy, totalTurns_cons] at hp h ht
      simp only [drain, hc, hy]
      apply ih
      rw [totalTurns_append]
      omega

/-- What a free choice and every hand-off keep, the hand-offs of a command keep in every order. -/
theorem drain_keeps (P : State → Prop) (hc : ∀ s n, P s → P (s.withChoices n))
    (ht : ∀ s h, P s → P (takeHandoff s h).1) (choose : Nat → Nat) (n : Nat) (due : List Handoff)
    (s : State) (h : P s) : P (drain choose n due s).1 := by
  induction n generalizing due s with
  | zero => exact h
  | succ n ih =>
    cases due with
    | nil => exact h
    | cons x rest =>
      simp only [drain]
      apply ih
      apply ht
      obtain ⟨k, hk⟩ := (chooseNext_only choose s x rest).1
      exact hk ▸ hc s k h

/-- `drain_keeps` for the hand-offs of a command. -/
theorem settleWith_keeps (P : State → Prop) (hc : ∀ s n, P s → P (s.withChoices n))
    (ht : ∀ s h, P s → P (takeHandoff s h).1) (choose : Nat → Nat) (due : List Handoff) (s : State)
    (h : P s) : P (settleWith choose due s) :=
  drain_keeps P hc ht choose _ due s h

/-- A single hand-off that makes no signal needs no free choice. -/
theorem settleWith_single (choose : Nat → Nat) (h : Handoff) (s : State)
    (hs : (takeHandoff s h).2 = []) : settleWith choose [h] s = (takeHandoff s h).1 := by
  obtain ⟨n, hn⟩ : ∃ n, totalTurns [h] = n + 1 :=
    ⟨totalTurns [h] - 1, by have := turns_takeHandoff s h; simp [totalTurns] at this ⊢; omega⟩
  simp only [settleWith, hn, drain, chooseNext, hs, List.append_nil]
  cases n <;> rfl

end Sys2Proof.Machine
end

