-- ==== Sys2Proof/Laws/Roster.lean ====
section
/-! SUPPORT. Reads and writes of the roster, the voter set, and what messages and frame starts can do at
the Roster Unit (chapter 1). -/

namespace Sys2Proof.Machine

@[simp] theorem RosterUnit.entry_setEntry_self (r : RosterUnit) (n : Station) (e : RosterEntry) :
    (r.setEntry n e).entry n = e := by simp [setEntry, entry]

theorem RosterUnit.entry_setEntry_other (r : RosterUnit) {n k : Station} (e : RosterEntry)
    (h : k ≠ n) : (r.setEntry n e).entry k = r.entry k := by
  have : n.val ≠ k.val := fun x => h (Fin.ext x.symm)
  simp [setEntry, entry, Vector.getElem_set_ne _ _ this]

@[simp] theorem RosterUnit.entry_mapEntries (r : RosterUnit) (f : Station → RosterEntry → RosterEntry)
    (n : Station) : (r.mapEntries f).entry n = f n (r.entry n) := by
  simp [mapEntries, entry]

@[simp] theorem RosterUnit.setEntry_self (r : RosterUnit) (n : Station) (e : RosterEntry) :
    (r.setEntry n e).self = r.self := rfl
@[simp] theorem RosterUnit.setEntry_ownJoined (r : RosterUnit) (n : Station) (e : RosterEntry) :
    (r.setEntry n e).ownJoined = r.ownJoined := rfl
@[simp] theorem RosterUnit.setEntry_ownAbsent (r : RosterUnit) (n : Station) (e : RosterEntry) :
    (r.setEntry n e).ownAbsent = r.ownAbsent := rfl
@[simp] theorem RosterUnit.setEntry_frameStarts (r : RosterUnit) (n : Station) (e : RosterEntry) :
    (r.setEntry n e).frameStarts = r.frameStarts := rfl
@[simp] theorem RosterUnit.mapEntries_self (r : RosterUnit)
    (f : Station → RosterEntry → RosterEntry) : (r.mapEntries f).self = r.self := rfl
@[simp] theorem RosterUnit.mapEntries_ownJoined (r : RosterUnit)
    (f : Station → RosterEntry → RosterEntry) : (r.mapEntries f).ownJoined = r.ownJoined := rfl
@[simp] theorem RosterUnit.mapEntries_ownAbsent (r : RosterUnit)
    (f : Station → RosterEntry → RosterEntry) : (r.mapEntries f).ownAbsent = r.ownAbsent := rfl
@[simp] theorem RosterUnit.mapEntries_frameStarts (r : RosterUnit)
    (f : Station → RosterEntry → RosterEntry) : (r.mapEntries f).frameStarts = r.frameStarts := rfl

/-- A station is in the voter set's bits exactly when it is a voter (R20, R21). -/
theorem hasStation_voterSet (s : State) (g : Count) (n : Station) :
    hasStation (voterSet s g) n = isVoter s g n := hasStation_stationSetOf _ n

/-! ## Entries -/

/-- What an accepted message makes of its sender's entry keeps the offset and the last message
sequence. -/
theorem RosterEntry.refresh_frame (e : RosterEntry) (a b : Count) :
    (e.refresh a b).lastSeq = e.lastSeq ∧ (e.refresh a b).offset = e.offset ∧
      (e.refresh a b).age = e.age ∧ (e.refresh a b).lastStamp = some a ∧
      (e.refresh a b).lastFrame = some b := ⟨rfl, rfl, rfl, rfl, rfl⟩

theorem RosterEntry.takeJoin_frame (e : RosterEntry) (j : Count) :
    (e.takeJoin j).lastSeq = e.lastSeq ∧ (e.takeJoin j).lastStamp = e.lastStamp ∧
      (e.takeJoin j).lastFrame = e.lastFrame ∧ (e.takeJoin j).offset = e.offset ∧
      (e.takeJoin j).clash = false := by
  unfold takeJoin
  split <;> exact ⟨rfl, rfl, rfl, rfl, rfl⟩

theorem RosterEntry.takeState_frame (e : RosterEntry) (f : StateFields) (count : Count) :
    (e.takeState f count).lastSeq = e.lastSeq ∧ (e.takeState f count).lastStamp = e.lastStamp ∧
      (e.takeState f count).lastFrame = e.lastFrame ∧ (e.takeState f count).offset = e.offset ∧
      (e.takeState f count).clash = e.clash := by
  unfold takeState
  split
  · exact ⟨rfl, rfl, rfl, rfl, rfl⟩
  · split <;> exact ⟨rfl, rfl, rfl, rfl, rfl⟩

theorem RosterEntry.takeLeave_frame (e : RosterEntry) (a : Count) :
    (e.takeLeave a).lastSeq = e.lastSeq ∧ (e.takeLeave a).lastStamp = e.lastStamp ∧
      (e.takeLeave a).lastFrame = e.lastFrame ∧ (e.takeLeave a).offset = e.offset ∧
      (e.takeLeave a).clash = e.clash := by
  unfold takeLeave
  split <;> exact ⟨rfl, rfl, rfl, rfl, rfl⟩

/-- Checks 1 and 2 of a frame start change the state of an entry alone (R11). -/
theorem RosterEntry.aged_only (e : RosterEntry) (cfg : StationConfig) (count frames : Count) :
    e.aged cfg count frames = { e with state := (e.aged cfg count frames).state } := by
  unfold aged fallQuiet reachJoined
  split <;> split <;> rfl

/-- A VACANT, EXPECTED or ABSENT entry is left by a frame start (R11). -/
theorem RosterEntry.frameStart_of_absent {e : RosterEntry} {cfg : StationConfig} {count frames : Count}
    (h : e.state = .vacant ∨ e.state = .expected ∨ e.state = .absent) :
    e.frameStart cfg count frames = e := by
  rcases h with h | h | h <;>
    simp [frameStart, aged, reachJoined, fallQuiet, absenceAt, h]

/-! ## Messages -/

/-- The states an accepted message of a sender can leave at the Roster Unit: the roster, the transmit side
and the Fault Unit apart, the state it found; the other stations' entries stay. -/
def RosterOnly (sender : Station) (s u : State) : Prop :=
  ∃ r t f, u = ((s.withRos r).withTx t).withFlt f ∧ (∀ k, k ≠ sender → r.entry k = s.ros.entry k) ∧
    r.frameStarts = s.ros.frameStarts ∧ r.ownAbsent = s.ros.ownAbsent

/-- An accepted message at the Roster Unit (R14 to R18, R22). -/
theorem rosterMessage_only (s : State) (m : Message) : RosterOnly m.sender s (rosterMessage s m) := by
  have content (s : State) : RosterOnly m.sender s (rosterContent s m) := by
    have changed (e : RosterEntry) (f : FaultUnit) :
        RosterOnly m.sender s ((s.withRos (s.ros.setEntry m.sender e)).withFlt f) :=
      ⟨_, s.tx, f, rfl, fun k hk => s.ros.entry_setEntry_other e hk, rfl, rfl⟩
    have refreshed (change : RosterEntry → RosterEntry) :
        RosterOnly m.sender s (refreshThen s m change) :=
      changed (change ((s.ros.entry m.sender).refresh m.stamp s.ros.frameStarts)) s.flt
    unfold rosterContent
    split
    · split
      · exact changed _ _
      · exact refreshed _
    · simp only
      split
      · unfold viewComparison
        simp only
        split
        · split
          · exact ⟨_, _, _, rfl, fun k hk => s.ros.entry_setEntry_other _ hk, rfl, rfl⟩
          · exact changed _ _
          all_goals exact refreshed _
        · exact refreshed _
      · exact refreshed _
    · exact refreshed _
    · exact refreshed _
  unfold rosterMessage
  split
  · obtain ⟨r, t, f, h, h1, h2, h3⟩ := content (enterJoining s)
    exact ⟨r, t, f, by rw [h]; rfl, h1, h2, h3⟩
  · exact content s

/-! ## The frame start -/

/-- Entry to DETACHED (R7, R24, R77, R152). -/
theorem enterDetached_only (s : State) :
    CaptureOnly (s.withRos { s.ros with self := .detached }) (enterDetached s) :=
  ((CaptureOnly.ofAgreement (emptySchedule_only _)).trans (captureDetached_only _)).trans (.ofTx _ _)

/-- The self state's part of a frame start changes the self state alone of the Roster Unit. -/
theorem selfFrameStart_only (s : State) :
    ∃ self, CaptureOnly (s.withRos { s.ros with self := self }) (selfFrameStart s) := by
  have same : ∃ self, CaptureOnly (s.withRos { s.ros with self := self }) s := ⟨s.ros.self, .refl s⟩
  unfold selfFrameStart
  split
  · split
    · exact ⟨.joining, ⟨rfl, rfl, rfl, rfl, rfl, rfl, rfl, rfl, rfl, rfl, rfl⟩⟩
    · exact same
  · split
    · exact ⟨.member, .refl _⟩
    · exact same
  · split
    · exact ⟨.detached, enterDetached_only s⟩
    · exact same
  all_goals exact same

/-- The checks of the entries write the roster and raise MEMBER_LOST (R11, R19). -/
theorem entriesFrameStart_only (s : State) :
    ∃ ks, entriesFrameStart s = (s.withRos (s.ros.mapEntries fun _ e =>
      e.frameStart s.cfg s.tim.count s.ros.frameStarts)).withFlt (s.flt.raise ks) := by
  have lost (ns : List Station) (s : State) :
      ns.foldl (fun s _ => raise s .memberLost) s =
        s.withFlt (s.flt.raise (ns.map fun _ => .memberLost)) := by
    induction ns generalizing s with
    | nil => rfl
    | cons n ns ih =>
      rw [List.foldl_cons, ih]
      rfl
  exact ⟨_, lost _ _⟩

/-- The frame start at the Roster Unit: every entry by its own checks, the frame-start count by one
(R1, R11). -/
theorem rosterFrameStart_only (s : State) :
    ∃ self t ks, CaptureOnly (s.withRos { s.ros with
        frameStarts := s.ros.frameStarts + 1, self := self }) t ∧
      rosterFrameStart s = (t.withRos (t.ros.mapEntries fun _ e =>
        e.frameStart t.cfg t.tim.count t.ros.frameStarts)).withFlt (t.flt.raise ks) := by
  obtain ⟨self, h⟩ := selfFrameStart_only (countFrameStart s)
  obtain ⟨ks, hk⟩ := entriesFrameStart_only (selfFrameStart (countFrameStart s))
  exact ⟨self, _, ks, h, hk⟩

/-- A count that is not before a point has reached it (R12). -/
theorem countReached_of_notBefore {now point : Count} (h : notBefore now point = true) :
    countReached now point = true := by simp [countReached, h]

/-- A count has not reached a point that is after it (R12). -/
theorem countReached_of_isAfter {now point : Count} (h : isAfter point now = true) :
    countReached now point = false := by
  have : notBefore now point = false := by
    simp [notBefore, isAfter] at h ⊢
    bv_omega
  simp [countReached, this, h]

end Sys2Proof.Machine
end

