-- ==== Sys2Proof/Laws/Timing.lean ====
section
/-! SUPPORT. What the Timing Unit can do (chapter 6). -/

namespace Sys2Proof.Machine

/-- A pass over the entries alone leaves the self state, the own counts and the frame-start count. -/
def SameSelf (r r' : RosterUnit) : Prop :=
  r'.self = r.self ∧ r'.ownJoined = r.ownJoined ∧ r'.ownAbsent = r.ownAbsent ∧
    r'.frameStarts = r.frameStarts

theorem mapEntries_sameSelf (r : RosterUnit) (f : Station → RosterEntry → RosterEntry) :
    SameSelf r (r.mapEntries f) := by
  simp only [SameSelf, RosterUnit.mapEntries_self, RosterUnit.mapEntries_ownJoined,
    RosterUnit.mapEntries_ownAbsent, RosterUnit.mapEntries_frameStarts, and_self]

theorem SameSelf.trans {a b c : RosterUnit} (h : SameSelf a b) (k : SameSelf b c) : SameSelf a c :=
  ⟨k.1.trans h.1, k.2.1.trans h.2.1, k.2.2.1.trans h.2.2.1, k.2.2.2.trans h.2.2.2⟩

/-- The offsets cleared, aged or moved: nothing else of an entry changes (R96, R103, R111). -/
theorem clearOffsets_entry (r : RosterUnit) (n : Station) :
    (clearOffsets r).entry n = { r.entry n with offset := none, age := 0 } :=
  r.entry_mapEntries _ n

theorem ageOffsets_entry (r : RosterUnit) (n : Station) :
    (ageOffsets r).entry n = { r.entry n with
      age := if (r.entry n).offset.isSome then min 255 ((r.entry n).age + 1) else (r.entry n).age } := by
  unfold ageOffsets
  rw [RosterUnit.entry_mapEntries]
  split <;> rfl

theorem adjustOffsets_entry (r : RosterUnit) (fl length : Nat) (n : Station) :
    (adjustOffsets r fl length).entry n = { r.entry n with
      offset := (r.entry n).offset.map fun x =>
        boundLines (fl - 1) (x + ((length : Int) - (fl : Int))) } :=
  r.entry_mapEntries _ n

/-- The length of a trim decision lies within its bounds (R110). -/
theorem trimLength_bounds (cfg : StationConfig) (m : Int) (h : 4 ≤ cfg.fl) :
    cfg.fl / 2 ≤ (trimLength cfg m).1 ∧ (trimLength cfg m).1 ≤ cfg.fl + cfg.fl / 2 := by
  unfold trimLength
  split
  · exact ⟨le_boundLength _ _, boundLength_le _ _⟩
  · split
    · simp only; omega
    · split <;> simp only <;> omega

/-- A frame start at the Timing Unit: the count advances, the trim decision's median is kept and its length
returned, offsets age and move, and SNAP is raised or not (R97, R98, R110). -/
theorem timingFrameStart_eq (s : State) :
    ∃ m r, timingFrameStart s =
        (let t := (s.withTim { s.tim.advance (isLoneStart s) with lastMedian := m }).withRos r
         (if (trimLength s.cfg m).2 then raise t .snap else t, (trimLength s.cfg m).1)) ∧
      SameSelf s.ros r := by
  unfold timingFrameStart
  simp only
  generalize trimMedian _ _ = m
  refine ⟨m, adjustOffsets (ageOffsets s.ros) s.cfg.fl (trimLength s.cfg m).1, ?_,
    (mapEntries_sameSelf _ _).trans (mapEntries_sameSelf _ _)⟩
  have hc : ∀ (x : TimingUnit) (r : RosterUnit), ((s.withTim x).withRos r).cfg = s.cfg := fun _ _ => rfl
  rcases h : trimLength s.cfg m with ⟨length, snap⟩
  cases snap <;> simp only [hc, h, raise_only, State.withRos_tim, State.withTim_ros, State.withRos_ros,
    State.withTim_flt, State.withRos_flt, State.withTim_tim, if_true, Bool.false_eq_true, if_false] <;>
    simp only [State.withTim, State.withRos, State.withFlt, State.cfg]

/-- The states a message can leave at the Timing Unit: the count, the realignment request, offsets and a
raise apart, the state it found. -/
def TimingOnly (s u : State) : Prop :=
  ∃ t x r ks, u =
      (((s.withTim t).withArriving { s.arriving with request := x }).withRos r).withFlt (s.flt.raise ks) ∧
    t.lineStarts = s.tim.lineStarts ∧ t.lastMedian = s.tim.lastMedian ∧
    t.realignNumber = s.tim.realignNumber ∧ SameSelf s.ros r ∧
    ∀ n, ∃ o a, r.entry n = { s.ros.entry n with offset := o, age := a }

/-- A realignment claim (R103). -/
theorem realignmentClaim_eq (s : State) (stamp : Count) (phase : Nat) (s0 : Count) :
    realignmentClaim s stamp phase s0 =
      ((s.withTim { s.tim with
          count := (claimedPosition s stamp phase s0).1, realignPending := true }).withArriving
        { s.arriving with request := some (claimedPosition s stamp phase s0).2 }).withRos
        (clearOffsets s.ros) := by
  unfold realignmentClaim
  generalize claimedPosition s stamp phase s0 = p
  rfl

/-- A message at the Timing Unit (R101 to R108). -/
theorem timingMessage_only (s : State) (m : Message) (rt : ReceiveTiming) :
    TimingOnly s (timingMessage s m rt) := by
  have cleared (n : Station) : ∃ o a, (clearOffsets s.ros).entry n =
      { s.ros.entry n with offset := o, age := a } := ⟨none, 0, clearOffsets_entry _ n⟩
  unfold timingMessage
  simp only [realignmentClaim_eq, raise_only, State.withRos_flt, State.withArriving_flt, State.withTim_flt]
  generalize claimedPosition s m.stamp m.phase rt.lineStarts = p
  split
  · exact ⟨{ s.tim with count := p.1, countState := .set, realignPending := true }, some p.2,
      clearOffsets s.ros, [], rfl, rfl, rfl, rfl, mapEntries_sameSelf _ _, cleared⟩
  · exact ⟨{ s.tim with count := p.1, realignPending := true }, some p.2, clearOffsets s.ros,
      [.countJump], rfl, rfl, rfl, rfl, mapEntries_sameSelf _ _, cleared⟩
  · rename_i d _
    refine ⟨s.tim, s.arriving.request, s.ros.setEntry m.sender { s.ros.entry m.sender with
      offset := some (phaseOffset s.cfg.fl d m.phase rt.line), age := 0 }, [], rfl, rfl, rfl, rfl,
      ⟨rfl, rfl, rfl, rfl⟩, fun n => ?_⟩
    by_cases h : n = m.sender
    · subst h
      exact ⟨_, _, s.ros.entry_setEntry_self _ _⟩
    · exact ⟨_, _, s.ros.entry_setEntry_other _ h⟩
  · exact ⟨s.tim, s.arriving.request, s.ros, [], rfl, rfl, rfl, rfl, ⟨rfl, rfl, rfl, rfl⟩,
      fun n => ⟨_, _, rfl⟩⟩

/-- A claimed position lies in the frame (R102, R103). -/
theorem claimedPosition_lt (s : State) (stamp : Count) (phase : Nat) (s0 : Count) (h : 0 < s.cfg.fl) :
    (claimedPosition s stamp phase s0).2 < s.cfg.fl :=
  Nat.mod_lt _ h

end Sys2Proof.Machine
end

