-- ==== Sys2Proof/Laws/Settle.lean ====
section
/-! SUPPORT. What every hand-off leaves, and so what the hand-offs of a command leave in every order. -/

namespace Sys2Proof.Machine

/-- The states the hand-offs of one command can leave: the waiting commands, the RESET line, the bus line,
the receive side, the local port, frame memory, what is on its way but for a realignment request, and of the
line timer the position and the panel stay. -/
structure HandoffOnly (s t : State) : Prop where
  pending : t.pending = s.pending
  resetHeld : t.resetHeld = s.resetHeld
  line : t.line = s.line
  rx : t.rx = s.rx
  lpt : t.lpt = s.lpt
  mem : t.mem = s.mem
  scn : t.scn = { s.scn with port := t.scn.port, writeWaiting := t.scn.writeWaiting }
  lineStarts : t.tim.lineStarts = s.tim.lineStarts
  lastMedian : t.tim.lastMedian = s.tim.lastMedian
  realignNumber : t.tim.realignNumber = s.tim.realignNumber
  arriving : t.arriving = { s.arriving with request := t.arriving.request }

theorem HandoffOnly.refl (s : State) : HandoffOnly s s :=
  ⟨rfl, rfl, rfl, rfl, rfl, rfl, rfl, rfl, rfl, rfl, rfl⟩

theorem HandoffOnly.trans {r s t : State} (h : HandoffOnly r s) (k : HandoffOnly s t) :
    HandoffOnly r t where
  pending := k.pending.trans h.pending
  resetHeld := k.resetHeld.trans h.resetHeld
  line := k.line.trans h.line
  rx := k.rx.trans h.rx
  lpt := k.lpt.trans h.lpt
  mem := k.mem.trans h.mem
  scn := by rw [k.scn, h.scn]
  lineStarts := k.lineStarts.trans h.lineStarts
  lastMedian := k.lastMedian.trans h.lastMedian
  realignNumber := k.realignNumber.trans h.realignNumber
  arriving := by rw [k.arriving, h.arriving]

theorem HandoffOnly.ofCapture {s t : State} (h : CaptureOnly s t) : HandoffOnly s t where
  pending := h.pending
  resetHeld := h.resetHeld
  line := h.line
  rx := h.rx
  lpt := h.lpt
  mem := h.mem
  scn := by rw [h.scn]
  lineStarts := by rw [h.tim]
  lastMedian := by rw [h.tim]
  realignNumber := by rw [h.tim]
  arriving := by rw [h.arriving]

theorem HandoffOnly.ofAgreement {s t : State} (h : AgreementOnly s t) : HandoffOnly s t :=
  .ofCapture (.ofAgreement h)

theorem HandoffOnly.ofRos (s : State) (r : RosterUnit) : HandoffOnly s (s.withRos r) :=
  ⟨rfl, rfl, rfl, rfl, rfl, rfl, rfl, rfl, rfl, rfl, rfl⟩

theorem HandoffOnly.ofTx (s : State) (t : BusTransmitter) : HandoffOnly s (s.withTx t) :=
  .ofCapture (.ofTx s t)

theorem HandoffOnly.ofFlt (s : State) (f : FaultUnit) : HandoffOnly s (s.withFlt f) :=
  .ofCapture (.ofFlt s f)

theorem HandoffOnly.ofChoices (s : State) (n : Nat) : HandoffOnly s (s.withChoices n) :=
  ⟨rfl, rfl, rfl, rfl, rfl, rfl, rfl, rfl, rfl, rfl, rfl⟩

/-- An accepted message at the Agreement Unit (R37, R45). -/
theorem agreementMessage_only (s : State) (m : Message) (recorded : Bool) :
    HandoffOnly s (agreementMessage s m recorded) := by
  have evaluated (t : State) (h : HandoffOnly s t) :
      HandoffOnly s (if m.isOccasion then evaluate t else t) := by
    split
    · exact h.trans (.ofAgreement (evaluate_only t))
    · exact h
  unfold agreementMessage
  apply evaluated
  split
  · split
    · rcases swapSplitCheck_cases s m.sender m.stamp _ with h | h <;> rw [h]
      · exact .refl s
      · exact .ofFlt s _
    · exact .refl s
  all_goals exact .refl s

/-- One hand-off. -/
theorem takeHandoff_only (s : State) (h : Handoff) : HandoffOnly s (takeHandoff s h).1 := by
  cases h with
  | rosterFrameStart =>
    obtain ⟨self, t, ks, ht, e⟩ := rosterFrameStart_only s
    simp only [takeHandoff, e]
    exact (((HandoffOnly.ofRos s _).trans (.ofCapture ht)).trans (.ofRos _ _)).trans (.ofFlt _ _)
  | agreementFrameStart => exact .ofAgreement (agreementFrameStart_only s)
  | busFrameStart =>
    obtain ⟨t, e⟩ := heartbeatFrameStart_only s
    simp only [takeHandoff, e]
    exact .ofTx s t
  | occasion => exact .ofAgreement (evaluate_only s)
  | holdingsTrigger => exact .ofTx s _
  | rosterTakes m =>
    obtain ⟨r, t, f, e, -⟩ := rosterMessage_only s m
    simp only [takeHandoff, e]
    exact ((HandoffOnly.ofRos s r).trans (.ofTx _ t)).trans (.ofFlt _ f)
  | timingTakes m rt =>
    cases rt with
    | none => exact .refl s
    | some rt =>
      obtain ⟨t, x, r, ks, e, h1, h2, h3, -⟩ := timingMessage_only s m rt
      simp only [takeHandoff, e]
      exact ⟨rfl, rfl, rfl, rfl, rfl, rfl, rfl, h1, h2, h3, rfl⟩
  | transmitTakes c => exact .ofTx s _
  | agreementTakes m recorded => exact agreementMessage_only s m recorded
  | jumpTold n => exact (HandoffOnly.ofAgreement (retime_only s n)).trans (.ofAgreement (evaluate_only _))
  | captureRelease => exact .ofCapture (afterRelease_only s _)

/-- The hand-offs of a command, in every order. -/
theorem settleWith_only (choose : Nat → Nat) (due : List Handoff) (s : State) :
    HandoffOnly s (settleWith choose due s) :=
  settleWith_keeps (HandoffOnly s) (fun _ n h => h.trans (.ofChoices _ n))
    (fun _ x h => h.trans (takeHandoff_only _ x)) choose due s (.refl s)

/-! ## What is on its way -/

/-- With nothing of a message on its way, taking it changes nothing. -/
theorem takeMessages_nothing (choose : Nat → Nat) {s : State} (h : s.arriving.messages = []) :
    takeMessages choose s = s.withArriving s.arriving.requestAlone := by
  simp only [takeMessages, settleWithMessages, h]
  rfl

/-- With nothing of a message on its way, the hand-offs that are due are taken alone. -/
theorem settleWithMessages_nothing (choose : Nat → Nat) (due : List Handoff) {s : State}
    (h : s.arriving = .nothing) : settleWithMessages choose due s = settleWith choose due s := by
  rcases s with ⟨_, _, _, _, _, _, _, _, _, _, _, _, _, _, a, _⟩
  subst h
  simp only [settleWithMessages]
  rw [show due ++ Arrivals.nothing.messages = due from due.append_nil]
  rfl

/-- The hand-offs that are due and those of a message that are on their way, taken in whatever order. -/
theorem settleWithMessages_only (choose : Nat → Nat) (due : List Handoff) (s : State) :
    HandoffOnly (s.withArriving s.arriving.requestAlone) (settleWithMessages choose due s) :=
  settleWith_only choose _ _

/-- The hand-offs of a message that are on their way, taken in whatever order. -/
theorem takeMessages_only (choose : Nat → Nat) (s : State) :
    HandoffOnly (s.withArriving s.arriving.requestAlone) (takeMessages choose s) :=
  settleWithMessages_only choose [] s

/-- A realignment request on its way is placed at the Scan-out Unit, and no other state changes. -/
theorem placeRequest_only (s : State) :
    placeRequest s = (s.withScn { s.scn with realign := (placeRequest s).scn.realign }).withArriving
      { s.arriving with request := none } := by
  unfold placeRequest
  cases h : s.arriving.request with
  | none =>
    simp only [State.withScn, State.withArriving]
    rw [← h]
  | some p => rfl

/-- A message's hand-offs taken but for those that a lag leaves on their way. -/
theorem takeSooner_only (choose : Nat → Nat) (lag : Nat) (s : State) :
    HandoffOnly (s.withArriving (s.arriving.later lag)) (takeSooner choose lag s) :=
  settleWith_only choose _ _

/-- What is on its way, taken in whatever order: nothing is on its way after it. -/
theorem arrive_only (choose : Nat → Nat) (s : State) :
    ∃ t realign, HandoffOnly (s.withArriving s.arriving.requestAlone) t ∧
      arrive choose s = (t.withScn { t.scn with realign := realign }).withArriving .nothing := by
  refine ⟨takeMessages choose s, (placeRequest (takeMessages choose s)).scn.realign,
    takeMessages_only choose s, ?_⟩
  rw [arrive, placeRequest_only]
  simp only [State.withScn_scn, State.withArriving_scn]
  congr 1
  rw [(takeMessages_only choose s).arriving]
  rfl

/-- With nothing on its way nothing arrives. -/
theorem arrive_nothing (choose : Nat → Nat) {s : State} (h : s.arriving = .nothing) :
    arrive choose s = s := by
  rcases s with ⟨_, _, _, _, _, _, _, _, _, _, _, _, _, _, a, _⟩
  subst h
  rfl

/-- With nothing on its way a transmit start leaves nothing. -/
theorem arriveUnlessSending_nothing (choose : Nat → Nat) {s : State} (h : s.arriving = .nothing) :
    arriveUnlessSending choose s = s := by
  simp only [arriveUnlessSending, arrive_nothing choose h, ite_self]

/-- An effect that may be taken on either side of what is on its way: with nothing on its way it is the
effect alone, and otherwise one of the two orders. -/
theorem eitherSide_cases (choose : Nat → Nat) (effect : State → State) (s : State) :
    (s.arriving = .nothing ∧ eitherSide choose effect s = effect s) ∨
    (s.arriving ≠ .nothing ∧
      (eitherSide choose effect s = effect (arrive choose (s.withChoices (s.choices + 1))) ∨
        eitherSide choose effect s = arrive choose (effect (s.withChoices (s.choices + 1))))) := by
  unfold eitherSide
  split
  · exact .inl ⟨‹_›, rfl⟩
  · split
    · exact .inr ⟨‹_›, .inl rfl⟩
    · exact .inr ⟨‹_›, .inr rfl⟩

/-- RESTART with no message on its way: only a realignment request stays behind it. -/
theorem aroundRestart_noMessage (choose : Nat → Nat) (effect : State → State) {s : State}
    (h : s.arriving.messages = []) : aroundRestart choose effect s = placeRequest (effect s) :=
  if_pos h

/-- RESTART with nothing on its way is its effect alone. -/
theorem aroundRestart_nothing (choose : Nat → Nat) (effect : State → State) {s : State}
    (h : s.arriving = .nothing) (k : (effect s).arriving = .nothing) :
    aroundRestart choose effect s = effect s := by
  rw [aroundRestart_noMessage choose effect (by rw [h]; rfl), placeRequest, k]
  rfl

/-- RESTART with a message on its way: some of its hand-offs are taken before it, the others and the
realignment request behind it. -/
theorem aroundRestart_message (choose : Nat → Nat) (effect : State → State) {s : State}
    (h : s.arriving.messages ≠ []) : aroundRestart choose effect s =
      arrive choose (effect (takeSooner choose (choose s.choices % 8) (s.withChoices (s.choices + 1)))) :=
  if_neg h

end Sys2Proof.Machine
end

