-- ==== Sys2Proof/Laws/ScanOut.lean ====
section
/-! SUPPORT. What the line timer, the swap decision and a burst can do (chapters 5 and 7). -/

namespace Sys2Proof.Machine

/-- The beginning of a line writes the panel and the read request alone (R85, R91). -/
theorem lineBegins_only (s : State) (mark : Bool) :
    ∃ port waiting line, lineBegins s mark = s.withScn
      { s.scn with port := port, readWaiting := waiting, panel := some line } ∧
      line.number = s.scn.currentLine ∧ line.frameStartMark = mark := by
  unfold lineBegins
  simp only
  split
  · exact ⟨s.scn.port, s.scn.readWaiting, _, rfl, rfl, rfl⟩
  · split
    · rename_i b _
      rcases s.scn.requestRead_cases { buffer := b, slot := s.scn.currentLine } with ⟨_, h⟩ | ⟨_, h⟩ <;>
        rw [h]
      · exact ⟨_, s.scn.readWaiting, _, rfl, rfl, rfl⟩
      · exact ⟨s.scn.port, _, _, rfl, rfl, rfl⟩
    · exact ⟨s.scn.port, s.scn.readWaiting, _, rfl, rfl, rfl⟩

/-- The swap decision: the head executes at its count with its buffer READY, or nothing happens (R88). -/
theorem swapDecision_cases (s : State) :
    (∃ e rest b passed, s.agr.schedule = e :: rest ∧ e.time = s.tim.count ∧
      s.buf.swapTo e.tag s.tim.count = some (b, passed) ∧
      swapDecision s = (((s.withBuf b).withAgr { s.agr with schedule := rest }).withScn
        { s.scn with swapLine := true, swapThisFrame := true }).withFlt
          ((s.flt.count .swaps 1).count .passedOver passed)) ∨
    swapDecision s = s := by
  unfold swapDecision
  split
  · exact .inr rfl
  · rename_i e rest he
    split
    · rename_i ht
      split
      · exact .inr rfl
      · rename_i b passed hb
        exact .inl ⟨e, rest, b, passed, he, ht, hb, rfl⟩
    · exact .inr rfl

/-- Every line start is signalled to the Capture Unit and the Timing Unit and ends the SWAP line (R82). -/
theorem signalLineStart_eq (s : State) :
    signalLineStart s = ((s.withCap (s.cap.lineStart (timeoutLimit s.cfg))).withTim
      { s.tim with lineStarts := s.tim.lineStarts + 1 }).withScn { s.scn with swapLine := false } := rfl

/-- A line start of a stopped timer does not occur (R82). -/
theorem lineStartWith_stopped (choose : Nat → Nat) {s : State} (h : s.scn.timer = .stopped) :
    lineStartWith choose s = s := by simp [lineStartWith, h]

/-- FRAME_START is LINE_START where a frame start is due, and nothing elsewhere (R82, R87). -/
theorem frameStartIfDue_eq (choose : Nat → Nat) (s : State) :
    frameStartIfDue choose s = if frameStartDue s then lineStartWith choose s else s := rfl

/-! ## A burst (R121, R127) -/

/-- Acceptance records the sequence and counts (R127). -/
theorem acceptMessage_only (s : State) (m : Message) (gap : Bool) :
    ∃ f, acceptMessage s m gap = (s.withRos (s.ros.setEntry m.sender
        { s.ros.entry m.sender with lastSeq := some m.seq })).withFlt f ∧
      f.eventCounters = (s.flt.count .accepted 1).eventCounters := by
  unfold acceptMessage
  simp only [raise_only, countEvents_only]
  split
  · exact ⟨_, rfl, FaultUnit.raise_eventCounters _ [.seqGap]⟩
  · exact ⟨_, rfl, rfl⟩

/-- A repeat request writes the queue, or counts a request lost (R129). -/
theorem repeatRequest_only (s : State) (x : Station) (reason : RepeatReason) :
    ∃ t f, repeatRequest s x reason = (s.withTx t).withFlt f := by
  unfold repeatRequest
  split
  · exact ⟨s.tx, s.flt, rfl⟩
  · rcases s.tx.request x reason with ⟨t, lost⟩
    cases lost
    · exact ⟨t, s.flt, rfl⟩
    · exact ⟨t, _, rfl⟩

/-- A line start finds the state with the request placed and its frame start due, or with everything that was
on its way taken. -/
theorem beforeLineStart_cases (choose : Nat → Nat) (s : State) :
    (((placeRequest s).scn.timer = .running ∧ frameStartDue (placeRequest s) = true) ∧
      beforeLineStart choose s = placeRequest s) ∨
    beforeLineStart choose s = arrive choose (placeRequest s) := by
  simp only [beforeLineStart]
  split
  · exact .inl ⟨‹_›, rfl⟩
  · exact .inr rfl

/-- With nothing on its way a line start finds the state as it stands. -/
theorem beforeLineStart_nothing (choose : Nat → Nat) {s : State} (h : s.arriving = .nothing) :
    beforeLineStart choose s = s := by
  have hp : placeRequest s = s := by simp only [placeRequest, h, Arrivals.nothing]
  simp only [beforeLineStart, hp]
  split
  · rfl
  · exact arrive_nothing choose h

/-- An accepted message handed on: its hand-offs, and then only the realignment request and what is on its
way (R127). -/
theorem handOnMessage_only (choose : Nat → Nat) (s : State) (m : Message)
    (rt : Option ReceiveTiming) : ∃ t realign a, HandoffOnly s t ∧
      handOnMessage choose s m rt = (t.withScn { t.scn with realign := realign }).withArriving a := by
  have h := takeSooner_only choose (lagOf choose s)
    ((s.withChoices (s.choices + 1)).withArriving (handoffsOf s.cfg m rt))
  simp only [handOnMessage]
  generalize takeSooner choose _ _ = t at h ⊢
  have back (u : State) (k : HandoffOnly t u) : HandoffOnly s (u.withArriving s.arriving) :=
    let k := h.trans k
    ⟨k.pending, k.resetHeld, k.line, k.rx, k.lpt, k.mem, k.scn, k.lineStarts, k.lastMedian,
      k.realignNumber, rfl⟩
  split
  · have e := placeRequest_only t
    generalize (placeRequest t).scn.realign = r at e
    rw [e]
    exact ⟨_, r, _, back _ (.ofChoices t (t.choices + 1)), rfl⟩
  · exact ⟨_, t.scn.realign, t.arriving, back _ (.ofChoices t (t.choices + 1)), rfl⟩

/-- The outcome of a burst leaves the capture's data path to its hand-offs and the port, the bus line, the
receive machine and frame memory alone (R121). -/
theorem carryOutBurst_only (choose : Nat → Nat) (s : State) (rt : Option ReceiveTiming)
    (o : BurstOutcome) : ∃ t realign a, HandoffOnly s t ∧
      carryOutBurst choose s rt o = (t.withScn { t.scn with realign := realign }).withArriving a := by
  have plain (t : State) (h : HandoffOnly s t) : ∃ u realign a, HandoffOnly s u ∧
      t = (u.withScn { u.scn with realign := realign }).withArriving a :=
    ⟨t, t.scn.realign, t.arriving, h, rfl⟩
  cases o with
  | collision => exact plain _ (.ofFlt s _)
  | discarded k => exact plain _ (.ofFlt s _)
  | dropped => exact plain _ (.refl s)
  | damaged k x reason =>
    obtain ⟨t, f, h⟩ := repeatRequest_only (raise s k) x reason
    simp only [carryOutBurst, h]
    exact plain _ (((HandoffOnly.ofFlt s _).trans (.ofTx _ t)).trans (.ofFlt _ f))
  | duplicate => exact plain _ (.ofFlt s _)
  | accepted m gap =>
    obtain ⟨f, h, -⟩ := acceptMessage_only s m gap
    obtain ⟨t, r, a, ht, e⟩ := handOnMessage_only choose (acceptMessage s m gap) m rt
    refine ⟨t, r, a, HandoffOnly.trans ?_ ht, e⟩
    rw [h]
    exact (HandoffOnly.ofRos s _).trans (.ofFlt _ f)

end Sys2Proof.Machine
end

