-- ==== Sys2Proof/Laws/LocalPort.lean ====
section
/-! SUPPORT. What the local port's commands and the step can do (chapter 10). -/

namespace Sys2Proof.Machine

@[simp] theorem unlessReset_held {s : State} (f : State → State) (h : s.resetHeld = true) :
    unlessReset s f = .next s := by simp [unlessReset, h]

@[simp] theorem unlessReset_released {s : State} (f : State → State) (h : s.resetHeld = false) :
    unlessReset s f = .next (f s) := by simp [unlessReset, h]

/-- With nothing on its way a command's effect is its effect on the state as it stands. -/
theorem afterArrivals_nothing {s : State} (f : State → State) (h : s.resetHeld = false)
    (ha : s.arriving = .nothing) : afterArrivals s f = .next (f s) := by
  simp [afterArrivals, h, arrive_nothing _ ha]

/-- A reply writes the local port alone (R169). -/
theorem reply_only (s : State) (code : Byte) (bytes : List Byte) :
    reply s code bytes = s.withLpt { s.lpt with
      phase := .reply, command := some code, reply := some bytes, sent := 0, dataOut := 0x00#8 } := rfl

/-- LOAD_CONFIG writes the local port alone (R172). -/
theorem takeLoadConfig_only (s : State) (block : List Byte) :
    ∃ p, takeLoadConfig s block = s.withLpt p ∧ p.frozen = s.lpt.frozen ∧
      (s.lpt.frozen = true → p.held = s.lpt.held) ∧
      (s.lpt.frozen = false → p.held = s.lpt.held ∨
        (firstFailure block = none ∧ p.held = some (configOf block))) := by
  unfold takeLoadConfig
  simp only
  split
  · rename_i h
    exact ⟨_, rfl, rfl, fun _ => rfl, fun _ => .inl rfl⟩
  · rename_i h
    split
    · exact ⟨_, rfl, rfl, fun _ => rfl, fun _ => .inl rfl⟩
    · rename_i hf
      exact ⟨_, rfl, rfl, fun h' => absurd h' h, fun _ => .inr ⟨hf, rfl⟩⟩

/-- A block that no check fails passes each of them (R172). -/
theorem fieldPasses_of_firstFailure {block : List Byte} (h : firstFailure block = none) (i : Nat)
    (hi : i ≤ 15) : fieldPasses block i = true := by
  have := List.find?_eq_none.1 h i (by interval_cases i <;> simp)
  simpa using this

/-- READ_MEMBER writes the local port alone (R179). -/
theorem takeReadMember_only (s : State) (n : Byte) :
    ∃ bytes, takeReadMember s n = s.withLpt { s.lpt with
      phase := .reply, command := some 0x21#8, params := [n], reply := some bytes, sent := 0
      dataOut := 0x00#8 } := ⟨_, rfl⟩

/-- READ_FAULTS writes the local port and empties the summary (R160). -/
theorem takeReadFaults_only (s : State) :
    takeReadFaults s = (reply s 0x23#8 (readFaultsReply s.flt)).withFlt s.flt.emptySummary := rfl

/-- The FAULT line of an empty summary is deasserted (R159). -/
@[simp] theorem faultLevel_empty (mask : FaultSet) : faultLevel 0#21 mask = false := by
  simp [faultLevel]

/-- START leaves the count, the agreement, the buffers, the capture and frame memory (R174). -/
theorem startBlocks_frame (s : State) :
    (startBlocks s).tim = s.tim ∧ (startBlocks s).agr = s.agr ∧ (startBlocks s).buf = s.buf ∧
      (startBlocks s).cap = s.cap ∧ (startBlocks s).mem = s.mem ∧ (startBlocks s).line = s.line ∧
      (startBlocks s).pending = s.pending ∧ (startBlocks s).choices = s.choices ∧
      (startBlocks s).resetHeld = s.resetHeld ∧ (startBlocks s).ros = listening s.cfg := by
  obtain ⟨p, w, l, h, -⟩ := lineBegins_only (((s.withLpt { s.lpt with frozen := true }).withRos
    (listening s.cfg)).withScn (s.scn.started s.cfg.fl)) true
  have hs : startBlocks s = (((lineBegins (((s.withLpt { s.lpt with frozen := true }).withRos
      (listening s.cfg)).withScn (s.scn.started s.cfg.fl)) true).withRx
        (s.rx.waitForIdle s.line)).withTx
          { s.tx with generator := backoffSeed s.cfg.station, heartbeat := 0 }).withFlt
            (s.flt.takeMask s.cfg.faultMask) := by
    simp only [startBlocks, State.withRos_scn, State.withLpt_scn, h,
      State.withScn_scn, State.withScn_rx, State.withRos_rx, State.withLpt_rx, State.withScn_line,
      State.withRos_line, State.withLpt_line, State.withRx_tx, State.withScn_tx, State.withRos_tx,
      State.withLpt_tx, State.withTx_flt, State.withRx_flt, State.withScn_flt, State.withRos_flt,
      State.withLpt_flt]
  rw [hs, h]
  simp

/-- RESTART leaves the faults, the port, frame memory and the line (R176). -/
theorem restartBlocks_frame (s : State) :
    (restartBlocks s).flt = s.flt ∧ (restartBlocks s).lpt = s.lpt ∧ (restartBlocks s).mem = s.mem ∧
      (restartBlocks s).line = s.line ∧ (restartBlocks s).pending = s.pending ∧
      (restartBlocks s).choices = s.choices ∧ (restartBlocks s).resetHeld = s.resetHeld ∧
      (restartBlocks s).ros = listening s.cfg := by
  simp [restartBlocks, emptySchedule]

/-! ## The step -/

theorem step_cons (c : Instr) (rest : List Instr) (s : State) :
    step (s.withPending (c :: rest)) = exec c (s.withPending rest) := rfl

theorem step_nil {s : State} (h : s.pending = []) : step s = .next s := by simp [step, h]

end Sys2Proof.Machine
end

