-- ==== Sys2Proof/Laws/Memory.lean ====
section
/-! SUPPORT. Frame memory (R56): a write keeps the canonical form, is read back, and leaves every other
slot alone. -/

namespace Sys2Proof.Machine

/-- The canonical form by its meaning: the keys rise strictly. -/
theorem wf_cons_iff (k : Nat) (d : LineData) (mem : FrameMemory) :
    FrameMemory.wf ((k, d) :: mem) = true ↔
      (∀ e ∈ mem.head?, k < e.1) ∧ FrameMemory.wf mem = true := by
  cases mem with
  | nil => simp [FrameMemory.wf]
  | cons e rest => simp [FrameMemory.wf]

/-- The first key after a write. -/
theorem head_writeKey (mem : FrameMemory) (key : Nat) (data : LineData) :
    ∀ e ∈ (writeKey mem key data).head?, e.1 = key ∨ ∃ e' ∈ mem.head?, e.1 = e'.1 := by
  cases mem with
  | nil => simp [writeKey]
  | cons e rest =>
    obtain ⟨k, d⟩ := e
    simp only [writeKey]
    split <;> [simp; (split <;> simp)]

/-- A write keeps the canonical form. -/
theorem writeKey_wf (mem : FrameMemory) (key : Nat) (data : LineData)
    (h : FrameMemory.wf mem = true) : FrameMemory.wf (writeKey mem key data) = true := by
  induction mem with
  | nil => rfl
  | cons e rest ih =>
    obtain ⟨k, d⟩ := e
    have hr := (wf_cons_iff k d rest).1 h
    simp only [writeKey]
    split
    · exact (wf_cons_iff key data _).2 ⟨by simpa using by assumption, h⟩
    · split
      · subst_vars; exact (wf_cons_iff _ data rest).2 hr
      · refine (wf_cons_iff k d _).2 ⟨fun e he => ?_, ih hr.2⟩
        rcases head_writeKey rest key data e he with h' | ⟨e', he', h'⟩
        · omega
        · exact h' ▸ hr.1 e' he'

/-- A write is read back. -/
@[simp] theorem readKey_writeKey_self (mem : FrameMemory) (key : Nat) (data : LineData) :
    readKey (writeKey mem key data) key = some data := by
  induction mem with
  | nil => simp [writeKey, readKey]
  | cons e rest ih =>
    obtain ⟨k, d⟩ := e
    simp only [writeKey]
    split
    · simp [readKey]
    · split
      · simp [readKey]
      · rename_i h1 h2
        have : ¬ k = key := fun h => h2 h.symm
        simp [readKey, this, ih]

/-- A write leaves every other key alone. -/
theorem readKey_writeKey_other (mem : FrameMemory) {key other : Nat} (data : LineData)
    (h : other ≠ key) : readKey (writeKey mem key data) other = readKey mem other := by
  have h' : ¬ key = other := fun e => h e.symm
  induction mem with
  | nil => simp [writeKey, readKey, h']
  | cons e rest ih =>
    obtain ⟨k, d⟩ := e
    simp only [writeKey]
    split
    · simp [readKey, h']
    · split
      · rename_i h2; subst h2; simp [readKey, h']
      · simp only [readKey, ih]

/-- Two slots that exist have the same key only where they are the same slot. -/
theorem slotKey_injective {a b : SlotAddress} (ha : a.slot < 4096) (hb : b.slot < 4096)
    (h : slotKey a = slotKey b) : a = b := by
  obtain ⟨i, n⟩ := a
  obtain ⟨j, m⟩ := b
  simp only [slotKey] at h
  have : i = j := Fin.ext (by simp_all; omega)
  subst this
  simp_all

end Sys2Proof.Machine
end

