-- ==== Sys2Proof/Tests/Slice0.lean ====
section
/-! SUPPORT. Small tests, each of one command or one rule, with the expected values taken from the manual's
worked examples and tables (the chapter is named in each comment), and witnesses that the hypotheses of
the obligations can be met. -/

set_option Elab.async false

namespace Sys2Proof.Machine.Tests

/-! ## Small states -/

/-- Station n of group 0 with members 0 to 3, FL 1125 and the defaults of R173. -/
def config (n : Station) : StationConfig := { StationConfig.unconfigured with station := n, members := 0x000F#16 }

/-- A station n in MEMBER, joined at 20, at count g and line 5 of its frame. -/
def member (n : Station) (g : Count) : State :=
  ((((State.reset.withLpt { LocalPort.initial with held := some (config n), frozen := true }).withRos
    { RosterUnit.initial with self := .member, ownJoined := some 20#32, frameStarts := 90#32 }).withScn
    { ScanOutUnit.initial with
      timer := .running, currentLine := 5, elapsed := 6, endLine := 1125, frameLength := 1125 }).withTim
    { TimingUnit.initial with count := g, countState := .set, lineStarts := 8003#32 }).withRx
    { BusReceiver.initial with state := .idle }

/-- The member with the entry of a station changed. -/
def withEntry (s : State) (n : Station) (e : RosterEntry) : State := s.withRos (s.ros.setEntry n e)

/-- A voter joined at 20, last heard at a stamp. -/
def voter (stamp : Count) : RosterEntry :=
  { RosterEntry.initial .voter with
    joinedAt := some 20#32, lastStamp := some stamp, lastFrame := some 88#32, view := 0x000F#16 }

/-- The voter that also holds one tag. -/
def voterHolding (stamp : Count) (tag : Tag) (since : Count) : RosterEntry :=
  { voter stamp with holdings := [{ tag := tag, stamp := since }] }

/-- A record that is READY. -/
def ready (tag : Tag) (stamp : Count) (pinned : Bool) : BufferRecord :=
  { state := .ready, tag := some tag, readyStamp := some stamp, lineCount := 1080, pinned := pinned }

/-- The local port where a command byte is awaited. -/
def selected (s : State) : State := s.withLpt s.lpt.selected

/-- The local port where a byte of parameters is awaited. -/
def parameters (s : State) (code : Byte) (params : List Byte) : State :=
  s.withLpt { s.lpt.selected with phase := .parameters, command := some code, params := params }

/-- The state that a step leaves; the state after reset where it stops. -/
def after (c : Instr) (s : State) : State :=
  match exec c s with
  | .next t => t
  | .fault _ => State.reset
  | .refused _ => State.reset

/-- The reply copy after a command. -/
def replyTo (c : Instr) (s : State) : List Byte := (after c s).lpt.reply.getD []

/-! ## The smoke test of WellFormed: its one check refuses a command code as an unknown command -/

theorem test_command_code_is_no_unknown_command : WellFormed (.unknownCommand 0x11#8) = false := by decide
theorem test_other_byte_is_an_unknown_command : WellFormed (.unknownCommand 0x30#8) = true := by decide

/-- No word spells a command: the table gives no row any bits. -/
theorem test_no_word_spells_a_command : decodeTableWord 8 0x11 = none := rfl

/-! ## Chapter 10: the port, the configuration and the start -/

/-- The example block of chapter 10: given-set, FL 600 and AL 540. -/
def exampleBlock (given : Nat) : List Byte :=
  bytesOf 2 given ++ [2#8, 0#8, 0x0F#8, 0#8] ++ bytesOf 2 600 ++ bytesOf 2 540 ++ List.replicate 13 0#8

theorem test_load_config_names_index_5 :
    replyTo (.loadConfig 0#8) (parameters State.reset 0x10#8 ((exampleBlock 0x000D).take 22)) =
      [0x03#8, 5#8] := by decide +kernel
theorem test_load_config_takes_the_block :
    (after (.loadConfig 0#8) (parameters State.reset 0x10#8 ((exampleBlock 0x001D).take 22))).lpt.held =
      some { config 2 with fl := 600, al := 540 } := by decide +kernel

/-- A station in CONFIG with a held configuration, a command awaited. -/
def configured : State :=
  selected (State.reset.withLpt { LocalPort.initial with held := some (config 2) })

theorem test_start_listens_and_seeds :
    let t := after .start configured
    t.ros.self = .listen ∧ t.lpt.frozen = true ∧ t.tx.generator = 1497#16 ∧ t.scn.endLine = 1125 ∧
      t.lpt.reply = some [0x01#8] := by decide +kernel
theorem test_start_without_configuration_is_refused :
    replyTo .start (selected State.reset) = [0x02#8] := by decide +kernel
theorem test_leave_in_config_is_refused : replyTo .leave configured = [0x02#8] := by decide +kernel
theorem test_leave_in_member_places_the_standing_entry :
    let t := after .leave (selected (member 2 100#32))
    t.ros.self = .leaving ∧ t.tx.queue = [.fresh .standing] ∧ t.tx.state = .waitGap := by decide +kernel
theorem test_restart_listens :
    let t := after .restart (selected (member 0 100#32))
    t.ros.self = .listen ∧ t.tim.count = 0#32 ∧ t.tim.countState = .unset ∧
      t.tim.realignNumber = 1#8 ∧ t.scn.currentLine = 5 := by decide +kernel
theorem test_read_state_in_config :
    replyTo .readState (selected State.reset) = 0x01#8 :: List.replicate 25 0x00#8 := by decide +kernel
theorem test_read_member_16_is_refused :
    replyTo (.readMember 16#8) (parameters State.reset 0x21#8 []) = [0x02#8] := by decide +kernel
theorem test_read_member_of_a_voter :
    let s := withEntry (member 0 100#32) 1 (voter 88#32)
    (replyTo (.readMember 1#8) (parameters s 0x21#8 [])).take 19 =
      [1, 1, 3, 0, 0, 0x1D, 0, 20, 0, 0, 0, 0, 0, 0, 0, 104, 0, 0, 0].map (BitVec.ofNat 8) := by
  decide +kernel
theorem test_read_schedule_lays_out_an_entry :
    let s := (member 0 100#32).withAgr
      { AgreementUnit.initial with schedule := [{ tag := 40#16, time := 106#32 }] }
    replyTo .readSchedule (selected s) = [1, 1, 40, 0, 106, 0, 0, 0].map (BitVec.ofNat 8) := by
  decide +kernel
theorem test_unknown_command_is_answered_unknown :
    replyTo (.unknownCommand 0x30#8) configured = [0x04#8] := by decide +kernel
theorem test_byte_clocked_takes_start :
    (after (.byteClocked 0x11#8) configured).ros.self = .listen := by decide +kernel
theorem test_byte_clocked_sends_the_reply :
    let t := after (.byteClocked 0x00#8) (after .start configured)
    t.lpt.dataOut = 0x01#8 ∧ t.lpt.phase = .ignore := by decide +kernel
theorem test_chip_select_falls :
    (after .chipSelectFalls State.reset).lpt.phase = .command := by decide +kernel
theorem test_chip_select_rises_before_the_last_byte :
    (after .chipSelectRises (parameters State.reset 0x10#8 [])).lpt.phase = .idle ∧
      (after .chipSelectRises (parameters State.reset 0x10#8 [])).lpt.held = none := by decide +kernel
theorem test_hard_reset_clears_the_configuration :
    let t := after .hardReset (member 0 100#32)
    t.ros.self = .config ∧ t.lpt.held = none ∧ t.tim.countState = .unset ∧ t.resetHeld = true := by
  decide +kernel
theorem test_reset_released_lets_commands_through :
    (after .chipSelectFalls (after .resetReleased (after .hardReset State.reset))).lpt.phase = .command :=
  by decide +kernel

/-! ## Chapter 9: the fault record of one station -/

/-- The mask of the example: all kinds but 7, 11, 14 and 15. -/
def exampleFaults : FaultUnit :=
  ((FaultUnit.initial.takeMask (BitVec.allOnes 21 ^^^ 0x00C880#21)).raise [.countJump]).raise [.lateSwap]

theorem test_masked_kinds_leave_the_line : exampleFaults.faultLine = false ∧
    ((exampleFaults.raise [.snap]).raise [.snap]).faultCounters[15] = 2 := by decide +kernel
theorem test_body_bad_asserts_the_line :
    ((exampleFaults.raise [.snap]).raise [.bodyBad]).faultLine = true := by decide +kernel
theorem test_read_faults_empties_the_summary :
    let t := after .readFaults (selected ((member 2 100#32).withFlt (exampleFaults.raise [.bodyBad])))
    t.flt.summary = 0#21 ∧ t.flt.faultLine = false ∧ t.flt.faultCounters[3] = 1 ∧
      (t.lpt.reply.getD []).take 8 = [1, 0x08, 0x48, 0, 0, 0, 0, 1].map (BitVec.ofNat 8) := by
  decide +kernel
theorem test_read_counters_keeps_them :
    let s := selected ((member 2 100#32).withFlt (exampleFaults.count .swaps 300))
    (replyTo .readCounters s).drop 9 = [44, 1, 0, 0, 0, 0, 0, 0].map (BitVec.ofNat 8) ∧
      (after .readCounters s).flt = s.flt := by decide +kernel
theorem test_clear_counters_keeps_the_summary :
    let s := selected ((member 2 100#32).withFlt (exampleFaults.raise [.bodyBad]))
    (after .clearCounters s).flt.faultCounters[3] = 0 ∧
      (after .clearCounters s).flt.summary = s.flt.summary ∧
      (after .clearCounters s).flt.faultLine = true := by decide +kernel

/-! ## Chapters 5 and 6: line starts, realignments, the swap, and the trim -/

/-- The member with a pending realignment to line p after e line periods. -/
def realigning (e p : Nat) : State :=
  let s := member 0 100#32
  s.withScn { s.scn with currentLine := e - 1, elapsed := e, realign := some p }

theorem test_line_start_raised_realignment :
    let t := after .lineStart (realigning 300 900)
    t.scn.frameLength = 562 ∧ t.scn.currentLine = 863 ∧ t.scn.endLine - t.scn.currentLine = 262 := by
  decide +kernel
theorem test_line_start_cut_realignment :
    let t := after .lineStart (realigning 700 100)
    t.scn.frameLength = 1687 ∧ t.scn.currentLine = 138 ∧ t.scn.endLine - t.scn.currentLine = 987 := by
  decide +kernel

/-- The member at the last line of its frame with a schedule and a pool. -/
def beforeSwap : State :=
  let s := (member 0 105#32).withAgr
    { AgreementUnit.initial with schedule := [{ tag := 40#16, time := 106#32 }] }
  (s.withScn { s.scn with currentLine := 1124, elapsed := 1125 }).withBuf
    { BufferManager.initial with
      records := BufferManager.initial.records.set 0 (ready 40#16 101#32 true), ready := [0] }

theorem test_frame_start_swaps_at_its_count :
    let t := frameStartIfDue (fun _ => 0) beforeSwap
    t.tim.count = 106#32 ∧ t.buf.find .showing = some 0 ∧ t.buf.shownSince = some 106#32 ∧
      t.scn.swapLine = true ∧ t.agr.schedule = [] ∧ t.flt.eventCounters[4] = 1 := by decide +kernel
/-- R85, R87, R91: line 0 after the swap reads slot 0 of the buffer that the swap has made SHOWING. -/
theorem test_frame_start_reads_the_new_buffer :
    let t := frameStartIfDue (fun _ => 0) beforeSwap
    t.scn.panel = some { number := 0, frameStartMark := true, content := .awaiting } ∧
      t.scn.port = .read { buffer := 0, slot := 0 } := by decide +kernel
theorem test_frame_start_not_due_is_nothing :
    after .frameStart (member 0 100#32) = member 0 100#32 := by decide +kernel

theorem test_trim_lengths :
    trimLength (config 1) (-5) = (1126, false) ∧ trimLength (config 0) (-300) = (1425, true) ∧
      trimLength (config 0) 1 = (1125, false) ∧ trimLength (config 0) 2 = (1124, false) := by decide

/-- Chapter 6, the two cases of a forward jump: A and the position it gives. -/
theorem test_group_positions :
    groupPosition 1125 305#32 600 8000#32 8004#32 = (305#32, 604) ∧
      groupPosition 1125 305#32 100 5000#32 5005#32 = (305#32, 105) := by decide

/-- Chapter 6, case 1: the claim sets the count to 305 and requests line 604. -/
theorem test_forward_jump_claims_the_position :
    let s := member 2 300#32
    let t := timingMessage s { sender := 1, seq := 0#8, stamp := 305#32, phase := 600, body := .leave }
      { count := 300#32, line := 400, lineStarts := 8000#32, realignNumber := 0#8, countState := .set }
    t.tim.count = 305#32 ∧ (placeRequest t).scn.realign = some 604 ∧ t.flt.faultCounters[14] = 1 := by
  decide +kernel

/-! ## Chapter 2: completion and placement -/

/-- Example A after its three messages: stations 0, 1 and 2 vote, station 3 joins at 105. -/
def exampleA : State :=
  let s := (member 0 104#32).withBuf { BufferManager.initial with
    records := BufferManager.initial.records.set 0 (ready 40#16 101#32 false), ready := [0] }
  withEntry (withEntry (withEntry s 1 (voterHolding 103#32 40#16 103#32)) 2
    (voterHolding 104#32 40#16 104#32)) 3
    { RosterEntry.initial .joining with joinedAt := some 105#32, lastStamp := some 103#32 }

theorem test_example_A_completes_at_104 :
    completionStamp exampleA 40#16 = some 104#32 ∧ passes exampleA 40#16 103#32 = false ∧
      (evaluate exampleA).agr.schedule = [{ tag := 40#16, time := 106#32 }] := by decide +kernel

/-- A schedule from numbers. -/
def scheduleOf (es : List (Nat × Nat)) : List ScheduleEntry :=
  es.map fun e => { tag := BitVec.ofNat 16 e.1, time := BitVec.ofNat 32 e.2 }

theorem test_example_D_under_both_policies :
    (placeFifo 119#32 (scheduleOf [(41, 120)]) 40#16 121#32).schedule = scheduleOf [(40, 121), (41, 122)] ∧
      placeLatest 119#32 (scheduleOf [(41, 120)]) 40#16 121#32 = none ∧
      (placeLatest 119#32 (scheduleOf [(41, 120)]) 42#16 121#32).map (·.schedule) =
        some (scheduleOf [(41, 120), (42, 121)]) := by decide
theorem test_example_E_is_late :
    placeFifo 125#32 [] 40#16 124#32 =
      { schedule := scheduleOf [(40, 126)], removed := [], late := true } ∧
      placeLatest 125#32 (scheduleOf [(41, 126)]) 40#16 124#32 = none := by decide
theorem test_example_F_retimes :
    retimed .fifo 140#32 (scheduleOf [(40, 132), (41, 133), (42, 145)]) =
      some { schedule := scheduleOf [(40, 141), (41, 142), (42, 145)], removed := [], late := true } ∧
    retimed .latest 140#32 (scheduleOf [(40, 132), (41, 133), (42, 145)]) =
      some { schedule := scheduleOf [(41, 141), (42, 145)], removed := [40#16], late := true } := by decide
/-- R40: an entry behind the retimed ones is pushed to the T + 1 of the entry before it. -/
theorem test_retiming_pushes_a_later_entry :
    (retimed .fifo 140#32 (scheduleOf [(40, 132), (41, 133), (42, 142)])).map (·.schedule) =
      some (scheduleOf [(40, 141), (41, 142), (42, 143)]) := by decide

/-! ## Chapter 1: the entry of station 3 at station 2 -/

theorem test_entry_example :
    let e : RosterEntry := { voter 48#32 with joinedAt := some 42#32, lastFrame := some 38#32 }
    (e.frameStart (config 2) 54#32 44#32).state = .quiet ∧
      (e.frameStart (config 2) 53#32 43#32).state = .voter ∧
      (({ e with state := .quiet } : RosterEntry).frameStart (config 2) 64#32 54#32).absentFrom =
        some 64#32 := by decide +kernel

/-- R19: a JOINING entry lost by silence before its joined-at raises nothing; from its joined-at on it is a
VOTER by the frame start's first check (R11), and MEMBER_LOST is raised. -/
theorem test_joining_entry_lost_raises_nothing :
    let e : RosterEntry := { voter 48#32 with state := .joining, joinedAt := some 70#32 }
    (e.frameStart (config 2) 64#32 90#32).state = .absent ∧
      e.becomesLost (config 2) 64#32 90#32 = false ∧
      ({ e with joinedAt := some 64#32 } : RosterEntry).becomesLost (config 2) 64#32 90#32 = true := by
  decide +kernel

/-- Two stations lost at one frame start are two occasions of evaluation (R19, R37). -/
theorem test_each_absence_is_an_occasion :
    absencesDecided (withEntry (withEntry (member 0 120#32) 1 (voter 100#32)) 2 (voter 104#32)) = 2 ∧
      absencesDecided (withEntry (withEntry (member 0 120#32) 1 (voter 100#32)) 2 (voter 105#32)) = 1 := by
  decide +kernel

/-! ## Chapters 3 and 4: the pool and one input frame -/

/-- The pool of chapter 3 at count 103: three tags ready, B0 pinned. -/
def fullPool : State :=
  (member 0 103#32).withBuf { BufferManager.initial with
    records := (((BufferManager.initial.records.set 0 (ready 40#16 101#32 true)).set 1
      (ready 41#16 102#32 false)).set 2 (ready 42#16 103#32 false))
    ready := [0, 1, 2] }

theorem test_begin_marker_reclaims_B1 :
    let a := fullPool.buf.allocate .latest 43#16
    a.grant = some 1 ∧ a.reclaimed = true ∧ a.pool.ready = [0, 2] := by decide +kernel
/-- R53: the reclaim of B1 is one buffer dropped and a standing trigger. -/
theorem test_reclaim_triggers_the_standing_message :
    let t := after (.beginMarker 43#16) fullPool
    t.flt.eventCounters[6] = 1 ∧ t.tx.queue = [.fresh .standing] ∧ t.cap.buffer = some 1 := by decide +kernel
/-- R50 and R70 agree on a tag newer than every tag held and on one not newer than the newest held; they
differ on 40000 over the shown tag 0 and the ready tag 30000, which no proof can tell. -/
theorem test_staleness_check_where_the_rules_agree :
    let b : BufferManager := { BufferManager.initial.setRecord 0 (ready 30000#16 101#32 false) with
      ready := [0], shownTag := some 0#16, shownSince := some 100#32 }
    let t := after (.beginMarker 30000#16) ((member 0 103#32).withBuf b)
    b.newestHeld = some 30000#16 ∧ b.passesStaleness 30001#16 = true ∧ b.passesStaleness 30000#16 = false ∧
      (b.newerThanNewest 40000#16 = true ∧ b.newerThanHeld 40000#16 = false) ∧
      t.cap.state = .discard ∧ t.flt.faultCounters[18] = 1 := by
  decide +kernel
theorem test_begin_marker_takes_B0 :
    let t := after (.beginMarker 40#16) (member 0 100#32)
    t.cap.state = .filling ∧ t.cap.buffer = some 0 ∧ t.buf.find .filling = some 0 := by decide +kernel

/-- A frame in FILLING in B1 with eight lines of AL 8 taken and written. -/
def eightLines : State :=
  let s := member 0 100#32
  ((s.withLpt { s.lpt with held := some { config 0 with fl := 20, al := 8, snap := 4 } }).withCap
    { CaptureUnit.initial with
      state := .filling, tag := some 41#16, buffer := some 1, received := 8 }).withBuf
    (BufferManager.initial.setRecord 1 { BufferRecord.filling 41#16 with lineCount := 8 })

theorem test_ninth_line_is_discarded :
    let t := after (.inputLine [1#8]) eightLines
    t.cap.state = .discard ∧ t.flt.faultCounters[17] = 1 ∧ t.buf.find .filling = none := by
  decide +kernel
theorem test_input_line_asks_for_its_write :
    let s := eightLines.withCap { eightLines.cap with received := 3 }
    (after (.inputLine [7#8]) s).scn.port =
      .write { addr := { buffer := 1, slot := 3 }, data := [7#8], abandoned := false } := by
  decide +kernel
theorem test_end_marker_completes :
    let t := after .endMarker eightLines
    t.cap.state = .idle ∧ t.buf.readyList = [{ tag := 41#16, stamp := 100#32 }] := by decide +kernel
theorem test_capture_timeout_aborts :
    let t := after .captureTimeout (eightLines.withCap { eightLines.cap with timeout := 40 })
    t.cap.state = .idle ∧ t.flt.faultCounters[17] = 1 := by decide +kernel

/-- The frame's last line in the FIFO, its write in progress. -/
def lastWrite : State :=
  let w : LineWrite := { addr := { buffer := 1, slot := 7 }, data := [9#8], abandoned := false }
  ((eightLines.withCap { eightLines.cap with
    closing := true, fifo := [{ owner := .current, slot := 7, data := [9#8] }] }).withBuf
    (BufferManager.initial.setRecord 1 { BufferRecord.filling 41#16 with lineCount := 7 })).withScn
    { eightLines.scn with port := .write w }

theorem test_last_write_completes_the_frame :
    let t := after .captureWriteComplete lastWrite
    t.cap.state = .idle ∧ t.buf.ready = [1] ∧ t.buf.records[1].lineCount = 8 ∧ readSlot t.mem { buffer := 1, slot := 7 } = [9#8] := by
  decide +kernel
theorem test_missing_slot_stops :
    let a : SlotAddress := { buffer := 1, slot := 8 }
    exec .scanOutReadComplete (eightLines.withScn { eightLines.scn with port := .read a }) =
      .fault (.noSuchSlot a) := rfl
theorem test_read_delivers_its_line :
    let a : SlotAddress := { buffer := 1, slot := 7 }
    let s := (eightLines.withMem [(slotKey a, [9#8])]).withScn { eightLines.scn with
      port := .read a, panel := some { number := 7, frameStartMark := false, content := .awaiting } }
    (after .scanOutReadComplete s).scn.panel =
      some { number := 7, frameStartMark := false, content := .picture [9#8] } := by decide +kernel

/-! ## Chapters 7 and 8: bursts, transmissions and collisions -/

/-- The message of station n at count g with a sequence, as the bus carries it. -/
def burstOf (n : Station) (g : Count) (kind : MessageKind) (cls : EntryClass) (seq : Byte) : Burst :=
  { bytes := (buildMessage (member n g) cls kind seq).bytes, trailingBits := false, invalidSymbol := false }

/-- Station 2 of chapter 7 while a burst is taken: station 1's last sequence is 200, station 3's 9. -/
def receiving : State :=
  let s := withEntry (withEntry (member 2 100#32) 1 { voter 98#32 with lastSeq := some 200#8 }) 3
    { voter 98#32 with lastSeq := some 9#8 }
  (s.withLine .busy).withRx { s.rx with
    state := .receiving
    timing := some { count := 100#32, line := 5, lineStarts := 8003#32, realignNumber := 0#8,
                     countState := .set } }

theorem test_burst_accepted_with_a_gap :
    let t := burstEnds (fun _ => 0) receiving (burstOf 1 100#32 .state .standing 202#8)
    (t.ros.entry 1).lastSeq = some 202#8 ∧ t.flt.faultCounters[7] = 1 ∧ t.flt.eventCounters[1] = 1 ∧
      (t.ros.entry 1).lastStamp = some 100#32 := by decide +kernel
theorem test_damaged_burst_queues_a_repeat :
    let b := burstOf 1 100#32 .state .standing 201#8
    let t := after (.burstEnd { b with bytes := b.bytes.set 9 0xFF#8 }) receiving
    t.flt.faultCounters[3] = 1 ∧ t.tx.queue = [.fresh (.repeatTo 1 .bodyBad)] := by decide +kernel
theorem test_sequence_199_past_is_a_duplicate :
    judgeSequence { voter 98#32 with lastSeq := some 57#8 } 0#8 = .duplicate := by decide
theorem test_line_busy_begins_a_burst :
    (after .lineBusy (member 2 100#32)).rx.state = .receiving := by decide +kernel

/-- Station 0 of chapter 8 with its STANDING entry and a REPEAT entry for station 3 waiting. -/
def waiting : State :=
  (member 0 100#32).withTx { BusTransmitter.initial with
    queue := [.fresh .standing, .fresh (.repeatTo 3 .bodyBad)], seq := 57#8, state := .waitGap
    generator := 499#16 }

theorem test_gap_starts_a_transmission :
    let t := after .gapReached waiting
    t.tx.state = .sending ∧ t.tx.queue.map (·.seq) = [some 57#8, none] ∧ t.tx.seq = 58#8 ∧
      t.line = .busy := by decide +kernel
theorem test_collision_jams :
    let t := after .collision (after .gapReached waiting)
    t.tx.state = .jamming ∧ t.tx.queue.map (·.collisions) = [1, 0] ∧ t.flt.eventCounters[3] = 1 := by
  decide +kernel
theorem test_jam_end_draws :
    let t := after .jamEnd (after .collision (after .gapReached waiting))
    t.tx.generator = 249#16 ∧ t.tx.backoffCount = 1 ∧ t.tx.state = .waitGap ∧
      advanceGenerator 1497#16 = 748#16 := by decide +kernel
theorem test_slot_end_transmits :
    let s := waiting.withTx { waiting.tx with state := .backoff, backoffCount := 1, slotRunning := true }
    (after .backoffSlotEnd s).tx.state = .sending ∧ (after .backoffSlotEnd s).tx.backoffCount = 0 := by
  decide +kernel
theorem test_transmission_complete_sends_the_next :
    let t := after .transmissionComplete (after .gapReached waiting)
    t.tx.state = .waitGap ∧ t.tx.queue = [.fresh (.repeatTo 3 .bodyBad)] ∧ t.flt.eventCounters[0] = 1 := by
  decide +kernel
theorem test_completed_join_sets_joined_at :
    let s := waiting.withRos { waiting.ros with self := .joining, ownJoined := none }
    (after .transmissionComplete (after .gapReached s)).ros.ownJoined = some 102#32 := by decide +kernel

/-- R130, both orders: the acceptance first removes the waiting entry, the transmit start first leaves it in
flight. -/
theorem test_acceptance_and_transmit_start_in_both_orders :
    let s := waiting.withTx { waiting.tx with queue := [.fresh (.repeatTo 3 .bodyBad)] }
    let late := after .gapReached (s.withArriving { Arrivals.nothing with claims := [.withdraw 3] })
    (s.tx.takeClaim .member (.withdraw 3)).queue = [] ∧ late.tx.state = .sending ∧
      late.arriving.claims = [.withdraw 3] ∧
      (arrive (fun _ => 0) late).tx.queue.map (·.cls) = [.repeatTo 3 .bodyBad] := by decide +kernel

/-- R147: the own REPEAT entry collides with what withdraws it still on its way. Withdrawn before the collision
the entry is in flight and stays, and the end of the jam draws; withdrawn behind it the entry is removed during
the jam, and its end neither draws nor gives up. -/
theorem test_repeat_entry_removed_during_the_jam :
    let s := waiting.withTx { waiting.tx with queue := [.fresh (.repeatTo 3 .bodyBad)] }
    let sending := after .gapReached (s.withArriving { Arrivals.nothing with claims := [.withdraw 3] })
    let stays := eitherSide (fun _ => 0) collisionSeen sending
    let removed := eitherSide (fun _ => 1) collisionSeen sending
    stays.tx.state = .jamming ∧ stays.tx.queue.map (·.collisions) = [1] ∧
      (after .jamEnd stays).tx.state = .waitGap ∧
      (after .jamEnd stays).tx.generator = advanceGenerator 499#16 ∧
      removed.tx.state = .jamming ∧ removed.tx.queue = [] ∧ removed.flt.eventCounters[3] = 1 ∧
      (after .jamEnd removed).tx.state = .txIdle ∧ (after .jamEnd removed).tx.generator = 499#16 ∧
      (after .jamEnd removed).flt.summary = 0#21 := by decide +kernel

/-- A STATE of station 1 whose view lacks station 0. -/
def evictingState : Message :=
  { sender := 1, seq := 201#8, stamp := 100#32, phase := 5
    body := .state
      { memberSince := 20#32, shownTag := none, shownSince := none, view := 0x000E#16, ready := [] } }

/-- R150: an eviction that meets the own STATE in flight leaves it on the wire and sets renew; taken before the
transmit start it sends the JOIN. -/
theorem test_eviction_meets_a_state_in_flight :
    let s := (withEntry waiting 1 (voter 98#32)).withArriving
      { Arrivals.nothing with roster := some evictingState }
    let late := arrive (fun _ => 0) (after .gapReached s)
    let soon := after .gapReached (after .readState (selected s))
    late.ros.self = .evicted ∧ late.tx.inFlight.map (·.kind) = some .state ∧
      late.tx.queue.map (·.renew) = [true, false] ∧ soon.tx.inFlight.map (·.kind) = some .join := by
  decide +kernel

/-- R94, R112: a realignment request that reaches the Scan-out Unit behind RESTART is kept, one before it is
dropped. -/
theorem test_request_and_restart_in_both_orders :
    let s := selected ((member 0 100#32).withArriving { Arrivals.nothing with request := some 7 })
    (after .restart s).scn.realign = some 7 ∧ (after (.byteClocked 0x13#8) s).scn.realign = some 7 ∧
      (after .restart (selected (after .chipSelectRises s))).scn.realign = none := by decide +kernel

/-- R112, R176: a forward jump's message with stamp 105 and phase 5, on its way to the Roster Unit and the
Timing Unit when RESTART is taken, by which of them (bits 0 and 1) takes it behind RESTART. The group position
at the next line start, 8004, is line 6. -/
theorem test_message_and_restart_in_four_orders :
    ∀ k ∈ [0, 1, 2, 3],
      let m := readMessage (burstOf 1 105#32 .state .standing 201#8).bytes
      let s := selected (receiving.withArriving { Arrivals.nothing with
        roster := some m, timing := receiving.rx.timing.map (m, ·) })
      let t := aroundRestart (fun _ => k) takeRestart s
      t.tim.count = 0#32 ∧ t.tim.countState = .unset ∧ t.tim.realignNumber = 1#8 ∧
        t.flt.faultCounters[14] = (if k < 2 then 1 else 0) ∧
        t.scn.realign = (if k < 2 then some 6 else none) ∧
        t.ros.self = (if k % 2 = 0 then .listen else .joining) ∧ t.arriving = .nothing := by decide +kernel

/-- A station in LISTEN at the last line of the LF-th frame, while a message of station 1 is received. -/
def listening : State :=
  let s := (receiving.withRos { receiving.ros with self := .listen, ownJoined := none, frameStarts := 8#32 }).withTim
    { receiving.tim with count := 0#32, countState := .unset }
  (s.withRx { s.rx with
    timing := some { count := 0#32, line := 1121, lineStarts := 8000#32, realignNumber := 0#8
                     countState := .unset } }).withScn { s.scn with currentLine := 1124, elapsed := 1125 }

/-- R104: a message with stamp 105 and phase 5 and the frame start of the lone start, by which of the Roster
Unit (bit 0) and the Timing Unit (bit 1) take the message behind the frame start, in two orders of the
hand-offs. The group position at line start 8005 is line 10 of frame 105. -/
theorem test_lone_start_meets_a_message_in_four_ways :
    ∀ k ∈ [0, 1, 2, 3], ∀ j ∈ [0, 1],
      let s := burstEnds (fun _ => k) listening (burstOf 1 105#32 .state .standing 201#8)
      let t := placeRequest (frameStartIfDue (fun _ => j) (beforeLineStart (fun _ => j) s))
      s.ros.self = (if k % 2 = 0 then .joining else .listen) ∧
        s.tim.countState = (if k < 2 then .set else .unset) ∧
        t.ros.self = .joining ∧ t.tim.countState = .set ∧ t.tim.count = 105#32 ∧
        t.scn.realign = some 10 ∧ t.ros.frameStarts = 9#32 ∧ (t.ros.entry 1).lastStamp = some 105#32 ∧
        t.flt.faultCounters[14] = (if k < 2 then 0 else 1) := by decide +kernel

/-! ## Witnesses: states and operands that meet the hypotheses of each obligation, clause by clause -/

theorem witness_StepRunsFrontCommand : State.reset.pending = [] := rfl
theorem witness_HardResetReturnsEveryBlock : (State.reset.withResetHeld true).resetHeld = true := rfl

/-- Every law holds in a state that is not the reset state, and a step from it has a next state. -/
theorem witness_laws_and_steps :
    faultLineLaw (exampleFaults.raise [.bodyBad]) = true ∧
      FrameMemory.wf [(7, [1#8]), (4096, [])] = true ∧ dataPathSafe lastWrite = true ∧
      lineCountLaw lastWrite = true ∧ poolLaw fullPool.buf = true ∧ queueLaw waiting = true ∧ strangersVacant exampleA = true := by
  decide +kernel
theorem witness_FaultLineFollowsSummary :
    let s := (member 2 100#32).withFlt (exampleFaults.raise [.bodyBad])
    (∃ t, step (s.withPending [.lineBusy]) = .next t) ∧ (∃ t, exec .hardReset s = .next t) ∧
      (settled s ∧ (selected s).lpt.phase = .command ∧
        ∃ t, exec .readFaults (selected s) = .next t) ∧
      (∃ t, exec .restart (selected s) = .next t) ∧ ∃ t, exec .clearCounters (selected s) = .next t :=
  ⟨⟨_, rfl⟩, ⟨_, rfl⟩, ⟨⟨rfl, rfl⟩, rfl, _, rfl⟩, ⟨_, rfl⟩, _, rfl⟩
theorem witness_kept_laws_step :
    (∃ t, step ((eightLines.withMem [(7, [1#8])]).withPending [.endMarker]) = .next t) ∧
      (∃ t, step (fullPool.withPending [.beginMarker 43#16]) = .next t) ∧
      (∃ t, step (waiting.withPending [.gapReached]) = .next t) ∧
      ∃ t, step (exampleA.withPending [.lineStart]) = .next t :=
  ⟨⟨_, rfl⟩, ⟨_, rfl⟩, ⟨_, rfl⟩, _, rfl⟩
/-- The full pool with its pinned tag scheduled, 2 frames ahead of the count. -/
def scheduled : State :=
  fullPool.withAgr { AgreementUnit.initial with schedule := scheduleOf [(40, 105)] }

theorem witness_BufferPoolLawKept :
    (poolLaw scheduled.buf = true ∧ orderLaw scheduled.buf = true ∧ scheduleLaw scheduled = true ∧
      validConfig scheduled.cfg = true ∧
      swapTimesLaw scheduled.cfg scheduled.tim.count scheduled.agr.schedule = true ∧
      countsNear scheduled = true) ∧
    (poolLaw lastWrite.buf = true ∧ dataPathSafe lastWrite = true ∧ lineCountLaw lastWrite = true ∧
      ∃ t, step (lastWrite.withPending [.captureWriteComplete]) = .next t) ∧
    (let t := after .lineStart scheduled
     countsNear t = true ∧ tagsNear (poolTags scheduled.buf ++ poolTags t.buf) = true ∧
       (t.tim.count - scheduled.tim.count).toNat < 268435456) ∧
    (after .restart (selected scheduled)).agr.schedule = [] ∧
    ∃ t, step (scheduled.withPending [.lineStart]) = .next t :=
  ⟨by decide +kernel, ⟨by decide +kernel, by decide +kernel, by decide +kernel, _, rfl⟩, by decide +kernel,
    by decide +kernel, _, rfl⟩
theorem witness_SwapTimesStayAfterTheCount :
    let s := scheduled.withPending [.lineStart]
    (poolLaw s.buf = true ∧ orderLaw s.buf = true ∧ scheduleLaw s = true ∧
      swapTimesLaw s.cfg s.tim.count s.agr.schedule = true ∧ validConfig s.cfg = true ∧
      s.lpt.frozen = true ∧ s.tim.countState = .set ∧ countsNear s = true ∧ lateJumpAhead s = true) ∧
    (let u := receiving.withArriving { Arrivals.nothing with
       timing := receiving.rx.timing.map ({ evictingState with stamp := 105#32 }, ·) }
     u.arriving.timing ≠ none ∧ lateJumpAhead u = true) ∧
    (let t := after .lineStart scheduled
     countsNear t = true ∧ (t.tim.count - s.tim.count).toNat < 268435456) ∧
    ∃ t, step s = .next t :=
  ⟨by decide +kernel, by decide +kernel, by decide +kernel, _, rfl⟩
theorem witness_BuiltMessageIsReadBack :
    validConfig fullPool.cfg = true ∧ fullPool.scn.currentLine < 65536 ∧
      fullPool.buf.readyList.length = 3 ∧
      (EntryClass.standing = .standing ↔ MessageKind.state ≠ .repeatRequest) ∧
      (EntryClass.repeatTo 3 .lenBad = .standing ↔ MessageKind.repeatRequest ≠ .repeatRequest) := by
  decide +kernel
theorem witness_PlacementOrderDoesNotMatter :
    [(0, 1), (32767, 1073741823)].Perm [(32767, 1073741823), (0, 1)] ∧
      ([(0, 1), (32767, 1073741823)].map (·.1)).Nodup ∧
      (∀ f ∈ [(0, 1), (32767, 1073741823)], f.1 < 32768 ∧ 1 ≤ f.2 ∧ f.2 < 1073741824) := by decide

theorem witness_TransactionFrames :
    settled configured ∧ configured.lpt.phase = .command ∧
      0x30#8 ∉ [0x10#8, 0x11#8, 0x12#8, 0x13#8, 0x20#8, 0x21#8, 0x22#8, 0x23#8, 0x24#8, 0x25#8] := by
  decide
theorem witness_ByteClockedInEachPhase :
    settled State.reset ∧ State.reset.lpt.phase = .idle ∧
      (configured.withLpt { configured.lpt with phase := .ignore }).lpt.phase = .ignore ∧
      (let s := after .start configured
       settled s ∧ s.lpt.phase = .reply ∧ s.lpt.reply = some [0x01#8] ∧ s.lpt.sent < 1) ∧
      configured.lpt.phase = .command ∧ WellFormed (.unknownCommand 0x00#8) = true ∧
      (let s := parameters State.reset 0x10#8 (List.replicate 21 0#8)
       s.lpt.phase = .parameters ∧ s.lpt.command = some 0x10#8 ∧ s.lpt.params.length = 21) ∧
      (parameters State.reset 0x10#8 (List.replicate 22 0#8)).lpt.params.length = 22 ∧
      (parameters State.reset 0x21#8 []).lpt.params = [] := by decide +kernel
/-- A block that passes every check, one that fails at index 5, its default AL above FL − 4, and one that
fails at index 0. -/
theorem witness_LoadConfigTakenOrRefused :
    (∀ i, i ≤ 15 → passesCheck (exampleBlock 0x001D) i) ∧
    (∀ j, j < 5 → passesCheck (exampleBlock 0x000D) j) ∧ ¬ passesCheck (exampleBlock 0x000D) 5 ∧
    ¬ passesCheck (exampleBlock 0x801D) 0 ∧
    (let s := parameters State.reset 0x10#8 ((exampleBlock 0x001D).take 22)
     settled s ∧ s.lpt.phase = .parameters ∧ s.lpt.command = some 0x10#8 ∧
      s.lpt.params.length = 22 ∧ s.lpt.frozen = false ∧
      (s.withLpt { s.lpt with frozen := true }).lpt.frozen = true) := by
  refine ⟨fun i h => ?_, fun j h => ?_, ?_, fun h => ?_, by decide +kernel⟩
  · interval_cases i
    · exact (show (field (exampleBlock 0x001D) 0 2).testBit 15 = false by decide +kernel)
    · exact ⟨2, by decide +kernel⟩
    · exact ⟨0, by decide +kernel⟩
    · exact ⟨15, 2, by decide +kernel⟩
    · exact ⟨600, by decide +kernel⟩
    · exact ⟨540, 600, by decide +kernel⟩
    · exact ⟨2, by decide +kernel⟩
    · exact ⟨4, by decide +kernel⟩
    · exact ⟨16, 4, by decide +kernel⟩
    · exact ⟨8, by decide +kernel⟩
    · exact ⟨1, by decide +kernel⟩
    · exact ⟨32, 600, by decide +kernel⟩
    · exact ⟨30, by decide +kernel⟩
    · exact ⟨2, by decide +kernel⟩
    · exact ⟨1, by decide +kernel⟩
    · exact ⟨2097151, by decide +kernel⟩
  · interval_cases j
    · exact (show (field (exampleBlock 0x000D) 0 2).testBit 15 = false by decide +kernel)
    · exact ⟨2, by decide +kernel⟩
    · exact ⟨0, by decide +kernel⟩
    · exact ⟨15, 2, by decide +kernel⟩
    · exact ⟨600, by decide +kernel⟩
  · rintro ⟨x, fl, hx, hfl, -, h⟩
    have hx' : valueOf (exampleBlock 0x000D) 5 = some 1080 := by decide +kernel
    have hfl' : valueOf (exampleBlock 0x000D) 4 = some 600 := by decide +kernel
    rw [hx'] at hx; rw [hfl'] at hfl
    cases hx; cases hfl; omega
  · exact absurd (show (field (exampleBlock 0x801D) 0 2).testBit 15 = false from h) (by decide +kernel)
theorem witness_StartTakenOrRefused :
    settled configured ∧ configured.lpt.phase = .command ∧ configured.ros.self = .config ∧
      configured.lpt.frozen = false ∧ configured.lpt.held = some (config 2) ∧
      (selected (member 0 1#32)).ros.self ≠ .config ∧ (selected (member 0 1#32)).lpt.frozen = true ∧
      (selected State.reset).lpt.held = none ∧ configured.buf.find .showing = none ∧
      configured.scn.port = .idle ∧ 0 < configured.cfg.al := by decide +kernel
theorem witness_LeaveTakenOrRefused :
    let s := selected (after .gapReached waiting)
    settled s ∧ s.lpt.phase = .command ∧ s.ros.self ∈ [SelfState.joining, .member, .evicted] ∧
      s.tx.state = .sending ∧ (∃ e rest, s.tx.queue = e :: rest ∧ e.isStanding = true ∧
        rest.any QueueEntry.isStanding = false) ∧
      (let u := selected (after .gapReached (waiting.withTx { waiting.tx with
        queue := [.fresh (.repeatTo 3 .bodyBad), .fresh .standing] }))
       u.tx.state = .sending ∧ ∃ e rest, u.tx.queue = e :: rest ∧ e.isStanding = false) ∧
      (selected waiting).tx.state ≠ .sending ∧
      configured.ros.self ∉ [SelfState.joining, .member, .evicted] :=
  ⟨⟨rfl, rfl⟩, rfl, by decide +kernel, rfl, ⟨_, _, rfl, rfl, rfl⟩, ⟨rfl, _, _, rfl, rfl⟩, by decide +kernel,
    by decide +kernel⟩
theorem witness_RestartTakenOrRefused :
    let s := selected ((member 0 100#32).withArriving { Arrivals.nothing with request := some 7 })
    s.resetHeld = false ∧ s.lpt.phase = .command ∧ s.ros.self ≠ .config ∧
      s.arriving = { Arrivals.nothing with request := s.arriving.request } ∧
      configured.ros.self = .config ∧ configured.arriving = .nothing := by decide +kernel
/-- A message on its way to the Roster Unit, to the Timing Unit, to both or to the transmit side alone. -/
theorem witness_RestartTakenOrRefused_message :
    ∀ heard late : Bool,
      let rt : ReceiveTiming := { count := 100#32, line := 5, lineStarts := 8003#32, realignNumber := 0#8
                                  countState := .set }
      let s := selected (receiving.withArriving { Arrivals.nothing with
        roster := if heard then some evictingState else none
        timing := if late then some (evictingState, rt) else none
        claims := [.withdraw 1] })
      s.resetHeld = false ∧ s.lpt.phase = .command ∧ s.ros.self ≠ .config ∧
        ∀ x ∈ s.arriving.timing, x.2.realignNumber ≠ s.tim.realignNumber + 1 := by decide +kernel
/-- READ_STATE, READ_SCHEDULE, READ_FAULTS, READ_COUNTERS and CLEAR_COUNTERS. -/
theorem witness_command_awaited :
    settled (selected fullPool) ∧ (selected fullPool).lpt.phase = .command := by decide +kernel
theorem witness_ReadMemberReply :
    let s := parameters exampleA 0x21#8 []
    settled s ∧ s.lpt.phase = .parameters ∧ s.lpt.command = some 0x21#8 ∧ s.lpt.params = [] ∧
      16 ≤ (16#8).toNat ∧ (15#8).toNat < 16 := by decide +kernel
/-- Points reached and ahead at their ends, the self entry in each state of R12, and a blocking voter. -/
theorem witness_ReadMemberReply_self_entry :
    let s := member 0 20#32
    let left := s.withRos { s.ros with ownAbsent := some 20#32 }
    (s.ros.ownJoined = some 20#32 ∧ s.ros.ownAbsent = none ∧ s.tim.count = 20#32 ∧
      s.ros.self ∉ [SelfState.config, .detached] ∧ left.ros.ownAbsent = some left.tim.count) ∧
    1 ≤ (21#32 - 20#32).toNat ∧ (21#32 - 20#32).toNat < 2147483648 ∧
    (2147483667#32 - 20#32).toNat = 2147483647 ∧
    selfEntryState s = .voter ∧ selfEntryState left = .absent ∧
    selfEntryState (member 0 19#32) = .joining ∧
    selfEntryState (s.withRos { s.ros with ownJoined := none }) = .expected ∧
    selfEntryState State.reset = .vacant ∧
    selfEntryState (s.withRos { s.ros with self := .detached }) = .absent ∧
    blockingFlag (withEntry exampleA 1 (voter 103#32)) 1 = true ∧ blockingFlag exampleA 1 = false := by
  decide +kernel
theorem witness_FaultLineFollowsSummary_masked :
    faultLineLaw exampleFaults = true ∧ exampleFaults.mask.getLsbD FaultKind.bodyBad.number.val = true ∧
      exampleFaults.mask.getLsbD FaultKind.snap.number.val = false ∧
      faultLineLaw FaultUnit.initial = true ∧ FaultUnit.initial.mask = 0#21 := by decide +kernel
theorem witness_RaiseRecordsEachKind :
    [FaultKind.viewSplit, .evicted].Nodup ∧ faultLineLaw exampleFaults = true := by decide +kernel

theorem witness_OrdinaryLineStart :
    let s := eightLines.withBuf (eightLines.buf.setRecord 0 { BufferRecord.filling 40#16 with
      state := .showing })
    State.reset.scn.timer = .stopped ∧ settled s ∧ s.scn.timer = .running ∧
      s.scn.currentLine + 1 ≠ s.scn.endLine ∧ s.scn.realign = none ∧
      (s.cap.state = .filling ∧ s.cap.closing = false ∧ s.cap.aborting = none) ∧
      (member 0 1#32).cap.state ≠ .filling ∧ s.scn.currentLine + 1 < s.cfg.al ∧
      s.buf.find .showing = some 0 ∧ s.scn.port = .idle ∧ lastWrite.scn.port ≠ .idle ∧
      (member 0 1#32).buf.find .showing = none ∧
      (let u := eightLines.withScn { eightLines.scn with currentLine := 7 }
       u.cfg.al ≤ u.scn.currentLine + 1) := by decide +kernel
/-- The three rows of chapter 5 and a request for line 0, each with the bound it meets. -/
theorem witness_RealignmentRenumbersWithinBounds :
    (let s := realigning 400 500
     settled s ∧ s.scn.timer = .running ∧ s.scn.realign = some 500 ∧
       s.scn.currentLine + 1 ≠ s.scn.endLine ∧ 16 ≤ s.cfg.fl ∧ 500 < s.cfg.fl ∧
       s.scn.elapsed < s.cfg.fl + s.cfg.fl / 2 ∧
       s.cfg.fl / 2 ≤ s.scn.elapsed + s.cfg.fl - 500 ∧
       s.scn.elapsed + s.cfg.fl - 500 ≤ s.cfg.fl + s.cfg.fl / 2) ∧
    (realigning 300 900).scn.elapsed + 1125 - 900 < 1125 / 2 ∧
    1125 + 1125 / 2 < (realigning 700 100).scn.elapsed + 1125 - 100 ∧
    (realigning 561 0).scn.elapsed < 1125 / 2 ∧
    (let t := after .lineStart (realigning 400 500)
     t.scn.currentLine < t.cfg.al ∧ t.buf.find .showing = none) := by decide +kernel
theorem witness_FrameStartBeginsAFrame :
    (let s := member 0 100#32
     s.arriving = .nothing ∧ s.scn.currentLine + 1 ≠ s.scn.endLine ∧ s.scn.realign ≠ some 0) ∧
    (let s := beforeSwap
     settled s ∧ s.scn.timer = .running ∧ 16 ≤ s.cfg.fl ∧
       s.scn.currentLine + 1 = s.scn.endLine ∧ s.tim.countState = .set) ∧
    (let s := realigning 562 0
     s.scn.realign = some 0 ∧ s.cfg.fl / 2 ≤ s.scn.elapsed ∧ s.scn.currentLine + 1 ≠ s.scn.endLine) ∧
    (let s := beforeSwap.withTim { beforeSwap.tim with countState := .unset }
     s.tim.countState = .unset ∧ s.ros.frameStarts ≠ BitVec.ofNat 32 s.cfg.lf ∧
       s.ros.self ≠ .leaving ∧ 0 < s.cfg.al ∧ (s.withAgr .initial).buf.find .showing = none ∧
       (s.withRos { s.ros with frameStarts := 8#32 }).ros.frameStarts = BitVec.ofNat 32 s.cfg.lf) := by
  decide +kernel
/-- The frame start that swaps, made at the end line and made by a realignment. -/
theorem dueFrameStart_beforeSwap : dueFrameStart beforeSwap ∧
    dueFrameStart (beforeSwap.withScn { beforeSwap.scn with
      currentLine := 561, elapsed := 562, realign := some 0 }) :=
  ⟨⟨⟨rfl, rfl⟩, rfl, .inl rfl⟩, ⟨rfl, rfl⟩, rfl, .inr ⟨rfl, by decide +kernel⟩⟩
theorem witness_SwapExecutesAtItsCount :
    (∃ t, exec .frameStart beforeSwap = .next t) ∧
    (frameStartIfDue (fun _ => 0) beforeSwap).tim.count = 106#32 ∧
    (∃ e rest, beforeSwap.agr.schedule = e :: rest ∧ e.time = 106#32 ∧
      beforeSwap.buf.findReady e.tag = some 0 ∧ (∀ x ∈ rest, x.tag ≠ e.tag) ∧
      (∀ k : BufferId, k ≠ 0 → beforeSwap.buf.records[k].state = .ready →
        beforeSwap.buf.records[k].tag ≠ some e.tag) ∧
      (∀ k ∈ beforeSwap.buf.ready, beforeSwap.buf.records[k].state = .ready)) ∧
    (beforeSwap.withAgr .initial).agr.schedule = [] ∧
    ∃ e, (beforeSwap.withAgr { beforeSwap.agr with schedule := [e] }).agr.schedule = [e] ∧
      e.time ≠ 106#32 :=
  ⟨⟨_, rfl⟩, by decide +kernel,
    ⟨_, _, rfl, rfl, rfl, by decide, by decide +kernel, by decide +kernel⟩, rfl,
    { tag := 41#16, time := 107#32 }, rfl, by decide⟩
/-- A station at the last line of its frame, in each state that a frame start may end: the lone start, the
count reaching own joined-at, the second frame after own absent-from, and a heartbeat point. -/
theorem witness_SelfStateAtAFrameStart :
    let f := fun r => frameStartIfDue (fun _ => 0) (beforeSwap.withRos r)
    let r := beforeSwap.ros
    (∃ t, exec .frameStart beforeSwap = .next t) ∧
    ((8#32 = BitVec.ofNat 32 beforeSwap.cfg.lf) ∧
      (f { r with self := .listen, frameStarts := 8#32 }).ros.self = .joining ∧
      (f { r with self := .listen, frameStarts := 7#32 }).ros.self = .listen) ∧
    (notBefore 106#32 106#32 = true ∧ notBefore 106#32 107#32 = false ∧
      (f { r with self := .joining, ownJoined := some 106#32 }).ros.self = .member ∧
      (f { r with self := .joining, ownJoined := some 107#32 }).ros.self = .joining) ∧
    (notBefore 106#32 (104#32 + BitVec.ofNat 32 2) = true ∧
      (f { r with self := .leaving, ownAbsent := some 104#32 }).ros.self = .detached ∧
      (f { r with self := .leaving, ownAbsent := some 105#32 }).ros.self = .leaving ∧
      poolLaw beforeSwap.buf = true ∧ orderLaw beforeSwap.buf = true ∧ scheduleLaw beforeSwap = true) ∧
    (beforeSwap.ros.self.active = true ∧
      ({ beforeSwap.tx with heartbeat := 3 } : BusTransmitter).heartbeat + 1 = beforeSwap.cfg.hb) ∧
    (lastWrite.cap.state = .filling ∧ lastWrite.cap.aborting = none ∧ lastWrite.scn.writing = true ∧
      eightLines.scn.writing = false ∧ eightLines.buf.find .filling = some 1) :=
  ⟨⟨_, rfl⟩, by decide +kernel, by decide +kernel, by decide +kernel, by decide +kernel,
    by decide +kernel⟩
theorem witness_TrimFollowsTheTable :
    validConfig (config 0) = true ∧ ((config 0).snap : Int) < 33 ∧ (-33 : Int) < -((config 0).snap : Int) ∧
      ((config 0).db : Int) < 2 ∧ (32 : Int) ≤ ((config 0).snap : Int) ∧
      (-2 : Int) < -((config 0).db : Int) ∧ -((config 0).snap : Int) ≤ -32 ∧
      -((config 0).db : Int) ≤ -1 ∧ (1 : Int) ≤ ((config 0).db : Int) := by decide +kernel
theorem witness_AdoptionAndJumpTakeTheGroupPosition :
    let s := member 2 300#32
    let u := s.withTim { s.tim with countState := .unset, count := 0#32 }
    s.tim.realignPending = false ∧ s.tim.realignNumber = 0#8 ∧ 2 ≤ (302#32 - 300#32).toInt ∧
      s.tim.countState = .set ∧ u.tim.countState = .unset ∧ u.tim.realignPending = false ∧
      0 < s.cfg.fl := by decide +kernel
theorem witness_StampWithinOneStoresTheOffset :
    let s := member 2 300#32
    s.tim.countState = .set ∧ s.tim.realignPending = false ∧ s.tim.realignNumber = 0#8 ∧
      (298#32 - 300#32).toInt ≤ -2 ∧ (299#32 - 300#32).toInt = -1 ∧ (301#32 - 300#32).toInt = 1 ∧
      (1#32 - 0#32).toInt < 2 ∧ s.tim.realignNumber ≠ 1#8 := by decide +kernel

/-- A tag newer than every tag held, one not newer than the newest, and one where R50 and R70 differ. -/
theorem witness_stalenessAllows : stalenessAllows [40#16, 41#16, 42#16] 43#16 true ∧
    stalenessAllows [40#16, 41#16, 42#16] 42#16 false ∧
    stalenessAllows [0#16, 30000#16] 40000#16 true ∧ stalenessAllows [0#16, 30000#16] 40000#16 false := by
  refine ⟨⟨?_, ?_⟩, ⟨?_, ?_⟩, ⟨?_, ?_⟩, ?_, ?_⟩ <;> simp [isNewer]
theorem witness_BeginMarkerInIdle :
    (let s := member 0 100#32
     settled s ∧ s.ros.self.active = true ∧ s.cap.state ≠ .filling ∧ s.cap.held = none ∧
       s.cap.fifo = [] ∧ s.buf.find .filling = none ∧ s.buf.shownTag = none ∧ s.buf.readyList = [] ∧
       s.buf.ready.length < 3 ∧ s.buf.find .free = some 0) ∧
    (fullPool.cap.state ≠ .filling ∧ fullPool.buf.find .filling = none ∧
      fullPool.buf.readyList.all (isNewer 42#16 ·.tag) = false ∧ fullPool.buf.shownTag = none ∧
      fullPool.buf.readyList.all (isNewer 43#16 ·.tag) = true ∧ 3 ≤ fullPool.buf.ready.length ∧
      fullPool.cfg.policy = .latest ∧
      fullPool.buf.ready.find? (fun i => !fullPool.buf.records[i].pinned) = some 1) ∧
    ((fullPool.withLpt { fullPool.lpt with
      held := some { config 0 with policy := .fifo } }).cfg.policy = .fifo) ∧
    (let b := (fullPool.buf.unpinAll []).records.map fun r => { r with pinned := r.state == .ready }
     let u := fullPool.withBuf { fullPool.buf with records := b }
     u.buf.ready.all (fun i => u.buf.records[i].pinned) = true) := by decide +kernel
theorem witness_InputLineOutcomes :
    (member 0 1#32).cap.state ≠ .filling ∧
    (let s := eightLines.withCap { eightLines.cap with received := 7 }
     settled s ∧ s.ros.self.active = true ∧ s.cap.state = .filling ∧ s.cap.held = none ∧
       s.cap.closing = false ∧ s.cap.aborting = none ∧ s.cap.received < s.cfg.al ∧
       s.cap.fifo = [] ∧ s.scn.writing = false ∧ s.scn.writeWaiting = none ∧
       s.cap.buffer = some 1 ∧ s.scn.port = .idle) ∧
    (eightLines.cfg.al ≤ eightLines.cap.received ∧ eightLines.scn.writing = false) ∧
    lastWrite.scn.writing = true ∧
    (let l : FifoLine := { owner := .current, slot := 0, data := [] }
     let s := lastWrite.withCap
      { lastWrite.cap with closing := false, received := 4, fifo := List.replicate 4 l }
     s.cap.received < s.cfg.al ∧ s.cap.fifo.length = 4 ∧ s.scn.writing = true) := by decide +kernel
theorem witness_EndMarkerOutcomes :
    (member 0 1#32).cap.state = .idle ∧
    (after (.inputLine [1#8]) eightLines).cap.state = .discard ∧
    (let s := eightLines
     settled s ∧ s.ros.self.active = true ∧ s.cap.state = .filling ∧ s.cap.held = none ∧
       s.cap.closing = false ∧ s.cap.aborting = none ∧ s.cap.received = s.cfg.al ∧
       s.cap.discardAfterRelease = false ∧ s.buf.find .filling = some 1 ∧
       s.cap.fifo.any (fun l => l.owner = .current) = false ∧ s.scn.writing = false) ∧
    (let s := lastWrite.withCap { lastWrite.cap with closing := false }
     s.cap.received = s.cfg.al ∧ s.cap.fifo.any (fun l => l.owner = .current) = true ∧
       (s.withCap { s.cap with received := 7 }).cap.received ≠ s.cfg.al ∧ s.scn.writing = true) := by
  decide +kernel
theorem witness_CaptureTimeoutOutcomes :
    let s := eightLines.withCap { eightLines.cap with timeout := 40 }
    let h : HeldBegin := { tag := 42#16, received := 0, timeout := 40 }
    let u := lastWrite.withCap { lastWrite.cap with held := some h }
    (settled s ∧ s.cap.state = .filling ∧ s.cap.closing = false ∧ s.cap.aborting = none ∧
      s.cfg.it * s.cfg.fl ≤ s.cap.timeout ∧ s.cap.held = none ∧ s.cap.discardAfterRelease = false ∧
      s.scn.writing = false) ∧
    (s.withScn lastWrite.scn).scn.writing = true ∧
    (u.cap.closing = true ∧ u.cap.held = some h ∧ u.cfg.it * u.cfg.fl ≤ h.timeout) ∧
    (eightLines.cap.timeout < eightLines.cfg.it * eightLines.cfg.fl ∧ eightLines.cap.held = none) := by
  decide +kernel
/-- A write of the last but one line with the last one behind it, and a write to a slot that is not
there. -/
theorem witness_CaptureWriteLands :
    let s := lastWrite.withCap { lastWrite.cap with
      fifo := [{ owner := .current, slot := 7, data := [9#8] },
               { owner := .current, slot := 7, data := [8#8] }] }
    (member 0 1#32).scn.port = .idle ∧
    (∃ w, s.scn.port = .write w ∧ w.addr.slot < s.cfg.al ∧ w.abandoned = false ∧
      s.cap.state = .filling ∧ s.cap.aborting = none ∧ s.cap.buffer = some 1 ∧
      s.buf.find .filling = some 1 ∧ s.scn.writeWaiting = none ∧ settled s) ∧
    (∃ w, (after .restart (selected lastWrite)).scn.port = .write w ∧ w.abandoned = true ∧
      (after .restart (selected lastWrite)).cap.state ≠ .filling) ∧
    (∃ l, (lastWrite.withCap { lastWrite.cap with closing := false }).cap.fifo = [l] ∧
      lastWrite.scn.readWaiting = none ∧
      (lastWrite.withScn { lastWrite.scn with
        readWaiting := some { buffer := 0, slot := 3 } }).scn.readWaiting ≠ none) ∧
    ∃ w : LineWrite, w.addr.slot = 8 ∧ lastWrite.cfg.al ≤ w.addr.slot :=
  ⟨rfl, ⟨_, rfl, by decide +kernel, rfl, rfl, rfl, rfl, rfl, rfl, rfl, rfl⟩, ⟨_, rfl, rfl, by decide +kernel⟩,
    ⟨_, rfl, rfl, by decide +kernel⟩, { addr := { buffer := 1, slot := 8 }, data := [], abandoned := false }, rfl, by decide +kernel⟩
theorem witness_LastWriteCompletesTheFrame :
    ∃ w l, settled lastWrite ∧ lastWrite.scn.port = .write w ∧
      w.addr.slot < lastWrite.cfg.al ∧ w.abandoned = false ∧ lastWrite.cap.state = .filling ∧
      lastWrite.cap.closing = true ∧ lastWrite.cap.aborting = none ∧ lastWrite.cap.fifo = [l] ∧
      lastWrite.cap.held = none ∧ lastWrite.buf.find .filling = some 1 ∧
      (after .captureWriteComplete (lastWrite.withCap { lastWrite.cap with
        discardAfterRelease := true })).cap.state = .discard ∧
      (after .captureWriteComplete lastWrite).cap.state = .idle :=
  ⟨_, _, ⟨rfl, rfl⟩, rfl, by decide +kernel, rfl, rfl, rfl, rfl, rfl, rfl, rfl, by decide +kernel,
    by decide +kernel⟩
/-- A frame in FILLING receiving, one that closes with its last write in progress, and one whose abort
waits, with a begin held and 4 lines in the FIFO. -/
theorem witness_HeldBeginCourse :
    let h : HeldBegin := { tag := 42#16, received := 3, timeout := 0 }
    let l : FifoLine := { owner := .held, slot := 0, data := [] }
    let held := lastWrite.withCap
      { lastWrite.cap with held := some h, fifo := lastWrite.cap.fifo ++ List.replicate 3 l }
    let waits := lastWrite.withCap { lastWrite.cap with closing := false, aborting := some .discard }
    State.reset.ros.self.active = false ∧
    (settled lastWrite ∧ lastWrite.ros.self.active = true ∧ lastWrite.cap.state = .filling ∧
      lastWrite.cap.closing = true ∧ lastWrite.cap.held = none ∧ lastWrite.cap.fifo.length < 4) ∧
    (held.cap.held = some h ∧ 4 ≤ held.cap.fifo.length) ∧
    (waits.cap.aborting ≠ none ∧ waits.cap.closing = false) ∧
    (eightLines.cap.closing = false ∧ eightLines.cap.aborting = none ∧ eightLines.cap.held = none ∧
      eightLines.cap.discardAfterRelease = false ∧ eightLines.scn.writing = false ∧
      (eightLines.withScn lastWrite.scn).scn.writing = true) := by decide +kernel
/-- The last write of a frame with an abort waiting for it, with and without a held begin, and of one that
completes with a begin held that is newer than it or not. -/
theorem witness_ReleaseTakesUpTheHeldBegin :
    let h : HeldBegin := { tag := 42#16, received := 1, timeout := 3 }
    let waits := lastWrite.withCap { lastWrite.cap with closing := false, aborting := some .idle, fifo := [] }
    let freed := waits.buf.abort
    (∃ w, lastWrite.scn.port = .write w ∧ w.addr.slot < lastWrite.cfg.al ∧ w.abandoned = false ∧
      settled lastWrite ∧ lastWrite.cap.state = .filling ∧ lastWrite.scn.writeWaiting = none) ∧
    (waits.cap.aborting = some .idle ∧ waits.cap.held = none ∧
      (waits.withCap { waits.cap with held := some h }).cap.held = some h ∧ waits.buf.ready.length < 3 ∧
      waits.cap.discardAfterRelease = false ∧ freed.shownTag = none ∧ freed.readyList = [] ∧
      freed.find .free = some 0 ∧ freed.find .filling = none) ∧
    (lastWrite.cap.aborting = none ∧ lastWrite.cap.closing = true ∧
      lastWrite.cap.fifo.tail = [] ∧ lastWrite.cap.fifo ≠ [] ∧ lastWrite.buf.find .filling = some 1 ∧
      lastWrite.buf.records[1].tag = some 41#16 ∧
      (∀ k : BufferId, k ≠ 1 → lastWrite.buf.records[k].state ≠ .filling) ∧
      isNewer 42#16 41#16 = true ∧ isNewer 41#16 41#16 = false ∧ lastWrite.buf.ready.length < 2 ∧
      lastWrite.buf.find .free = some 0) ∧
    (let full := lastWrite.buf.records.set 2 (ready 40#16 101#32 true) |>.set 3 (ready 39#16 100#32 false)
     let s := lastWrite.withBuf { lastWrite.buf with records := full, ready := [2, 3] }
     2 ≤ s.buf.ready.length ∧ s.buf.find .filling = some 1 ∧ s.buf.records[1].tag = some 41#16 ∧
       (s.buf.ready.find? fun j => !s.buf.records[j].pinned) = some 3 ∧ s.cfg.policy = .latest ∧
       ({ s.cfg with policy := .fifo } : StationConfig).policy = .fifo) :=
  ⟨⟨_, rfl, by decide +kernel, rfl, ⟨rfl, rfl⟩, rfl, rfl⟩, by decide +kernel, by decide +kernel,
    by decide +kernel⟩
theorem witness_ScanOutReadDelivers :
    let a : SlotAddress := { buffer := 1, slot := 7 }
    let line : PanelLine := { number := 7, frameStartMark := false, content := .awaiting }
    let s := eightLines.withScn { eightLines.scn with port := .read a, panel := some line }
    settled s ∧ s.scn.port = .read a ∧ a.slot < s.cfg.al ∧ s.scn.panel = some line ∧
      s.scn.readWaiting = none ∧ s.scn.writeWaiting = none ∧ eightLines.scn.port = .idle ∧
      eightLines.scn.panel = none ∧ s.cfg.al ≤ ({ a with slot := 8 } : SlotAddress).slot := by
  decide +kernel

theorem witness_DiscardedBursts_line_busy :
    settled (member 0 1#32) ∧ (member 0 1#32).line = .idle ∧ receiving.line = .busy := by
  decide +kernel

/-- A burst of four bytes with a correct header check. -/
def headerOf (b0 b1 : Byte) : Burst :=
  { bytes := [b0, b1, 0#8, headerCheck [b0, b1, 0#8]], trailingBits := false, invalidSymbol := false }

theorem receiving_takesBurst : takesBurst receiving := by
  refine ⟨⟨rfl, rfl⟩, rfl, rfl, ?_, ?_⟩ <;> decide +kernel

/-- One burst for each row that discards: an invalid symbol, a bad header check, kind 5, group 1, the own
number, and station 9; and a machine in WAIT_IDLE. -/
theorem witness_DiscardedBurstsLeaveOnlyTheirCount :
    receiving.rx.bytes = [] ∧ receiving.rx.overlong = false ∧ receiving.rx.invalidSymbol = false ∧
    ({ headerOf 1#8 1#8 with invalidSymbol := true } : Burst).invalidSymbol = true ∧
    headerPasses [1#8, 1#8, 0#8, headerCheck [1#8, 1#8, 0#8] + 1#8] = false ∧
    (headerPasses (headerOf 5#8 1#8).bytes = true ∧ headerKind (headerOf 5#8 1#8).bytes = 5) ∧
    (headerPasses (headerOf 0x11#8 1#8).bytes = true ∧ headerGroup (headerOf 0x11#8 1#8).bytes = 1) ∧
    (headerPasses (headerOf 1#8 2#8).bytes = true ∧
      headerStation (headerOf 1#8 2#8).bytes = receiving.cfg.station) ∧
    hasStation receiving.cfg.members (headerStation (headerOf 1#8 9#8).bytes) = false ∧
    (let s := receiving.withRx { receiving.rx with state := .waitIdle }
     settled s ∧ s.line = .busy ∧ s.rx.state = .waitIdle ∧ s.tx.state = .txIdle) := by
  decide +kernel

/-- A STATE, a JOIN, a REPEAT and a damaged STATE of station 1 at station 2. -/
theorem burst_senderKnown (b : Burst) (h : b = burstOf 1 100#32 .state .standing 201#8 ∨
    b = burstOf 1 100#32 .join .standing 201#8 ∨ b = headerOf 0x43#8 0x11#8 ∨
    b = headerOf 3#8 0x61#8 ∨ b = burstOf 1 105#32 .state .standing 201#8 ∨
    b = burstOf 1 105#32 .repeatRequest (.repeatTo 2 .bodyBad) 201#8) : senderKnown receiving b := by
  rcases h with rfl | rfl | rfl | rfl | rfl | rfl <;>
    refine ⟨receiving_takesBurst, ?_⟩ <;> decide +kernel

/-- A LEAVE whose length does not fit, and one whose body is missing; with no request queued, with one
for station 1, and with seven for others. -/
theorem witness_DamagedAndDuplicateBursts :
    senderKnown receiving (headerOf 0x43#8 0x11#8) ∧ senderKnown receiving (headerOf 3#8 0x61#8) ∧
    lengthPasses (headerOf 0x43#8 0x11#8).bytes = false ∧
    (lengthPasses (headerOf 3#8 0x61#8).bytes = true ∧ ¬ wholeBody (headerOf 3#8 0x61#8)) ∧
    receiving.ros.self.active = true ∧
    receiving.tx.queue.any (·.isRepeatFor 1) = false ∧
    (receiving.tx.queue.filter (!·.isStanding)).length < 7 ∧
    (let full := { receiving.tx with queue := List.replicate 7 (.fresh (.repeatTo 3 .lenBad)) }
     7 ≤ (full.queue.filter (!·.isStanding)).length) ∧
    [QueueEntry.fresh (.repeatTo 1 .lenBad)].any (·.isRepeatFor 1) = true := by
  refine ⟨burst_senderKnown _ (by simp), burst_senderKnown _ (by simp), ?_, ⟨?_, ?_⟩, ?_, ?_, ?_, ?_, ?_⟩
  case refine_3 => intro h; exact absurd h.1 (by decide +kernel)
  all_goals decide +kernel
theorem wholeBody_of_a_state : wholeBody (burstOf 1 100#32 .state .standing 200#8) ∧
    wholeBody (burstOf 1 100#32 .state .standing 201#8) ∧
    wholeBody (burstOf 1 100#32 .join .standing 201#8) := by
  refine ⟨⟨?_, ?_, ?_⟩, ⟨?_, ?_, ?_⟩, ?_, ?_, ?_⟩ <;> decide +kernel
theorem wholeBody_of_a_jump : wholeBody (burstOf 1 105#32 .state .standing 201#8) ∧
    wholeBody (burstOf 1 105#32 .repeatRequest (.repeatTo 2 .bodyBad) 201#8) := by
  refine ⟨⟨?_, ?_, ?_⟩, ?_, ?_, ?_⟩ <;> decide +kernel
/-- The window at its ends: 1, 2, 127, 128 and 0 past the last sequence; and a duplicate burst. -/
theorem witness_DamagedAndDuplicateBursts_sequences :
    (voter 1#32).lastSeq = none ∧ (receiving.ros.entry 1).lastSeq = some 200#8 ∧
    (receiving.ros.entry 1).state ≠ .expected ∧ (receiving.ros.entry 1).state ≠ .absent ∧
    (201#8 - 200#8).toNat = 1 ∧ (202#8 - 200#8).toNat = 2 ∧ (71#8 - 200#8).toNat = 127 ∧
    (72#8 - 200#8).toNat = 128 ∧ (200#8 - 200#8).toNat = 0 ∧
    (burstOf 1 100#32 .state .standing 200#8).bytes.length ≤ 69 ∧
    lengthPasses (burstOf 1 100#32 .state .standing 200#8).bytes = true ∧
    judgeSequence (receiving.ros.entry 1)
      ((burstOf 1 100#32 .state .standing 200#8).bytes.getD 2 0#8) = .duplicate := by decide +kernel
/-- What an accepted message has on its way behind a waiting entry, by the choice of the free value, or where
RESTART may come; with an empty queue, no frame start next and no command byte awaited its hand-offs are taken
at once, and a request may be on its way. -/
theorem witness_AcceptedBurstIsRecorded_arrivals :
    let b := burstOf 1 100#32 .repeatRequest (.repeatTo 2 .bodyBad) 201#8
    let s := receiving.withTx waiting.tx
    let m := readMessage b.bytes
    let ahead := burstOf 1 105#32 .state .standing 201#8
    m.body = .repeatRequest 2#8 1#8 ∧ transmitClaims s.cfg m = [.withdraw 1, .answer] ∧
      (burstEnds (fun _ => 0) s b).arriving = .nothing ∧
      (burstEnds (fun _ => 4) s b).arriving.claims = [.withdraw 1, .answer] ∧
      (burstEnds (fun _ => 7) s b).arriving.roster = some m ∧
      (burstEnds (fun _ => 7) s b).arriving.timing.map (·.1) = some m ∧
      (burstEnds (fun _ => 7) receiving b).arriving = .nothing ∧ receiving.tx.queue = [] ∧
      receiving.scn.currentLine + 1 ≠ receiving.scn.endLine ∧ receiving.scn.elapsed < receiving.cfg.fl / 2 ∧
      receiving.lpt.phase ≠ .command ∧ (burstEnds (fun _ => 1) (selected receiving) b).arriving.roster = some m ∧
      (burstEnds (fun _ => 0) receiving ahead).scn.realign =
        (burstEnds (fun _ => 1) receiving ahead).arriving.request ∧
      (burstEnds (fun _ => 1) receiving ahead).arriving.request ≠ none := by decide +kernel
/-- A STATE, a JOIN that agrees with the configuration and one that clashes; in MEMBER and in LISTEN. -/
theorem witness_AcceptedBurstIsRecorded :
    senderKnown receiving (burstOf 1 100#32 .join .standing 201#8) ∧
    wholeBody (burstOf 1 100#32 .join .standing 201#8) ∧
    (let b := burstOf 1 100#32 .join .standing 201#8
     b.bytes.length ≤ 69 ∧ lengthPasses b.bytes = true ∧
       judgeSequence (receiving.ros.entry (headerStation b.bytes)) (b.bytes.getD 2 0#8) ≠ .duplicate ∧
       (readMessage b.bytes).isOccasion = true ∧
       (timedBy (burstRecorded receiving (readMessage b.bytes) false) (readMessage b.bytes)
         receiving.rx.timing).tim = receiving.tim ∧
       (∃ j, (readMessage b.bytes).body = .join j ∧ joinClashes receiving.cfg j = false ∧
         joinClashes { receiving.cfg with lead := 3 } j = true)) ∧
    (let r := receiving.withRos { receiving.ros with self := .listen }
     r.ros.self = .listen ∧ r.rx.state = .receiving) :=
  ⟨burst_senderKnown _ (by simp), wholeBody_of_a_state.2.2,
    ⟨by decide +kernel, by decide +kernel, by decide +kernel, by decide +kernel, by decide +kernel, _, rfl,
      by decide +kernel,
      by decide +kernel⟩, by decide +kernel⟩

theorem witness_VoterSetMembership :
    isVoter exampleA 104#32 1 = true ∧ isVoter exampleA 104#32 3 = false ∧
      isVoter exampleA 19#32 1 = false ∧
      voterSet exampleA 104#32 = voterSet (exampleA.withPending [.lineStart]) 104#32 := by decide +kernel

/-- The JOIN of a configuration. -/
def joinOf (c : StationConfig) : JoinFields :=
  { fl := c.fl, al := c.al, lead := c.lead, hb := c.hb, af := c.af, members := c.members
    policy := Policy.code c.policy }

theorem witness_JoinAdmitsOrClashes :
    exampleA.ros.self ≠ .listen ∧ (joinOf (config 0)).fl = exampleA.cfg.fl ∧
      joinClashes exampleA.cfg (joinOf (config 3)) = false ∧
      joinClashes exampleA.cfg { joinOf (config 3) with al := 1000 } = true ∧
      (RosterEntry.initial .expected).state = .expected ∧ (exampleA.ros.entry 3).state = .joining ∧
      ({ voter 1#32 with state := .quiet } : RosterEntry).state = .quiet := by decide +kernel
theorem witness_StateAndLeaveAtTheRoster :
    let gone : RosterEntry := { voter 48#32 with state := .absent, absentFrom := some 64#32 }
    let pairs : List ReadyPair := [{ tag := 5#16, stamp := 1#32 }, { tag := 65535#16, stamp := 2#32 },
      { tag := 5#16, stamp := 3#32 }]
    let kept : List ReadyPair := [{ tag := 65535#16, stamp := 2#32 }, { tag := 5#16, stamp := 1#32 }]
    (holdingsOf pairs = kept ∧ kept.Perm (holdingsOf pairs) ∧
      kept.Pairwise (fun a b => isNewer b.tag a.tag = true)) ∧
    (exampleA.withRos { exampleA.ros with self := .listen }).ros.self = .listen ∧
    evictingState.body = .state
      { memberSince := 20#32, shownTag := none, shownSince := none, view := 0x000E#16, ready := [] } ∧
    exampleA.ros.self ≠ .listen ∧ hasStation 0x000F#16 exampleA.cfg.station = true ∧
      (exampleA.ros.entry 1).state ∈ [EntryState.joining, .voter, .quiet] ∧
      (exampleA.ros.entry 1).absentFrom = none ∧ gone.state ∈ [EntryState.expected, .absent] ∧
      isBefore 64#32 42#32 = false ∧ isBefore 64#32 75#32 = true ∧ gone.clash = false ∧
      notAfter 75#32 75#32 = true ∧ isAfter 76#32 75#32 = true ∧ gone.absentFrom ≠ none ∧
      (let m := readMessage (burstOf 1 105#32 .repeatRequest (.repeatTo 2 .bodyBad) 201#8).bytes
       let s := withEntry exampleA 1 { voter 48#32 with state := .quiet }
       m.body = .repeatRequest 2#8 1#8 ∧ s.ros.self ≠ .listen ∧
         ((rosterMessage s m).ros.entry 1).state = .voter) := by
  decide +kernel
theorem witness_ViewSplitEvictsAMember :
    (isVoter exampleA 104#32 1 && isVoter exampleA 104#32 exampleA.cfg.station &&
      !hasStation 0x000E#16 exampleA.cfg.station) = true ∧ exampleA.ros.self = .member ∧
      exampleA.tx.queue.any QueueEntry.isStanding = false ∧
      (let u := after .gapReached waiting
       u.tx.state = .sending ∧ u.tx.queue.head?.any (·.isStanding) = true ∧
         u.tx.queue.tail.any QueueEntry.isStanding = false) ∧
      (waiting.tx.state ≠ .sending ∧ waiting.tx.queue.any QueueEntry.isStanding = true) ∧
      (let u := after .gapReached (waiting.withTx { waiting.tx with
         queue := [.fresh (.repeatTo 3 .bodyBad), .fresh .standing] })
       u.tx.state = .sending ∧ u.tx.queue.head?.any (·.isStanding) = false ∧
         u.tx.queue.any QueueEntry.isStanding = true) ∧
      (isVoter exampleA 104#32 3 && isVoter exampleA 104#32 exampleA.cfg.station &&
        !hasStation 0x000E#16 exampleA.cfg.station) = false ∧
      (after .leave (selected exampleA)).ros.self = .leaving := by decide +kernel
/-- The entry of chapter 1 at 54 and 64, and a joining, a left and a vacant one. -/
theorem witness_AbsenceAtAFrameStart :
    (∃ t, exec .frameStart beforeSwap = .next t) ∧
    (frameStartIfDue (fun _ => 0) (withEntry beforeSwap 1 (voter 90#32))).flt.faultCounters[9] = 1 ∧
    let e := voter 48#32
    let left : RosterEntry := { e with absentFrom := some 112#32, cause := .left }
    (RosterEntry.initial .vacant).state = .vacant ∧ e.absentFrom = none ∧ e.lastStamp = some 48#32 ∧
      notBefore 64#32 (48#32 + 16#32) = true ∧ notBefore 63#32 (48#32 + 16#32) = false ∧
      (94#32 - 88#32).toNat = 6 ∧ (93#32 - 88#32).toNat = 5 ∧ left.absentFrom = some 112#32 ∧
      notBefore 112#32 112#32 = true ∧ notBefore 111#32 112#32 = false ∧
      notAfter 105#32 105#32 = true ∧ notAfter 105#32 104#32 = false ∧
      ({ e with state := .joining } : RosterEntry).state = .joining :=
  ⟨⟨_, rfl⟩, by decide +kernel, by decide +kernel⟩
theorem witness_CompletionStampIsTheEarliest :
    completionStamp exampleA 40#16 = some 104#32 ∧ completionStamp exampleA 41#16 = none ∧
      candidates exampleA 40#16 ≠ [] ∧ listedStamp exampleA 40#16 1 = some 103#32 ∧
      listedStamp exampleA 40#16 0 = some 101#32 ∧ listedStamp exampleA 40#16 3 = none ∧
      (let e := { voterHolding 103#32 40#16 103#32 with shownTag := some 41#16, shownSince := some 104#32 }
       let s := withEntry exampleA 1 e
       listedStamp s 40#16 1 = some 103#32 ∧ (s.ros.entry 1).shownSince = some 104#32 ∧
         isNewer 41#16 40#16 = true ∧ holdingStamp s 40#16 1 = some 103#32 ∧
         listedStamp s 41#16 1 = none ∧ notAfter 103#32 104#32 = true) ∧
      notAfter 104#32 exampleA.tim.count = true := by decide +kernel
/-- Example D: 40 before 41 and 42 behind it; a late one; a pin refused and granted. -/
theorem witness_PlacementFollowsThePolicy :
    (let schedule := scheduleOf [(41, 120), (43, 125)]
     schedule = (schedule.filter fun e => isOlder e.tag 42#16) ++
       schedule.filter fun e => isNewer e.tag 42#16) ∧
      (tagsAscend exampleA.buf.readyList = true ∧ exampleA.ros.self ∉ [SelfState.config, .detached] ∧
        (placedAt exampleA 40#16 (some 104#32)).agr.schedule = scheduleOf [(40, 106)]) ∧
      (∃ e ∈ (scheduleOf [(41, 120)]).filter (fun e => isNewer e.tag 40#16),
        notAfter e.time 121#32 = true) ∧
      (∀ e ∈ (scheduleOf [(43, 125)]).filter (fun e => isNewer e.tag 42#16),
        notAfter e.time 121#32 = false) ∧
      fullPool.buf.findReady 41#16 = some 1 ∧ 41#16 ∉ [40#16] ∧ fullPool.buf.findReady 40#16 = some 0 ∧
      fullPool.buf.findReady 50#16 = none ∧
      State.reset.ros.self ∈ [SelfState.config, .detached] := by decide +kernel
theorem witness_RetimingLeavesNothingDue :
    (scheduleOf [(40, 132), (41, 133), (42, 145)]).length ≤ 3 ∧
      (∀ e ∈ scheduleOf [(40, 132), (41, 133), (42, 145)],
        (e.time - 140#32).toNat < 1073741824 ∨ notAfter e.time 140#32 = true) ∧
      ((∃ e ∈ scheduleOf [(42, 141)], isNewer e.tag 41#16 = true ∧ e.time = 140#32 + 1) ∧
        ∀ e ∈ scheduleOf [(42, 145)], isNewer e.tag 41#16 = true → e.time ≠ 140#32 + 1) ∧
      (∃ e ∈ scheduleOf [(40, 132), (41, 133), (42, 145)], notAfter e.time 140#32 = true) ∧
      ((scheduleOf [(40, 132), (41, 133), (42, 145)]).filter fun e => !notAfter e.time 140#32) =
        scheduleOf [(42, 145)] ∧
      (∀ e ∈ scheduleOf [(42, 145)], notAfter e.time 140#32 = false) := by decide
/-- The member that receives, told of a jump with its scheduled tag due and not due; and a STATE and a REPEAT
that bring a forward jump, and an adoption. -/
theorem witness_RetimingLeavesNothingDue_jump :
    (retimed .latest 105#32 scheduled.agr.schedule ≠ none ∧ scheduled.cfg.policy = .latest ∧
      retimed .latest 104#32 scheduled.agr.schedule = none) ∧
    (let b := burstOf 1 105#32 .state .standing 201#8
     let c := burstOf 1 105#32 .repeatRequest (.repeatTo 2 .bodyBad) 201#8
     (senderKnown receiving b ∧ wholeBody b) ∧ (senderKnown receiving c ∧ wholeBody c) ∧
     b.bytes.length ≤ 69 ∧ lengthPasses b.bytes = true ∧ c.bytes.length ≤ 69 ∧
     lengthPasses c.bytes = true ∧ (readMessage b.bytes).isOccasion = true ∧
     (readMessage c.bytes).isOccasion = false ∧ receiving.tim.countState = .set ∧
     judgeSequence (receiving.ros.entry (headerStation b.bytes)) (b.bytes.getD 2 0#8) ≠ .duplicate ∧
     judgeSequence (receiving.ros.entry (headerStation c.bytes)) (c.bytes.getD 2 0#8) ≠ .duplicate ∧
     (timedBy receiving (readMessage b.bytes) receiving.rx.timing).tim ≠ receiving.tim ∧
     (timedBy receiving (readMessage c.bytes) receiving.rx.timing).tim ≠ receiving.tim ∧
     (timedBy (listening.withTim { listening.tim with countState := .unset }) (readMessage b.bytes)
       listening.rx.timing).tim ≠ listening.tim) :=
  ⟨by decide +kernel, ⟨burst_senderKnown _ (by simp), wholeBody_of_a_jump.1⟩,
    ⟨burst_senderKnown _ (by simp), wholeBody_of_a_jump.2⟩, by decide +kernel⟩
theorem witness_StallAndSwapSplitChecks :
    (let s := exampleA
     s.ros.self.active = true ∧ s.scn.swapThisFrame = false ∧ s.buf.readyList ≠ [] ∧
       s.agr.stallCount + 1 < s.cfg.stallf ∧
       (let t := s.withAgr { s.agr with stallCount := 29 }
        t.cfg.stallf ≤ t.agr.stallCount + 1 ∧ t.agr.stallRaised = false)) ∧
    (member 0 1#32).buf.readyList = [] ∧ State.reset.ros.self.active = false ∧
    exampleA.buf.shownTag = none ∧
    (let t := exampleA.withBuf { exampleA.buf with shownTag := some 39#16, shownSince := some 90#32 }
     t.ros.self.active = true ∧ t.buf.shownTag = some 39#16 ∧ t.buf.shownSince = some 90#32 ∧
       isVoter t 104#32 1 = true ∧ isAfter 104#32 90#32 = true ∧ isOlder 38#16 39#16 = true) := by
  decide +kernel
/-- A frame start with a swap and one without, with no absence decided; a LISTEN at its limit and before it; a
station in DETACHED; and a READY tag that the frame start's evaluation schedules. -/
theorem witness_StallAndSwapSplitChecks_frame_start :
    let f := frameStartIfDue (fun _ => 0)
    let plain := beforeSwap.withAgr .initial
    (dueFrameStart beforeSwap ∧ dueFrameStart plain) ∧
    (beforeSwap.ros.self.active = true ∧ (f beforeSwap).ros.self = .member ∧
      (f beforeSwap).scn.swapThisFrame = true ∧ (f plain).scn.swapThisFrame = false ∧
      beforeSwap.agr.schedule = scheduleOf [(40, 106)] ∧ beforeSwap.tim.countState = .set ∧
      plain.buf.readyList ≠ [] ∧ (f plain).agr.stallCount = 1 ∧
      (f plain).agr.schedule = scheduleOf [(40, 107)] ∧ (f plain).flt.faultCounters[11] = 1) ∧
    (∀ n, (beforeSwap.ros.entry n).becomesAbsent beforeSwap.cfg 106#32 91#32 = false) ∧
    (SelfState.listen.active = false ∧ listening.ros.frameStarts = BitVec.ofNat 32 listening.cfg.lf ∧
      beforeSwap.ros.frameStarts ≠ BitVec.ofNat 32 beforeSwap.cfg.lf ∧
      (plain.withRos { plain.ros with self := .detached }).ros.self ∈ [SelfState.config, .detached]) :=
  ⟨⟨dueFrameStart_beforeSwap.1, ⟨rfl, rfl⟩, rfl, .inl rfl⟩, by decide +kernel, by decide +kernel,
    by decide +kernel⟩

theorem witness_GapAndSlotStartTransmission :
    let t := { waiting.tx with state := .backoff, backoffCount := 2, slotRunning := true }
    (waiting.resetHeld = false ∧ waiting.rx.state ≠ .receiving ∧ waiting.tx.state = .waitGap ∧
      waiting.tx.backoffCount = 0 ∧
      waiting.tx.queue = .fresh .standing :: [.fresh (.repeatTo 3 .bodyBad)]) ∧
      goesOutAs waiting.ros.self (.fresh .standing) .state ∧
      goesOutAs waiting.ros.self (.fresh (.repeatTo 3 .bodyBad)) .repeatRequest ∧
      (waiting.withTx { waiting.tx with backoffCount := 1 }).tx.backoffCount ≠ 0 ∧
      (waiting.withTx { waiting.tx with state := .backoff }).tx.slotRunning = false ∧
      (member 0 1#32).tx.state ∈ [TransmitState.txIdle, .jamming] ∧ waiting.tx.state ≠ .sending ∧
      receiving.rx.state = .receiving ∧
      (t.state = .backoff ∧ t.slotRunning = true ∧ 2 ≤ t.backoffCount ∧
        t.queue = .fresh .standing :: [.fresh (.repeatTo 3 .bodyBad)] ∧
        ({ t with backoffCount := 1 } : BusTransmitter).backoffCount = 1) :=
  ⟨by decide +kernel, .inr (.inl ⟨rfl, rfl⟩), rfl, by decide +kernel, rfl, by decide +kernel,
    by decide +kernel, rfl, by decide +kernel⟩
theorem witness_ArrivalsAreTakenFirst :
    let s := (withEntry waiting 1 (voter 98#32)).withArriving
      { Arrivals.nothing with roster := some evictingState }
    (s.resetHeld = false ∧ s.lpt.phase ≠ .command ∧ evictingState.sender ≠ s.cfg.station ∧
      s.ros.self = .member ∧ (s.ros.entry evictingState.sender).state ∈ [EntryState.voter, .quiet] ∧
      isVoter s evictingState.stamp evictingState.sender = true ∧
      isVoter s evictingState.stamp s.cfg.station = true ∧ hasStation 0x000E#16 s.cfg.station = false ∧
      s.rx.state ≠ .receiving ∧ s.tx.state = .waitGap ∧ s.tx.backoffCount = 0 ∧
      s.tx.queue = .fresh .standing :: [.fresh (.repeatTo 3 .bodyBad)] ∧
      [QueueEntry.fresh (.repeatTo 3 .bodyBad)].any QueueEntry.isStanding = false) ∧
    frameStartDue (placeRequest s) = false ∧ (∃ t, exec .lineStart s = .next t) ∧
    (selected s).lpt.phase = .command ∧
    ∀ heard late : Bool,
      let rt : ReceiveTiming := { count := 0#32, line := 1121, lineStarts := 8000#32, realignNumber := 0#8
                                  countState := .unset }
      let u := listening.withArriving { Arrivals.nothing with
        roster := if heard then some evictingState else none
        timing := if late then some (evictingState, rt) else none }
      u.resetHeld = false ∧ u.scn.timer = .running ∧ u.scn.currentLine + 1 = u.scn.endLine ∧
        16 ≤ u.cfg.fl ∧ u.ros.frameStarts = BitVec.ofNat 32 u.cfg.lf ∧ u.ros.ownJoined = none ∧
        u.ros.self = .listen ∧ u.tim.countState = .unset ∧ u.tim.realignPending = false ∧
        u.tim.realignNumber = 0#8 ∧ 2 ≤ evictingState.stamp.toInt ∧ (1#32).toInt < 2 ∧
        (u.withTim { u.tim with countState := .set }).tim.countState = .set ∧
        (u.withRos { u.ros with self := .joining }).ros.self = .joining :=
  ⟨by decide +kernel, by decide +kernel, ⟨_, rfl⟩, rfl, by decide +kernel⟩
/-- A STATE in flight, a JOIN in JOINING with no joined-at, and a LEAVE in LEAVING with no absent-from. -/
theorem witness_TransmissionCompletes :
    (let s := after .gapReached waiting
     settled s ∧ s.tx.state = .sending ∧ s.ros.self.active = true ∧
       (∃ e rest m, s.tx.queue = e :: rest ∧ s.tx.inFlight = some m ∧
         rest.any QueueEntry.isStanding = false ∧ e.isStanding = true ∧ m.kind = .state)) ∧
    (let s := after .gapReached (waiting.withRos { waiting.ros with self := .joining, ownJoined := none })
     s.ros.ownJoined = none ∧ s.ros.self ∈ [SelfState.joining, .evicted, .leaving] ∧
       ∃ m, s.tx.inFlight = some m ∧ m.kind = .join) ∧
    (let s := after .gapReached (waiting.withRos { waiting.ros with self := .leaving })
     s.ros.ownAbsent = none ∧ s.ros.self = .leaving ∧ ∃ m, s.tx.inFlight = some m ∧ m.kind = .leave) ∧
    (let s := after .gapReached (waiting.withTx { waiting.tx with
       queue := [.fresh (.repeatTo 3 .bodyBad), .fresh .standing] })
     s.tx.state = .sending ∧ ∃ e rest m, s.tx.queue = e :: rest ∧ s.tx.inFlight = some m ∧
       e.isStanding = false ∧ rest = [.fresh .standing]) :=
  ⟨⟨⟨rfl, rfl⟩, rfl, rfl, _, _, _, rfl, rfl, rfl, rfl, rfl⟩, ⟨rfl, by decide +kernel, _, rfl, rfl⟩,
    ⟨rfl, rfl, _, rfl, rfl⟩, rfl, _, _, _, rfl, rfl, rfl, rfl⟩
theorem witness_CollisionJamsThenBacksOff :
    (let s := after .gapReached waiting
     settled s ∧ s.tx.state = .sending ∧ s.tx.queue ≠ []) ∧ waiting.tx.state ≠ .sending ∧
    (let t := waiting.withTx { waiting.tx with queue := [.fresh (.repeatTo 3 .bodyBad)] }
     let s := after .gapReached (t.withArriving { Arrivals.nothing with claims := [.withdraw 3] })
     s.resetHeld = false ∧ s.arriving = { Arrivals.nothing with claims := [.withdraw 3] } ∧
       s.tx.state = .sending ∧ s.tx.queue.any (·.isRepeatFor 3) = true ∧
       s.tx.queue.tail.any (·.isRepeatFor 3) = false) ∧
    waiting.tx.state ≠ .jamming ∧
    (let s := after .collision (after .gapReached waiting)
     settled s ∧ s.tx.state = .jamming ∧
       (s.tx.queue.find? fun e => decide (s.tx.jamEntry = some e.cls)).map (·.collisions) = some 1 ∧
       (let t := { s.tx with queue := [{ QueueEntry.fresh .standing with collisions := 12 }] }
        (t.queue.find? fun e => decide (t.jamEntry = some e.cls)).map (·.collisions) = some 12) ∧
       (let t := { s.tx with queue := [], jamEntry := none }
        t.queue.find? (fun e => decide (t.jamEntry = some e.cls)) = none)) := by decide +kernel
theorem witness_GeneratorAdvancesOnlyAtADraw :
    let s := after .collision (after .gapReached waiting)
    (1#16 ≠ 0#16) ∧ (∃ t, exec .jamEnd s = .next t) ∧ (after .jamEnd s).tx.generator ≠ s.tx.generator :=
  ⟨by decide, ⟨_, rfl⟩, by decide +kernel⟩
theorem witness_GeneratorHasFullPeriod : (499#16 ≠ 0#16) ∧ 0 < 65534 ∧ 65534 < 65535 := by decide
theorem witness_StandingTriggerEffects :
    SelfState.listen.active = false ∧ SelfState.member.active = true ∧ SelfState.leaving.active = true ∧
      (member 0 1#32).tx.queue.any QueueEntry.isStanding = false ∧
      (after .gapReached waiting).tx.state = .sending ∧
      (after .gapReached waiting).tx.queue.any QueueEntry.isStanding = true ∧
      (after .gapReached waiting).tx.queue.tail.any QueueEntry.isStanding = false ∧
      ([QueueEntry.fresh (.repeatTo 3 .bodyBad)].any QueueEntry.isStanding) = false ∧
      waiting.tx.queue.any (·.isRepeatFor 3) = true ∧ waiting.tx.queue.any (·.isRepeatFor 2) = false ∧
      waiting.tx.state ≠ .sending ∧
      (let u := (waiting.tx.takeClaim .member (.withdraw 3)).queue.drop 1
       u = [] ∧ waiting.tx.state ∈ [TransmitState.waitGap, .backoff]) ∧
      (let j := (after .collision (after .gapReached (waiting.withTx { waiting.tx with
         queue := [.fresh (.repeatTo 3 .bodyBad)] }))).tx
       j.jamEntry = some (.repeatTo 3 .bodyBad)) := by decide +kernel

end Sys2Proof.Machine.Tests
end

