-- ==== Sys2Proof/Proofs/VoterSet.lean ====
section
/-! PROOF. Membership of the voter set (R20). -/

namespace Sys2Proof.Machine

/-! ## The orders a vote is decided by (Conventions) -/

/-- "After" with the distance as a number: 1..2^31−1 ahead. -/
theorem isAfter_iff (h g : Count) :
    isAfter h g = true ↔ 1 ≤ (h - g).toNat ∧ (h - g).toNat < 2147483648 := by
  simp only [isAfter, Bool.and_eq_true, decide_eq_true_eq]

theorem notBefore_iff (h g : Count) : notBefore h g = true ↔ h = g ∨ isAfter h g = true := by
  simp only [notBefore, Bool.or_eq_true, beq_iff_eq]

/-! ## One station's vote -/

/-- A voter has joined by the count and is not yet absent at it (R20). -/
theorem isVoter_iff (s : State) (g : Count) (n : Station) :
    isVoter s g n = true ↔ ∃ j, joinedAtOf s n = some j ∧ notBefore g j = true ∧
      ∀ a, absentFromOf s n = some a → isBefore g a = true := by
  unfold isVoter
  cases joinedAtOf s n with
  | none => simp
  | some j => cases absentFromOf s n <;> simp

/-- A vote depends on the state through the station's joined-at and absent-from alone (R20). -/
theorem isVoter_congr {s t : State} {n : Station} (joined : joinedAtOf s n = joinedAtOf t n)
    (absent : absentFromOf s n = absentFromOf t n) (g : Count) : isVoter s g n = isVoter t g n := by
  unfold isVoter
  rw [joined, absent]

/-! ## The set -/

/-- Two states whose joined-at and absent-from agree for every station have one voter set (R20). -/
theorem voterSet_congr {s t : State} (joined : ∀ n, joinedAtOf s n = joinedAtOf t n)
    (absent : ∀ n, absentFromOf s n = absentFromOf t n) (g : Count) : voterSet s g = voterSet t g :=
  congrArg stationSetOf (funext fun n => isVoter_congr (joined n) (absent n) g)

/-- Settles O45: membership is one station's vote, read off the order lemmas; the frame is the congruence
of the set in the fields that decide a vote. -/
theorem voterSetMembership : Obligations.VoterSetMembership := by
  refine ⟨fun s g n => ?membership, fun s t g station ownJoined ownAbsent entries => ?frame⟩
  case membership =>
    simp only [hasStation_voterSet, isVoter_iff, notBefore_iff, isBefore, isAfter_iff, joinedAtOf,
      absentFromOf]
  case frame =>
    have joined (n : Station) : joinedAtOf s n = joinedAtOf t n := by
      simp only [joinedAtOf, station, ownJoined, (entries n).1]
    have absent (n : Station) : absentFromOf s n = absentFromOf t n := by
      simp only [absentFromOf, station, ownAbsent, (entries n).2]
    exact voterSet_congr joined absent g

end Sys2Proof.Machine
end

