-- ==== Sys2Proof/Proofs/FrameTrim.lean ====
section
/-! PROOF. The trim decision's table and its effect on a frame start (R97, R110), and what the Timing Unit
makes of a message whose stamp is behind the noted count or at most 1 away (R101, R107, R108). -/

namespace Sys2Proof.Machine

/-! ## The rows of the trim decision (R110) -/

/-- The bounds of R173 that order the rows of R110: the snap limit lies above the deadband. -/
theorem validConfig_trimBounds {c : StationConfig} (valid : validConfig c = true) :
    16 ≤ c.fl ∧ c.db < c.snap := by
  simp only [validConfig, within, Bool.and_eq_true, decide_eq_true_eq] at valid
  omega

theorem trimLength_snap {c : StationConfig} {m : Int}
    (far : (c.snap : Int) < m ∨ m < -(c.snap : Int)) :
    trimLength c m = (boundLength c.fl ((c.fl : Int) - m), true) := if_pos far

theorem trimLength_shorter {c : StationConfig} {m : Int} (above : (c.db : Int) < m)
    (near : m ≤ (c.snap : Int)) : trimLength c m = (c.fl - 1, false) := by
  have noSnap : ¬((c.snap : Int) < m ∨ m < -(c.snap : Int)) := by omega
  rw [trimLength, if_neg noSnap, if_pos above]

theorem trimLength_longer {c : StationConfig} {m : Int} (below : m < -(c.db : Int))
    (near : -(c.snap : Int) ≤ m) : trimLength c m = (c.fl + 1, false) := by
  have noSnap : ¬((c.snap : Int) < m ∨ m < -(c.snap : Int)) := by omega
  have notAbove : ¬(c.db : Int) < m := by omega
  rw [trimLength, if_neg noSnap, if_neg notAbove, if_pos below]

/-- A median within the deadband is no snap, where the snap limit is not below the deadband (R173). -/
theorem trimLength_nominal {c : StationConfig} {m : Int} (order : c.db ≤ c.snap)
    (low : -(c.db : Int) ≤ m) (high : m ≤ (c.db : Int)) : trimLength c m = (c.fl, false) := by
  have noSnap : ¬((c.snap : Int) < m ∨ m < -(c.snap : Int)) := by omega
  rw [trimLength, if_neg noSnap, if_neg (not_lt.2 high), if_neg (not_lt.2 low)]

/-- A bounded length, as the whole number that its bounds are stated in. -/
theorem natCast_boundLength (fl : Nat) (x : Int) : (boundLength fl x : Int) =
    max ((fl / 2 : Nat) : Int) (min ((fl + fl / 2 : Nat) : Int) x) :=
  Int.toNat_of_nonneg (le_max_of_le_left (Int.natCast_nonneg _))

/-- A frame start returns the length of the row of the median it records, and raises SNAP where that row is
a snap, and nothing else (R97, R110). -/
theorem timingFrameStart_trim (s : State) :
    (timingFrameStart s).2 = (trimLength s.cfg (timingFrameStart s).1.tim.lastMedian).1 ∧
    (timingFrameStart s).1.flt =
      if (trimLength s.cfg (timingFrameStart s).1.tim.lastMedian).2 then s.flt.raise [.snap]
      else s.flt := by
  obtain ⟨m, r, start, -⟩ := timingFrameStart_eq s
  rw [start]
  cases snap : (trimLength s.cfg m).2 <;> simp [snap]

/-- Settles O29: one lemma per row of the table, and the frame start's own use of it. -/
theorem trimFollowsTheTable : Obligations.TrimFollowsTheTable := by
  refine ⟨fun c m valid => ?rows, timingFrameStart_trim⟩
  obtain ⟨fl, order⟩ := validConfig_trimBounds valid
  refine ⟨fun far => ?snap, trimLength_shorter, trimLength_longer, trimLength_nominal order.le,
    trimLength_bounds c m (by omega)⟩
  rw [trimLength_snap far]
  exact ⟨rfl, natCast_boundLength _ _⟩

/-! ## What the Timing Unit does with a message (R101, R107, R108) -/

/-- A message is not used under a pending realignment or with another realignment number (R101). -/
theorem timingUse_of_unused {t : TimingUnit} {rt : ReceiveTiming} (stamp : Count)
    (unused : ¬(t.realignPending = false ∧ rt.realignNumber = t.realignNumber)) :
    timingUse t rt stamp = .nothing := by
  refine if_pos ?_
  simpa [or_iff_not_imp_left] using unused

/-- With the own count SET, a stamp 2 or more behind the noted count has no use, whatever count state was
noted (R101, R107). -/
theorem timingUse_of_behind {t : TimingUnit} {rt : ReceiveTiming} {stamp : Count}
    (own : t.countState = .set) (behind : signedDifference stamp rt.count ≤ -2) :
    timingUse t rt stamp = .nothing := by
  have notAhead : ¬2 ≤ signedDifference stamp rt.count := by omega
  have notNear : ¬-1 ≤ signedDifference stamp rt.count := by omega
  unfold timingUse
  simp only [own, if_neg notAhead, if_neg notNear]
  cases rt.countState with
  | unset => exact ite_self _
  | set => exact ite_self _

/-- A message noted in UNSET that is taken in SET has no use, short of a forward jump (R101). -/
theorem timingUse_of_notedUnset {t : TimingUnit} {rt : ReceiveTiming} {stamp : Count}
    (noted : rt.countState = .unset) (own : t.countState = .set)
    (notAhead : signedDifference stamp rt.count < 2) : timingUse t rt stamp = .nothing := by
  unfold timingUse
  simp only [noted, own, if_neg (not_le.2 notAhead)]
  exact ite_self _

/-- A used message at most 1 away, noted and taken in SET, stores an offset (R101, R108). -/
theorem timingUse_of_withinOne {t : TimingUnit} {rt : ReceiveTiming} {stamp : Count}
    (used : t.realignPending = false ∧ rt.realignNumber = t.realignNumber)
    (noted : rt.countState = .set) (own : t.countState = .set)
    (low : -1 ≤ signedDifference stamp rt.count) (high : signedDifference stamp rt.count ≤ 1) :
    timingUse t rt stamp = .storeOffset (signedDifference stamp rt.count) := by
  have notAhead : ¬2 ≤ signedDifference stamp rt.count := by omega
  obtain ⟨pending, number⟩ := used
  unfold timingUse
  simp only [pending, number, noted, own, if_neg notAhead, if_pos low, bne_self_eq_false,
    Bool.or_self, Bool.false_eq_true, if_false]

/-! ## What becomes of the state -/

theorem timingMessage_of_nothing {s : State} {m : Message} {rt : ReceiveTiming}
    (use : timingUse s.tim rt m.stamp = .nothing) : timingMessage s m rt = s := by
  unfold timingMessage
  rw [use]

/-- Storing an offset writes the sender's entry alone (R108). -/
theorem timingMessage_of_storeOffset {s : State} {m : Message} {rt : ReceiveTiming} {d : Int}
    (use : timingUse s.tim rt m.stamp = .storeOffset d) :
    timingMessage s m rt = s.withRos (s.ros.setEntry m.sender
      { s.ros.entry m.sender with
        offset := some (phaseOffset s.cfg.fl d m.phase rt.line), age := 0 }) := by
  unfold timingMessage
  rw [use]

/-- Settles O32: the message's use by R101 in each case, and what that use makes of the state. -/
theorem stampWithinOneStoresTheOffset : Obligations.StampWithinOneStoresTheOffset := by
  intro s m rt
  refine ⟨fun own behind => ?behind, fun unused => ?unused, fun noted own near => ?notedUnset,
    fun used noted own low high => ?withinOne⟩
  case behind => exact timingMessage_of_nothing (timingUse_of_behind own behind)
  case unused => exact timingMessage_of_nothing (timingUse_of_unused _ unused)
  case notedUnset => exact timingMessage_of_nothing (timingUse_of_notedUnset noted own near)
  case withinOne =>
    have stored := timingMessage_of_storeOffset (timingUse_of_withinOne used noted own low high)
    simp only [stored, State.withRos_ros, RosterUnit.entry_setEntry_self, true_and]
    exact ⟨rfl, rfl, rfl, fun k other => s.ros.entry_setEntry_other _ other⟩

end Sys2Proof.Machine
end

