-- ==== Sys2Proof/Proofs/FaultRecord.lean ====
section
/-! PROOF. The Fault Unit's record: what a raise, a count signal and CLEAR_COUNTERS make of the summary and
the counters (R158, R162, R163), and the reply of READ_COUNTERS (R164, R183). -/

namespace Sys2Proof.Machine

/-! ## A raise at the fault counters (R158) -/

theorem FaultKind.number_inj {j k : FaultKind} (h : j.number = k.number) : j = k := by
  have bits := k.bit_getLsbD j
  rw [h, k.bit_getLsbD k] at bits
  simpa using bits

/-- One kind of a raise moves its own counter alone (R158). -/
theorem FaultUnit.raiseKind_faultCounters (f : FaultUnit) (k j : FaultKind) :
    (f.raiseKind k).faultCounters[j.number] =
      if j = k then min 255 (f.faultCounters[j.number] + 1) else f.faultCounters[j.number] := by
  split
  case isTrue same => exact same ▸ bump_self _ _ _ _
  case isFalse other => exact bump_other _ _ _ fun h => other (FaultKind.number_inj h)

/-- A raise that names each kind at most once moves the counters of its kinds by 1, up to 255 (R158). -/
theorem FaultUnit.raise_faultCounters (f : FaultUnit) {ks : List FaultKind} (once : ks.Nodup)
    (j : FaultKind) : (f.raise ks).faultCounters[j.number] =
      if j ∈ ks then min 255 (f.faultCounters[j.number] + 1) else f.faultCounters[j.number] := by
  induction ks generalizing f with
  | nil => rfl
  | cons k ks ih =>
    obtain ⟨notAgain, once⟩ := List.nodup_cons.1 once
    rw [raise_cons, ih _ once, raiseKind_faultCounters]
    by_cases same : j = k
    · subst same
      simp [notAgain]
    · simp [same]

/-! ## The order of raises (R158) -/

theorem bump_comm {n : Nat} (counters : Vector Nat n) (i j : Fin n) (a limit : Nat) :
    bump (bump counters i a limit) j a limit = bump (bump counters j a limit) i a limit := by
  by_cases same : i = j
  · rw [same]
  · have apart : i.val ≠ j.val := fun h => same (Fin.ext h)
    simp only [bump, Fin.getElem_fin, Vector.getElem_set_ne _ _ apart, Vector.getElem_set_ne _ _ apart.symm]
    exact Vector.set_comm _ _ apart

/-- The whole record, the FAULT line too, does not tell the order of two kinds. -/
theorem FaultUnit.raiseKind_comm (f : FaultUnit) (j k : FaultKind) :
    (f.raiseKind j).raiseKind k = (f.raiseKind k).raiseKind j := by
  simp only [raiseKind, bump_comm _ j.number, BitVec.or_assoc, BitVec.or_comm j.bit]

/-- The whole record does not tell the order of two raises (R158). -/
theorem FaultUnit.raise_comm (f : FaultUnit) (ks ls : List FaultKind) :
    (f.raise ks).raise ls = (f.raise ls).raise ks := by
  have commutes : RightCommutative FaultUnit.raiseKind := ⟨FaultUnit.raiseKind_comm⟩
  rw [raise_append, raise_append]
  exact List.perm_append_comm.foldl_eq f

/-! ## The FAULT line's law at a raise (R159) -/

theorem faultLineLaw_iff (f : FaultUnit) :
    faultLineLaw f = true ↔ f.faultLine = faultLevel f.summary f.mask := beq_iff_eq

theorem faultLineLaw_raise {f : FaultUnit} (h : faultLineLaw f = true) (ks : List FaultKind) :
    faultLineLaw (f.raise ks) = true :=
  (faultLineLaw_iff _).2 (f.raise_faultLine ks ((faultLineLaw_iff f).1 h))

/-- A raise of a kind sets the FAULT line, whatever level it had. -/
theorem faultLineLaw_raiseKind (f : FaultUnit) (k : FaultKind) : faultLineLaw (f.raiseKind k) = true :=
  (faultLineLaw_iff _).2 (f.raiseKind_faultLine k)

/-- Settles O23: the summary and the counters kind by kind, and the record that does not tell the order. -/
theorem raiseRecordsEachKind : Obligations.RaiseRecordsEachKind := by
  refine ⟨fun f ks once => ⟨fun k => ⟨f.raise_summary ks k, f.raise_faultCounters once k⟩,
    f.raise_eventCounters ks, f.raise_mask ks, fun law => faultLineLaw_raise law ks⟩,
    fun f ks ls => ?_⟩
  rw [f.raise_comm ks ls]
  exact ⟨rfl, rfl⟩

/-! ## The reply of READ_COUNTERS (R164, R183) -/

theorem flatMap_bytesOf_length (n : Nat) (values : List Nat) :
    (values.flatMap (bytesOf n)).length = n * values.length := by
  simp [List.length_flatMap, Nat.mul_comm]

/-- In a layout of values of n bytes each, behind a prefix, each value is read back modulo its size. -/
theorem field_flatMap_bytesOf (pre : List Byte) (n : Nat) (values : List Nat) {i : Nat}
    (h : i < values.length) :
    field (pre ++ values.flatMap (bytesOf n)) (pre.length + n * i) n = values[i] % 256 ^ n := by
  have cut : values.flatMap (bytesOf n) = (values.take i).flatMap (bytesOf n) ++ bytesOf n values[i] ++
      (values.drop (i + 1)).flatMap (bytesOf n) := by
    have around : values = values.take i ++ values[i] :: values.drop (i + 1) := by simp
    refine (congrArg (List.flatMap (bytesOf n)) around).trans ?_
    rw [List.flatMap_append, List.flatMap_cons, List.append_assoc]
  have before : (pre ++ (values.take i).flatMap (bytesOf n)).length = pre.length + n * i := by
    rw [List.length_append, flatMap_bytesOf_length, List.length_take_of_le h.le]
  have found := field_append (pre ++ (values.take i).flatMap (bytesOf n)) (bytesOf n values[i])
    ((values.drop (i + 1)).flatMap (bytesOf n))
  rw [before, bytesOf_length, ofBytes_bytesOf] at found
  simpa [cut] using found

/-- The reply holds the status, and each event counter in two bytes, in the order of the numbers. -/
theorem readCountersReply_fields (f : FaultUnit) :
    (readCountersReply f).length = 17 ∧ field (readCountersReply f) 0 1 = 1 ∧
      ∀ k : Fin 8, field (readCountersReply f) (1 + 2 * k.val) 2 = f.eventCounters[k] % 65536 := by
  refine ⟨?length, rfl, fun k => ?counter⟩
  case length => simp [readCountersReply]
  case counter =>
    simpa [readCountersReply] using
      field_flatMap_bytesOf [statusOk] 2 f.eventCounters.toList (i := k.val) (by simp)

/-! ## CLEAR_COUNTERS against a raise and a count (R162) -/

theorem FaultUnit.clearCounters_faultCounters (f : FaultUnit) (k : FaultKind) :
    f.clearCounters.faultCounters[k.number] = 0 := Vector.getElem_replicate _

theorem FaultUnit.clearCounters_eventCounters (f : FaultUnit) (k : EventKind) :
    f.clearCounters.eventCounters[k.number] = 0 := Vector.getElem_replicate _

/-- A count signal moves its counter up to 65535 (R163). -/
theorem FaultUnit.count_eventCounters (f : FaultUnit) (k : EventKind) (n : Nat) :
    (f.count k n).eventCounters[k.number] = min 65535 (f.eventCounters[k.number] + n) :=
  bump_self _ _ _ _

/-! ## The two commands at the port (R169) -/

/-- Where a command byte is awaited, a command taken by it has its effect on the state as it stands. -/
theorem onCommandByte_settled {s : State} (h : settled s) (phase : s.lpt.phase = .command)
    (take : State → State) : onCommandByte s take = .next (take s) := by
  obtain ⟨released, nothing⟩ := h
  rw [onCommandByte, afterArrivals_nothing _ released nothing]
  simp [awaitsCommand, phase]

/-- Settles O22: each command by its effect at the port, and the clear met by a raise and by a count. -/
theorem countersReadAndCleared : Obligations.CountersReadAndCleared := by
  refine ⟨fun s h phase => ⟨readCountersReply s.flt, ?read, readCountersReply_fields s.flt⟩,
    fun s h phase => ?clear, fun f k => ?raised, fun f k => ?counted⟩
  case read =>
    exact onCommandByte_settled h phase fun s => reply s 0x24#8 (readCountersReply s.flt)
  case clear => exact onCommandByte_settled h phase takeClearCounters
  case raised =>
    refine ⟨?_, (f.raise [k]).clearCounters_faultCounters k, rfl, ?_, rfl, faultLineLaw_raiseKind f k⟩
    · rw [f.clearCounters.raise_faultCounters (List.nodup_singleton k), f.clearCounters_faultCounters]
      simp
    · exact (f.raise_summary [k] k).trans (by simp)
  case counted =>
    refine ⟨?_, (f.count k 1).clearCounters_eventCounters k⟩
    rw [FaultUnit.count_eventCounters, f.clearCounters_eventCounters]
    rfl

end Sys2Proof.Machine
end

