-- ==== Sys2Proof/Proofs/FaultLine.lean ====
section
/-! PROOF. The FAULT line at the level of the summary and the mask in effect (R159). Every command but a
hard reset changes the Fault Unit through the unit's own operations alone (`FaultUnit.RunsTo`), and each of
these keeps the law of the line. -/

namespace Sys2Proof.Machine

/-! ## The operations of the Fault Unit (R158 to R165) -/

/-- The record is reached from another by a run of the unit's operations: raises, count signals,
READ_FAULTS, CLEAR_COUNTERS, and a mask taken at START. -/
inductive FaultUnit.RunsTo (f : FaultUnit) : FaultUnit → Prop where
  | refl : f.RunsTo f
  | raise {g : FaultUnit} (h : f.RunsTo g) (ks : List FaultKind) : f.RunsTo (g.raise ks)
  | count {g : FaultUnit} (h : f.RunsTo g) (k : EventKind) (n : Nat) : f.RunsTo (g.count k n)
  | emptySummary {g : FaultUnit} (h : f.RunsTo g) : f.RunsTo g.emptySummary
  | clearCounters {g : FaultUnit} (h : f.RunsTo g) : f.RunsTo g.clearCounters
  | takeMask {g : FaultUnit} (h : f.RunsTo g) (mask : FaultSet) : f.RunsTo (g.takeMask mask)

/-- Every operation of the Fault Unit keeps the law of the FAULT line (R159). -/
theorem FaultUnit.RunsTo.faultLineLaw {f g : FaultUnit} (run : f.RunsTo g)
    (law : faultLineLaw f = true) : faultLineLaw g = true := by
  induction run with
  | refl => exact law
  | raise _ ks ih => exact faultLineLaw_raise ih ks
  | count _ _ _ ih => exact ih
  | emptySummary => exact (faultLineLaw_iff _).2 rfl
  | clearCounters _ ih => exact ih
  | takeMask => exact (faultLineLaw_iff _).2 rfl

/-! ## The level of the line (R159) -/

/-- The set that a summary gains shares a kind with the mask, or the summary did already. -/
theorem faultLevel_or (a b mask : FaultSet) :
    faultLevel (a ||| b) mask = (faultLevel a mask || faultLevel b mask) := by
  have parts : (a ||| b) &&& mask = (a &&& mask) ||| (b &&& mask) := by
    rw [BitVec.and_comm, BitVec.and_or_distrib_left, BitVec.and_comm mask, BitVec.and_comm mask]
  rw [Bool.eq_iff_iff]
  simp only [faultLevel, parts, bne_iff_ne, Bool.or_eq_true, ne_eq, BitVec.or_eq_zero_iff, not_and_or]

/-- One kind shares itself with a mask that holds it, and nothing with another (R159). -/
theorem faultLevel_bit (k : FaultKind) (mask : FaultSet) :
    faultLevel k.bit mask = mask.getLsbD k.number.val := by
  have single : k.bit &&& mask = if mask.getLsbD k.number.val then k.bit else 0#21 := by
    rw [BitVec.and_comm]
    exact BitVec.and_twoPow mask k.number.val
  have nonempty : k.bit ≠ 0#21 := by cases k <;> decide
  rw [faultLevel, single]
  cases mask.getLsbD k.number.val <;> simp [nonempty]

/-- A raise of one kind sets the line to its level before, or to whether the mask holds the kind (R159). -/
theorem FaultUnit.raise_single_faultLine (f : FaultUnit) (k : FaultKind) :
    (f.raise [k]).faultLine = (faultLevel f.summary f.mask || f.mask.getLsbD k.number.val) :=
  (faultLevel_or f.summary k.bit f.mask).trans (congrArg _ (faultLevel_bit k f.mask))

@[simp] theorem faultLevel_noMask (summary : FaultSet) : faultLevel summary 0#21 = false := by
  simp [faultLevel]

/-! ## What leaves the Fault Unit alone -/

@[simp] theorem heartbeatFrameStart_flt (s : State) : (heartbeatFrameStart s).flt = s.flt := by
  obtain ⟨t, e⟩ := heartbeatFrameStart_only s
  rw [e, State.withTx_flt]

@[simp] theorem lineIdle_flt (s : State) : (lineIdle s).flt = s.flt := by
  obtain ⟨r, e⟩ := lineIdle_only s
  rw [e, State.withRx_flt, State.withLine_flt]

@[simp] theorem gapReached_flt (s : State) : (gapReached s).flt = s.flt := by
  obtain ⟨t, r, l, e⟩ := gapReached_only s
  rw [e, State.withLine_flt, State.withRx_flt, State.withTx_flt]

@[simp] theorem slotEnd_flt (s : State) : (slotEnd s).flt = s.flt := by
  obtain ⟨t, r, l, e⟩ := slotEnd_only s
  rw [e, State.withLine_flt, State.withRx_flt, State.withTx_flt]

@[simp] theorem spoilSlot_flt (s : State) : (spoilSlot s).flt = s.flt := by
  unfold spoilSlot
  split <;> rfl

@[simp] theorem lineLeavesIdle_flt (s : State) : (lineLeavesIdle s).flt = s.flt := by
  simp only [lineLeavesIdle]
  split
  · rfl
  · split <;> simp

@[simp] theorem requestNextWrite_flt (s : State) : (requestNextWrite s).flt = s.flt := by
  obtain ⟨-, -, -, flt, -, -⟩ := requestNextWrite_only s
  exact flt

@[simp] theorem reportCompleteFrame_flt (s : State) : (reportCompleteFrame s).flt = s.flt := by
  unfold reportCompleteFrame
  split <;> rfl

@[simp] theorem writeLanded_flt (s : State) (w : LineWrite) : (writeLanded s w).flt = s.flt := by
  simp only [writeLanded]
  split
  · rfl
  · split <;> rfl

@[simp] theorem placeRequest_flt (s : State) : (placeRequest s).flt = s.flt := by
  rw [placeRequest_only, State.withArriving_flt, State.withScn_flt]

@[simp] theorem lineBegins_flt (s : State) (mark : Bool) : (lineBegins s mark).flt = s.flt := by
  obtain ⟨port, waiting, line, e, -⟩ := lineBegins_only s mark
  rw [e, State.withScn_flt]

@[simp] theorem signalLineStart_flt (s : State) : (signalLineStart s).flt = s.flt := rfl

@[simp] theorem realignmentApplied_flt (s : State) : (realignmentApplied s).flt = s.flt := rfl

@[simp] theorem nextLine_flt (s : State) : (nextLine s).flt = s.flt := by simp [nextLine]

@[simp] theorem renumber_flt (s : State) (p : Nat) : (renumber s p).flt = s.flt := by simp [renumber]

@[simp] theorem reply_flt (s : State) (code : Byte) (bytes : List Byte) :
    (reply s code bytes).flt = s.flt := rfl

@[simp] theorem takeLoadConfig_flt (s : State) (block : List Byte) :
    (takeLoadConfig s block).flt = s.flt := by
  obtain ⟨p, e, -⟩ := takeLoadConfig_only s block
  rw [e, State.withLpt_flt]

@[simp] theorem leaveBlocks_flt (s : State) : (leaveBlocks s).flt = s.flt := rfl

@[simp] theorem takeLeaveCommand_flt (s : State) : (takeLeaveCommand s).flt = s.flt := by
  unfold takeLeaveCommand
  split <;> simp

/-- RESTART, taken or refused, leaves the Fault Unit as it stands (R166). -/
@[simp] theorem takeRestart_flt (s : State) : (takeRestart s).flt = s.flt := by
  obtain ⟨kept, -⟩ := restartBlocks_frame s
  unfold takeRestart
  split <;> simp [kept]

/-- START leaves the record and takes the frozen configuration's mask (R165). -/
@[simp] theorem startBlocks_flt (s : State) : (startBlocks s).flt = s.flt.takeMask s.cfg.faultMask := by
  simp [startBlocks]

/-! ## What reaches the Fault Unit by its operations

Each lemma takes the run that has led to the state before it, so that a block's operation on what another has
left is one lemma applied to another. -/

section
variable {f : FaultUnit} {s : State} (h : f.RunsTo s.flt)
include h

/-! ### The Agreement Unit (R33, R40, R41, R45, R46) -/

theorem AgreementOnly.runsTo {t : State} (only : AgreementOnly s t) : f.RunsTo t.flt := by
  obtain ⟨b, a, ks, -, rfl⟩ := only
  exact h.raise ks

theorem evaluate_runsTo : f.RunsTo (evaluate s).flt := (evaluate_only s).runsTo h

theorem agreementMessage_runsTo {m : Message} {recorded : Bool} :
    f.RunsTo (agreementMessage s m recorded).flt := by
  have evaluated {t : State} (run : f.RunsTo t.flt) :
      f.RunsTo (if m.isOccasion then evaluate t else t).flt := by
    split
    · exact evaluate_runsTo run
    · exact run
  unfold agreementMessage
  apply evaluated
  split
  · split
    · rcases swapSplitCheck_cases s m.sender m.stamp _ with e | e <;> rw [e]
      · exact h
      · exact h.raise _
    · exact h
  all_goals exact h

/-! ### The Capture Unit (R54, R70 to R76) -/

theorem beginFrame_runsTo {held : HeldBegin} : f.RunsTo (beginFrame s held).flt := by
  simp only [beginFrame]
  split
  · split
    · exact h.raise _
    · split
      · refine evaluate_runsTo (FaultUnit.RunsTo.count ?_ _ _)
        simpa using h
      · simpa using h
  · exact h.raise _

theorem afterRelease_runsTo {result : CaptureState} : f.RunsTo (afterRelease s result).flt := by
  unfold afterRelease
  split
  · exact beginFrame_runsTo h
  · split <;> exact h

theorem reportAbort_runsTo {result : AbortResult} : f.RunsTo (reportAbort s result).flt :=
  afterRelease_runsTo (s := s.withBuf s.buf.abort) h

theorem abortFrame_runsTo {result : AbortResult} : f.RunsTo (abortFrame s result).flt := by
  simp only [abortFrame]
  split
  · exact h
  · refine reportAbort_runsTo ?_
    exact h

theorem holdBegin_runsTo {tag : Tag} : f.RunsTo (holdBegin s tag).flt := by
  simp only [holdBegin]
  split
  · exact h.raise _
  · exact h

/-- An abort with its raise of one kind. -/
theorem raise_abortFrame_runsTo {k : FaultKind} {result : AbortResult} :
    f.RunsTo (abortFrame (raise s k) result).flt := abortFrame_runsTo (h.raise [k])

theorem takeBegin_runsTo {tag : Tag} : f.RunsTo (takeBegin s tag).flt := by
  have aborted := raise_abortFrame_runsTo h (k := .inputBad) (result := .idle)
  simp only [takeBegin]
  split
  · exact beginFrame_runsTo h
  · exact beginFrame_runsTo h
  · split
    · exact holdBegin_runsTo h
    · split
      · exact holdBegin_runsTo aborted
      · exact beginFrame_runsTo aborted

theorem takeLine_runsTo {data : LineData} : f.RunsTo (takeLine s data).flt := by
  unfold takeLine
  split
  · exact h
  · exact h
  · unfold takeHeldLine
    split
    · exact h.raise _
    · exact h
  · split
    · exact h
    · split
      · exact raise_abortFrame_runsTo h
      · split
        · exact raise_abortFrame_runsTo h
        · simpa using h

theorem takeEnd_runsTo : f.RunsTo (takeEnd s).flt := by
  simp only [takeEnd]
  split
  · exact h
  · exact h
  · exact h.raise _
  · split
    · exact h
    · split
      · split
        · refine afterRelease_runsTo (evaluate_runsTo ?_)
          simpa using h
        · exact h
      · exact raise_abortFrame_runsTo h

theorem takeTimeout_runsTo : f.RunsTo (takeTimeout s).flt := by
  simp only [takeTimeout]
  split
  · exact raise_abortFrame_runsTo h
  · split
    · exact h.raise _
    · exact h

theorem captureDetached_runsTo : f.RunsTo (captureDetached s).flt := by
  simp only [captureDetached]
  split
  · exact h
  · exact h
  · exact h
  · refine abortFrame_runsTo ?_
    exact h

/-! ### The Roster Unit (R16, R19, R22) -/

theorem viewComparison_runsTo {sender : Station} {stamp : Count} {view : StationSet} :
    f.RunsTo (viewComparison s sender stamp view).flt := by
  simp only [viewComparison]
  split
  · split
    · exact h.raise _
    · exact h.raise _
    all_goals exact h
  · exact h

theorem rosterContent_runsTo {m : Message} : f.RunsTo (rosterContent s m).flt := by
  unfold rosterContent
  split
  · split
    · exact h.raise _
    · exact h
  · simp only
    split
    · refine viewComparison_runsTo ?_
      exact h
    · exact h
  · exact h
  · exact h

theorem rosterMessage_runsTo {m : Message} : f.RunsTo (rosterMessage s m).flt := by
  unfold rosterMessage
  split
  · exact rosterContent_runsTo (s := enterJoining s) h
  · exact rosterContent_runsTo h

theorem enterDetached_runsTo : f.RunsTo (enterDetached s).flt :=
  captureDetached_runsTo (s := emptySchedule (s.withRos { s.ros with self := .detached })) h

theorem selfFrameStart_runsTo : f.RunsTo (selfFrameStart s).flt := by
  unfold selfFrameStart
  split
  · split <;> exact h
  · split <;> exact h
  · split
    · exact enterDetached_runsTo h
    · exact h
  all_goals exact h

theorem rosterFrameStart_runsTo : f.RunsTo (rosterFrameStart s).flt := by
  obtain ⟨ks, e⟩ := entriesFrameStart_only (selfFrameStart (countFrameStart s))
  rw [rosterFrameStart, e]
  exact (selfFrameStart_runsTo (s := countFrameStart s) h).raise ks

/-! ### The Timing Unit (R105, R110) -/

theorem timingMessage_runsTo {m : Message} {rt : ReceiveTiming} :
    f.RunsTo (timingMessage s m rt).flt := by
  obtain ⟨t, x, r, ks, e, -⟩ := timingMessage_only s m rt
  rw [e]
  exact h.raise ks

theorem timingFrameStart_runsTo : f.RunsTo (timingFrameStart s).1.flt := by
  rw [(timingFrameStart_trim s).2]
  split
  · exact h.raise _
  · exact h

/-! ### The hand-offs of a command (R127), and what is on its way -/

theorem takeHandoff_runsTo {x : Handoff} : f.RunsTo (takeHandoff s x).1.flt := by
  cases x with
  | rosterFrameStart => exact rosterFrameStart_runsTo h
  | agreementFrameStart => exact (agreementFrameStart_only s).runsTo h
  | busFrameStart => simpa [takeHandoff] using h
  | occasion => exact evaluate_runsTo h
  | holdingsTrigger => exact h
  | rosterTakes m => exact rosterMessage_runsTo h
  | timingTakes m rt =>
    cases rt with
    | none => exact h
    | some rt => exact timingMessage_runsTo h
  | transmitTakes c => exact h
  | agreementTakes m recorded => exact agreementMessage_runsTo h
  | jumpTold n => exact evaluate_runsTo ((retime_only s n).runsTo h)
  | captureRelease => exact afterRelease_runsTo h

theorem settleWith_runsTo {choose : Nat → Nat} {due : List Handoff} :
    f.RunsTo (settleWith choose due s).flt :=
  settleWith_keeps (fun t => f.RunsTo t.flt) (fun _ _ run => run) (fun _ _ run => takeHandoff_runsTo run)
    choose due s h

theorem settleWithMessages_runsTo {choose : Nat → Nat} {due : List Handoff} :
    f.RunsTo (settleWithMessages choose due s).flt :=
  settleWith_runsTo (s := s.withArriving s.arriving.requestAlone) h

theorem takeSooner_runsTo {choose : Nat → Nat} {lag : Nat} : f.RunsTo (takeSooner choose lag s).flt :=
  settleWith_runsTo (s := s.withArriving (s.arriving.later lag)) h

theorem arrive_runsTo {choose : Nat → Nat} : f.RunsTo (arrive choose s).flt := by
  rw [arrive, placeRequest_flt]
  exact settleWithMessages_runsTo h

theorem arriveUnlessSending_runsTo {choose : Nat → Nat} : f.RunsTo (arriveUnlessSending choose s).flt := by
  unfold arriveUnlessSending
  split
  · exact h
  · exact arrive_runsTo h

/-! ### The line timer and the frame start (R82, R87, R88) -/

theorem swapDecision_runsTo : f.RunsTo (swapDecision s).flt := by
  rcases swapDecision_cases s with ⟨e, rest, b, passed, -, -, -, swapped⟩ | unchanged
  · rw [swapped]
    exact (h.count _ _).count _ _
  · exact unchanged.symm ▸ h

theorem frameBegins_runsTo : f.RunsTo (frameBegins s).flt := by
  simp only [frameBegins, lineBegins_flt]
  refine swapDecision_runsTo ?_
  rw [State.withScn_flt]
  exact timingFrameStart_runsTo h

theorem frameStartWith_runsTo {choose : Nat → Nat} : f.RunsTo (frameStartWith choose s).flt :=
  settleWithMessages_runsTo (frameBegins_runsTo h)

theorem lineStartWith_runsTo {choose : Nat → Nat} : f.RunsTo (lineStartWith choose s).flt := by
  unfold lineStartWith
  split
  · exact h
  · split
    · exact frameStartWith_runsTo (s := signalLineStart s) h
    · split
      · simpa using h
      · split
        · refine frameStartWith_runsTo ?_
          simpa using h
        · simpa using h

theorem frameStartIfDue_runsTo {choose : Nat → Nat} : f.RunsTo (frameStartIfDue choose s).flt := by
  unfold frameStartIfDue
  split
  · exact lineStartWith_runsTo h
  · exact h

theorem beforeLineStart_runsTo {choose : Nat → Nat} : f.RunsTo (beforeLineStart choose s).flt := by
  have placed : f.RunsTo (placeRequest s).flt := (placeRequest_flt s).symm ▸ h
  rcases beforeLineStart_cases choose s with ⟨-, e⟩ | e <;> rw [e]
  · exact placed
  · exact arrive_runsTo placed

/-! ### The transmit machine (R146, R147, R149) -/

theorem reportCompletion_runsTo {m : OutMessage} : f.RunsTo (reportCompletion s m).flt := by
  obtain ⟨r, only, -⟩ := reportCompletion_only s m
  exact only.runsTo (s := s.withRos r) h

theorem transmissionCompleted_runsTo : f.RunsTo (transmissionCompleted s).flt := by
  have reported {t : State} {e : QueueEntry} {m : OutMessage} (run : f.RunsTo t.flt) :
      f.RunsTo (if e.isStanding then reportCompletion t m else t).flt := by
    split
    · exact reportCompletion_runsTo run
    · exact run
  simp only [transmissionCompleted]
  split
  · rw [apply_ite State.flt, State.withTx_flt, ite_self]
    exact reported (h.count _ _)
  · exact h

theorem collisionSeen_runsTo : f.RunsTo (collisionSeen s).flt := by
  unfold collisionSeen
  split
  · exact h.count _ _
  · exact h

theorem jamEnded_runsTo : f.RunsTo (jamEnded s).flt := by
  unfold jamEnded
  split
  · split
    · exact h
    · split
      · exact h.raise _
      · exact h
  · exact h

/-! ### A burst (R121, R122, R126, R127, R129) -/

theorem repeatRequest_runsTo {x : Station} {reason : RepeatReason} :
    f.RunsTo (repeatRequest s x reason).flt := by
  simp only [repeatRequest]
  split
  · exact h
  · split
    · exact h.count _ _
    · exact h

theorem acceptMessage_runsTo {m : Message} {gap : Bool} : f.RunsTo (acceptMessage s m gap).flt := by
  simp only [acceptMessage]
  split
  · exact (h.count _ _).raise _
  · exact h.count _ _

theorem handOnMessage_runsTo {choose : Nat → Nat} {m : Message} {rt : Option ReceiveTiming} :
    f.RunsTo (handOnMessage choose s m rt).flt := by
  have taken := takeSooner_runsTo
    (s := (s.withChoices (s.choices + 1)).withArriving (handoffsOf s.cfg m rt)) h
    (choose := choose) (lag := lagOf choose s)
  simp only [handOnMessage, State.withChoices_flt]
  split
  · simpa using taken
  · exact taken

theorem carryOutBurst_runsTo {choose : Nat → Nat} {rt : Option ReceiveTiming} {o : BurstOutcome} :
    f.RunsTo (carryOutBurst choose s rt o).flt := by
  cases o with
  | collision => exact h.count _ _
  | discarded k => exact h.raise _
  | dropped => exact h
  | damaged k x reason => exact repeatRequest_runsTo (h.raise [k])
  | duplicate => exact h.count _ _
  | accepted m gap => exact handOnMessage_runsTo (acceptMessage_runsTo h)

theorem burstEnds_runsTo {choose : Nat → Nat} {b : Burst} : f.RunsTo (burstEnds choose s b).flt := by
  unfold burstEnds
  split
  · exact h
  · split
    · unfold burstTaken
      refine carryOutBurst_runsTo ?_
      exact h
    · simpa using h

/-! ### A capture write that completes (R71, R72) -/

theorem afterWrite_runsTo {choose : Nat → Nat} : f.RunsTo (afterWrite choose s).flt := by
  have completed : f.RunsTo (reportCompleteFrame s).flt := (reportCompleteFrame_flt s).symm ▸ h
  simp only [afterWrite]
  split
  · exact reportAbort_runsTo h
  · split
    · split
      · exact settleWith_runsTo completed
      · exact afterRelease_runsTo (evaluate_runsTo completed)
    · simpa using h

theorem captureWriteCompleted_runsTo {choose : Nat → Nat} {w : LineWrite} :
    f.RunsTo (captureWriteCompleted choose s w).flt := by
  have landed : f.RunsTo (writeLanded s w).flt := (writeLanded_flt s w).symm ▸ h
  simp only [captureWriteCompleted]
  split
  · simpa using h
  · exact afterWrite_runsTo landed

/-! ### The local port (R160, R162, R165) -/

theorem takeStart_runsTo : f.RunsTo (takeStart s).flt := by
  unfold takeStart
  split
  · simpa using h.takeMask _
  · exact h

theorem takeCommandByte_runsTo {code : Byte} : f.RunsTo (takeCommandByte s code).flt := by
  unfold takeCommandByte
  split
  · exact h
  split
  · exact takeStart_runsTo h
  split
  · simpa using h
  split
  · simpa using h
  split
  · exact h
  split
  · exact h
  split
  · exact h.emptySummary
  split
  · exact h
  split
  · exact h.clearCounters
  · exact h

theorem clockByte_runsTo {b : Byte} : f.RunsTo (clockByte s b).flt := by
  unfold clockByte
  split
  · exact h
  · exact takeCommandByte_runsTo h
  · unfold takeParameterByte
    split
    · simpa using h
    · split <;> exact h
  · exact h
  · exact h

end

/-! ## The commands -/

section
variable {f : FaultUnit} {effect : State → State}

/-- An effect on either side of what is on its way. -/
theorem eitherSide_runsTo {s : State} (h : f.RunsTo s.flt) (choose : Nat → Nat)
    (keeps : ∀ u : State, f.RunsTo u.flt → f.RunsTo (effect u).flt) :
    f.RunsTo (eitherSide choose effect s).flt := by
  rcases eitherSide_cases choose effect s with ⟨-, e⟩ | ⟨-, e | e⟩ <;> rw [e]
  · exact keeps _ h
  · exact keeps _ (arrive_runsTo (s := s.withChoices (s.choices + 1)) h)
  · exact arrive_runsTo (keeps (s.withChoices (s.choices + 1)) h)

/-- RESTART in the middle of what is on its way. -/
theorem aroundRestart_runsTo {s : State} (h : f.RunsTo s.flt) (choose : Nat → Nat)
    (keeps : ∀ u : State, f.RunsTo u.flt → f.RunsTo (effect u).flt) :
    f.RunsTo (aroundRestart choose effect s).flt := by
  by_cases alone : s.arriving.messages = []
  · rw [aroundRestart_noMessage choose effect alone, placeRequest_flt]
    exact keeps s h
  · rw [aroundRestart_message choose effect alone]
    exact arrive_runsTo (keeps _ (takeSooner_runsTo (s := s.withChoices (s.choices + 1)) h))

variable {s t : State} (h : f.RunsTo s.flt)
include h

theorem unlessReset_runsTo (e : unlessReset s effect = .next t)
    (keeps : f.RunsTo (effect s).flt) : f.RunsTo t.flt := by
  unfold unlessReset at e
  split at e
  · cases e; exact h
  · cases e; exact keeps

theorem afterArrivals_runsTo (e : afterArrivals s effect = .next t)
    (keeps : ∀ u : State, f.RunsTo u.flt → f.RunsTo (effect u).flt) : f.RunsTo t.flt :=
  unlessReset_runsTo h e (keeps _ (arrive_runsTo h))

theorem onInput_runsTo (e : onInput s effect = .next t)
    (keeps : ∀ u : State, f.RunsTo u.flt → f.RunsTo (effect u).flt) : f.RunsTo t.flt := by
  refine afterArrivals_runsTo h e fun u run => ?_
  split
  · exact keeps u run
  · exact run

theorem onCommandByte_runsTo (e : onCommandByte s effect = .next t)
    (keeps : ∀ u : State, f.RunsTo u.flt → f.RunsTo (effect u).flt) : f.RunsTo t.flt := by
  refine afterArrivals_runsTo h e fun u run => ?_
  split
  · exact keeps u run
  · exact run

/-! ### The commands with a case split of their own -/

theorem execLineBusy_runsTo (e : execLineBusy s = .next t) : f.RunsTo t.flt := by
  unfold execLineBusy at e
  split at e
  · cases e; exact h
  · exact afterArrivals_runsTo h e fun u run => (lineLeavesIdle_flt u).symm ▸ run

theorem execBurstEnd_runsTo {b : Burst} (e : execBurstEnd b s = .next t) : f.RunsTo t.flt := by
  unfold execBurstEnd at e
  split at e
  · cases e; exact h
  · exact afterArrivals_runsTo h e fun _ run => burstEnds_runsTo run

theorem execCaptureWriteComplete_runsTo (e : execCaptureWriteComplete s = .next t) : f.RunsTo t.flt := by
  unfold execCaptureWriteComplete at e
  split at e
  · cases e; exact h
  · split at e
    · exact afterArrivals_runsTo h e fun _ run => captureWriteCompleted_runsTo run
    · cases e
  all_goals exact afterArrivals_runsTo h e fun _ run => run

theorem execScanOutReadComplete_runsTo (e : execScanOutReadComplete s = .next t) : f.RunsTo t.flt := by
  unfold execScanOutReadComplete at e
  split at e
  · cases e; exact h
  · split at e
    · exact afterArrivals_runsTo h e fun _ run => run
    · cases e
  all_goals exact afterArrivals_runsTo h e fun _ run => run

theorem execByteClocked_runsTo {b : Byte} (e : execByteClocked b s = .next t) : f.RunsTo t.flt := by
  unfold execByteClocked at e
  split at e
  · exact unlessReset_runsTo h e (aroundRestart_runsTo h _ fun _ run => clockByte_runsTo run)
  · exact afterArrivals_runsTo h e fun _ run => clockByte_runsTo run

/-- Every command but a hard reset changes the Fault Unit through the unit's own operations alone. -/
theorem exec_runsTo {c : Instr} (noReset : c ≠ .hardReset) (e : exec c s = .next t) : f.RunsTo t.flt := by
  cases c with
  | hardReset => exact absurd rfl noReset
  | resetReleased => cases e; exact h
  | chipSelectFalls =>
    rw [exec, execChipSelectFalls] at e
    exact afterArrivals_runsTo h e fun _ run => run
  | chipSelectRises =>
    rw [exec, execChipSelectRises] at e
    exact afterArrivals_runsTo h e fun _ run => run
  | loadConfig last =>
    rw [exec, execLoadConfig] at e
    refine afterArrivals_runsTo h e fun u run => ?_
    split
    · simpa using run
    · exact run
  | readMember n =>
    rw [exec, execReadMember] at e
    refine afterArrivals_runsTo h e fun u run => ?_
    split <;> exact run
  | start => exact onCommandByte_runsTo h e fun _ run => takeStart_runsTo run
  | leave => exact onCommandByte_runsTo h e fun u run => (takeLeaveCommand_flt u).symm ▸ run
  | restart =>
    rw [exec, execRestart] at e
    refine unlessReset_runsTo h e (aroundRestart_runsTo h _ fun u run => ?_)
    split
    · simpa using run
    · exact run
  | readState =>
    rw [exec, execReadState] at e
    exact onCommandByte_runsTo h e fun _ run => run
  | readSchedule =>
    rw [exec, execReadSchedule] at e
    exact onCommandByte_runsTo h e fun _ run => run
  | readFaults => exact onCommandByte_runsTo h e fun _ run => run.emptySummary
  | readCounters =>
    rw [exec, execReadCounters] at e
    exact onCommandByte_runsTo h e fun _ run => run
  | clearCounters => exact onCommandByte_runsTo h e fun _ run => run.clearCounters
  | unknownCommand code =>
    rw [exec, execUnknownCommand] at e
    refine onCommandByte_runsTo h e fun u run => ?_
    split <;> exact run
  | byteClocked b => exact execByteClocked_runsTo h e
  | lineStart =>
    rw [exec, execLineStart] at e
    refine unlessReset_runsTo h e ?_
    rw [placeRequest_flt]
    exact lineStartWith_runsTo (beforeLineStart_runsTo h)
  | frameStart =>
    rw [exec, execFrameStart] at e
    refine unlessReset_runsTo h e ?_
    rw [placeRequest_flt]
    exact frameStartIfDue_runsTo (beforeLineStart_runsTo h)
  | beginMarker tag =>
    rw [exec, execBeginMarker] at e
    exact onInput_runsTo h e fun _ run => takeBegin_runsTo run
  | inputLine data =>
    rw [exec, execInputLine] at e
    exact onInput_runsTo h e fun _ run => takeLine_runsTo run
  | endMarker => exact onInput_runsTo h e fun _ run => takeEnd_runsTo run
  | captureTimeout => exact afterArrivals_runsTo h e fun _ run => takeTimeout_runsTo run
  | captureWriteComplete => exact execCaptureWriteComplete_runsTo h e
  | scanOutReadComplete => exact execScanOutReadComplete_runsTo h e
  | lineBusy => exact execLineBusy_runsTo h e
  | burstEnd b => exact execBurstEnd_runsTo h e
  | gapReached =>
    rw [exec, execGapReached] at e
    exact unlessReset_runsTo h e (arriveUnlessSending_runsTo ((gapReached_flt s).symm ▸ h))
  | backoffSlotEnd =>
    rw [exec, execBackoffSlotEnd] at e
    exact unlessReset_runsTo h e (arriveUnlessSending_runsTo ((slotEnd_flt s).symm ▸ h))
  | transmissionComplete => exact afterArrivals_runsTo h e fun _ run => transmissionCompleted_runsTo run
  | collision =>
    rw [exec, execCollision] at e
    exact unlessReset_runsTo h e (eitherSide_runsTo h _ fun _ run => collisionSeen_runsTo run)
  | jamEnd => exact afterArrivals_runsTo h e fun _ run => jamEnded_runsTo run

end

/-! ## The law at every step (R159) -/

theorem exec_faultLineLaw {c : Instr} {s t : State} (law : faultLineLaw s.flt = true)
    (e : exec c s = .next t) : faultLineLaw t.flt = true := by
  by_cases reset : c = .hardReset
  · subst reset
    cases e
    exact (by decide : faultLineLaw FaultUnit.initial = true)
  · exact (exec_runsTo .refl reset e).faultLineLaw law

theorem step_faultLineLaw {s t : State} (law : faultLineLaw s.flt = true) (e : step s = .next t) :
    faultLineLaw t.flt = true := by
  unfold step at e
  split at e
  · cases e; exact law
  · rename_i rest _
    exact exec_faultLineLaw (s := s.withPending rest) law e

/-- RESTART leaves the Fault Unit as it stands (R166). -/
theorem execRestart_flt {s t : State} (h : settled s) (e : exec .restart s = .next t) : t.flt = s.flt := by
  obtain ⟨released, nothing⟩ := h
  have noMessage : s.arriving.messages = [] := by rw [nothing]; rfl
  rw [exec, execRestart, unlessReset_released _ released, aroundRestart_noMessage _ _ noMessage] at e
  cases e
  rw [placeRequest_flt]
  split
  · exact takeRestart_flt s
  · rfl

/-- CLEAR_COUNTERS changes the counters alone (R162). -/
theorem execClearCounters_kept {s t : State} (h : settled s) (e : exec .clearCounters s = .next t) :
    t.flt.summary = s.flt.summary ∧ t.flt.mask = s.flt.mask ∧ t.flt.faultLine = s.flt.faultLine := by
  obtain ⟨released, nothing⟩ := h
  rw [exec, execClearCounters, onCommandByte, afterArrivals_nothing _ released nothing] at e
  cases e
  split <;> exact ⟨rfl, rfl, rfl⟩

/-- A raise at a line that follows the summary: a kind in the mask asserts it, another leaves it, and an empty
mask leaves it deasserted (R159). -/
theorem FaultUnit.raise_single_level {f : FaultUnit} (law : faultLineLaw f = true) (k : FaultKind) :
    (f.mask.getLsbD k.number.val = true → (f.raise [k]).faultLine = true) ∧
    (f.mask.getLsbD k.number.val = false → (f.raise [k]).faultLine = f.faultLine) ∧
    (f.mask = 0#21 → f.faultLine = false) := by
  rw [f.raise_single_faultLine, (faultLineLaw_iff f).1 law]
  exact ⟨fun inMask => by rw [inMask, Bool.or_true], fun outside => by rw [outside, Bool.or_false],
    fun empty => by rw [empty, faultLevel_noMask]⟩

/-- Settles O4: the law along the Fault Unit's own operations, and each command and a raise by its effect. -/
theorem faultLineFollowsSummary : Obligations.FaultLineFollowsSummary := by
  refine ⟨fun s t law e => step_faultLineLaw law e, fun s t e => ?reset, fun s t h phase e => ?read,
    fun s t h e => execRestart_flt h e, fun s t h e => execClearCounters_kept h e,
    fun f k law => FaultUnit.raise_single_level law k⟩
  case reset => cases e; rfl
  case read =>
    have run : exec .readFaults s = .next (takeReadFaults s) := onCommandByte_settled h phase takeReadFaults
    rw [run] at e
    cases e
    exact faultLevel_empty s.flt.mask

end Sys2Proof.Machine
end
